-- ==== Sys2Proof/Word.lean ====
section
/-! DEFINITION. The word types of RNFC-CORE: bytes, the 32-bit words of IMM, IRQS and VALUE, and the
40-bit command word (spec 30 R80, 10 R20, 10 R31, 10 R32). -/

namespace Sys2Proof

/-- A byte is 8 bits (00 R18). -/
abbrev Byte := BitVec 8

/-- The width of IRQS (00 R8 `IRQS_WIDTH`), of IMM (30 R81) and of VALUE (10 R32). -/
abbrev Word32 := BitVec 32

/-- A command word is 40 bits (30 R80). -/
abbrev CmdWord := BitVec 40

/-- The transport-specific value `e` of `Interface(e)`: opaque to the block, which hands it on
unchanged (20 R60, D40). Log 24. -/
abbrev BusErr := Nat

end Sys2Proof
end

