-- ==== Sys2Proof/Syntax.lean ====
section
/-! DEFINITION. The eighteen host operations of 30 R82, one constructor per row of `spec/opcode_table.json`.
Operands that are not in the command word (TX, RXCAP, CFG) are latches of State (10 R31, R33). -/

namespace Sys2Proof

/-- A host operation with the operand its command word carries (30 R81 to R83). -/
inductive Instr where
  /-- INIT, OPC 0x00 (40 R120). -/
  | init
  /-- MODE_ON, OPC 0x01 (41 R130). -/
  | modeOn
  /-- MODE_OFF, OPC 0x02 (41 R132). -/
  | modeOff
  /-- FIELD_ON, OPC 0x03 (41 R134). -/
  | fieldOn
  /-- FIELD_OFF, OPC 0x04 (41 R138). -/
  | fieldOff
  /-- MEAS_AMP, OPC 0x08 (42 R151). -/
  | measAmp
  /-- MEAS_PHASE, OPC 0x09 (42 R152). -/
  | measPhase
  /-- MEAS_CAP, OPC 0x0A (42 R153). -/
  | measCap
  /-- CAL_CAP, OPC 0x0B (42 R156). -/
  | calCap
  /-- WAIT_FOR_CARD, OPC 0x10 (43 R170). -/
  | waitForCard
  /-- START_A, OPC 0x20 (44 R190). -/
  | startA
  /-- SESSION_END, OPC 0x21 (44 R195). -/
  | sessionEnd
  /-- XCV_REQA, OPC 0x24 (44 R220). -/
  | xcvReqa
  /-- XCV_WUPA, OPC 0x25 (44 R221). -/
  | xcvWupa
  /-- XCV_ANTICOLL, OPC 0x26, IMM = bit_count (44 R222). -/
  | xcvAnticoll (bitCount : Word32)
  /-- XCV_STANDARD, OPC 0x27, IMM = timeout (44 R223). -/
  | xcvStandard (timeout : Word32)
  /-- DEP_NEW, OPC 0x30 (45 R240). -/
  | depNew
  /-- DEP_XCV, OPC 0x31 (45 R245). -/
  | depXcv
  deriving DecidableEq, Repr, Inhabited

end Sys2Proof
end

