-- ==== Sys2Proof/Decode.lean ====
section
/-! DEFINITION. Decoding and encoding of the 40-bit command word (30 R80 to R84). -/

namespace Sys2Proof

/-- Why a command word is refused by the decoder (30 R84). -/
inductive DecodeError where
  /-- OPC is not in the table of 30 R82. -/
  | reservedOpcode
  /-- IMM is not 0 in an operation that takes no immediate. -/
  | immNotZero
  deriving DecidableEq, Repr

/-- `OPC = word[39:32]` (30 R80). -/
def opcOf (w : CmdWord) : Byte := w.extractLsb' 32 8

/-- `IMM = word[31:0]` (30 R80). -/
def immOf (w : CmdWord) : Word32 := w.extractLsb' 0 32

/-- An operation that takes no immediate: IMM must be 0 (30 R81, R84). -/
def withoutImm (i : Instr) (imm : Word32) : Except DecodeError Instr :=
  if imm = 0 then .ok i else .error .immNotZero

/-- The operation a command word selects: the table of 30 R82, total on all words. -/
def decode (w : CmdWord) : Except DecodeError Instr :=
  match (opcOf w).toNat with
  | 0x00 => withoutImm .init (immOf w)
  | 0x01 => withoutImm .modeOn (immOf w)
  | 0x02 => withoutImm .modeOff (immOf w)
  | 0x03 => withoutImm .fieldOn (immOf w)
  | 0x04 => withoutImm .fieldOff (immOf w)
  | 0x08 => withoutImm .measAmp (immOf w)
  | 0x09 => withoutImm .measPhase (immOf w)
  | 0x0A => withoutImm .measCap (immOf w)
  | 0x0B => withoutImm .calCap (immOf w)
  | 0x10 => withoutImm .waitForCard (immOf w)
  | 0x20 => withoutImm .startA (immOf w)
  | 0x21 => withoutImm .sessionEnd (immOf w)
  | 0x24 => withoutImm .xcvReqa (immOf w)
  | 0x25 => withoutImm .xcvWupa (immOf w)
  | 0x26 => .ok (.xcvAnticoll (immOf w))
  | 0x27 => .ok (.xcvStandard (immOf w))
  | 0x30 => withoutImm .depNew (immOf w)
  | 0x31 => withoutImm .depXcv (immOf w)
  | _ => .error .reservedOpcode

/-- The operation code of an instruction (30 R82). -/
def opcodeOf : Instr → Byte
  | .init => 0x00
  | .modeOn => 0x01
  | .modeOff => 0x02
  | .fieldOn => 0x03
  | .fieldOff => 0x04
  | .measAmp => 0x08
  | .measPhase => 0x09
  | .measCap => 0x0A
  | .calCap => 0x0B
  | .waitForCard => 0x10
  | .startA => 0x20
  | .sessionEnd => 0x21
  | .xcvReqa => 0x24
  | .xcvWupa => 0x25
  | .xcvAnticoll _ => 0x26
  | .xcvStandard _ => 0x27
  | .depNew => 0x30
  | .depXcv => 0x31

/-- The immediate of an instruction: "its value is the operand" (30 R81), 0 where it takes none. -/
def immediateOf : Instr → Word32
  | .xcvAnticoll bitCount => bitCount
  | .xcvStandard timeout => timeout
  | .init => 0
  | .modeOn => 0
  | .modeOff => 0
  | .fieldOn => 0
  | .fieldOff => 0
  | .measAmp => 0
  | .measPhase => 0
  | .measCap => 0
  | .calCap => 0
  | .waitForCard => 0
  | .startA => 0
  | .sessionEnd => 0
  | .xcvReqa => 0
  | .xcvWupa => 0
  | .depNew => 0
  | .depXcv => 0

/-- The command word of an instruction: OPC above IMM (30 R80). -/
def encode (i : Instr) : CmdWord := opcodeOf i ++ immediateOf i

/-- The instruction the decoder reads from a table row's bits, numbered as `spec/opcode_table.json` numbers
them. There is one word of 40 bits; bits at and above `nbits` are 0, and a longer word is no command. -/
def decodeTableWord (nbits w : Nat) : Option Instr :=
  if nbits ≤ 40 then (decode (BitVec.ofNat 40 (w % 2 ^ nbits))).toOption else none

end Sys2Proof
end

