-- ==== Sys2Proof/Config.lean ====
section
/-! DEFINITION. What an implementation fixes (the parameters of 00 R9), the names and types of the AFE
boundary (10 R35 to R37, 60 R275), what ENV answers to a port transaction, and the free values. -/

namespace Sys2Proof

/-! ## Names of the boundary -/

/-- The interrupt names of 60 R275. -/
inductive IrqName where
  | dct | cac | cat | txe | rxe | nre | errFrame | errPar | errCrc | col | wuAmp | wuPhase | wuCap
  deriving DecidableEq, Repr, Inhabited

/-- The AFE commands of 10 R36. -/
inductive AfeCmd where
  | setDefault | stop | resetRxGain | txReqa | txWupa | txWithoutCrc | txWithCrc | initialRfCa
  | measVdd | measAmp | measPhase | measCap | adjustReg | calCap
  deriving DecidableEq, Repr, Inhabited

/-- The wake-up sensing methods, in the order they are resolved (43 R174). -/
inductive Method where
  | amp | phase | cap
  deriving DecidableEq, Repr, Inhabited

/-- External-field detection mode of OP_CONTROL (10 R35). A read may show a value CTRL never writes. -/
inductive Efd where
  | off | auto | other (n : Nat)
  deriving DecidableEq, Repr, Inhabited

/-- The location OP_CONTROL (10 R35). `unnamed` stands for all its other bits. -/
structure OpControl where
  en : Bool := false
  rxEn : Bool := false
  txEn : Bool := false
  wu : Bool := false
  efd : Efd := .off
  unnamed : Nat := 0
  deriving DecidableEq, Repr, Inhabited

/-- The location FIFO_STATUS_B (10 R35). -/
structure FifoStatusB where
  countHi : Bool := false
  ovr : Bool := false
  undr : Bool := false
  npLb : Bool := false
  deriving DecidableEq, Repr, Inhabited

/-- The location COLLISION_STATUS (10 R35): `c_bit` 0..7, `c_byte` at most 9 bits (30 R105 (e)). -/
structure CollisionStatus where
  cByte : BitVec 9 := 0
  cBit : BitVec 3 := 0
  deriving DecidableEq, Repr, Inhabited

/-- The location CAP_CAL_RESULT (10 R35). The width of `value` is AfeMap's: any width up to VALUE's 32
bits, zero-extended (log 21). -/
structure CapCalResult where
  calEnd : Bool := false
  calErr : Bool := false
  value : Word32 := 0
  deriving DecidableEq, Repr, Inhabited

/-- What the AFE would show on each location CTRL can read, at the moment of one port transaction: "A read
is answered by ENV at the moment it is made" (20 R61), with any value (20 R58). Byte `i` of `irqStatus`
is IRQ_STATUS[i]. Log 2. -/
structure AfeView where
  identity : Byte := 0
  opControl : OpControl := {}
  oscOk : Bool := false
  adcResult : Byte := 0
  irqStatus : Word32 := 0
  countLo : Byte := 0
  fifoB : FifoStatusB := {}
  collision : CollisionStatus := {}
  capCal : CapCalResult := {}
  fifo : List Byte := []
  deriving DecidableEq, Repr, Inhabited

/-- ENV's answer to one port transaction: it completes (and, for a read, shows the view's value), or
fails with a transport value (20 R60). -/
inductive PortAnswer where
  | done (v : AfeView)
  | fail (e : BusErr)
  deriving DecidableEq, Repr, Inhabited

/-! ## Parameters -/

/-- `VARIANT` (00 R3, R9): no rule branches on it. -/
inductive Variant where
  | familyA | familyB
  deriving DecidableEq, Repr, Inhabited

/-- `N_IRQ`, 2 to 4 interrupt status registers (00 R9, conflict C10). -/
inductive IrqCount where
  | two | three | four
  deriving DecidableEq, Repr, Inhabited

/-- The number `N_IRQ` as a natural. -/
def IrqCount.toNat : IrqCount → Nat
  | .two => 2
  | .three => 3
  | .four => 4

/-- `IRQ_BIT`: the bit of IRQS that carries each named interrupt (10 R23); it is also what `AfeMap` holds of
interrupts (00 R9). -/
structure IrqBits where
  dct : Nat
  cac : Nat
  cat : Nat
  txe : Nat
  rxe : Nat
  nre : Nat
  errFrame : Nat
  errPar : Nat
  errCrc : Nat
  col : Nat
  wuAmp : Nat
  wuPhase : Nat
  wuCap : Nat
  deriving DecidableEq, Repr, Inhabited

/-- `IRQ_BIT(n)` (10 R23). -/
def IrqBits.of (b : IrqBits) : IrqName → Nat
  | .dct => b.dct
  | .cac => b.cac
  | .cat => b.cat
  | .txe => b.txe
  | .rxe => b.rxe
  | .nre => b.nre
  | .errFrame => b.errFrame
  | .errPar => b.errPar
  | .errCrc => b.errCrc
  | .col => b.col
  | .wuAmp => b.wuAmp
  | .wuPhase => b.wuPhase
  | .wuCap => b.wuCap

/-- All bit positions of the map, for the check that it is injective. -/
def IrqBits.all (b : IrqBits) : List Nat :=
  [b.dct, b.cac, b.cat, b.txe, b.rxe, b.nre, b.errFrame, b.errPar, b.errCrc, b.col, b.wuAmp, b.wuPhase, b.wuCap]

/-- A member of `PERIODS` (00 R9): its milliseconds, its index and its slow bit. -/
structure Period where
  ms : Nat
  index : Nat
  slow : Bool
  deriving DecidableEq, Repr, Inhabited

/-- The named AFE locations of 10 R35. -/
inductive AfeLocation where
  | identity | opControl | oscStatus | adcResult | afeSupply | auxClk | regAdjust | txDriver | modulation | bitRate
  | swGuard | irqStatus (i : Nat) | irqMask (i : Nat) | opMode | txLength | frameConf | rxConf | nrt | nrtCtrl
  | fifoStatusA | fifoStatusB | collisionStatus | wuTimerControl | wuRef (m : Method) | wuConf (m : Method)
  | capCalConf | capCalResult | fuseCtrl
  deriving DecidableEq, Repr, Inhabited

/-- The named fields of the AFE locations (10 R35). A location that is one byte or one natural has none. -/
inductive AfeField where
  | en | rxEn | txEn | wu | efd | oscOk | sup3v | auxOut | regS | dRes | trAm | amDepth | txRate | rxRate | om
  | raw | antcl | corrStrict | agcEn | countLo | countHi | ovr | undr | npLb | cByte | cBit
  | index | slow | enAmp | enPhase | enCap | delta | aaEn | aaIncludeIrq | aaWeight
  | calMode | calEnd | calErr | calValue
  deriving DecidableEq, Repr, Inhabited

/-- The position of a field in its location: its lowest bit and its width. -/
structure FieldPlace where
  lsb : Nat
  width : Nat
  deriving DecidableEq, Repr, Inhabited

/-- `AfeMap` (00 R9): the address of every location, the opcode of every command, the position of every field. The
bit of every interrupt, its fourth part, is `IrqBits`. "Outside the model" is what is done with it on the transport
(00 R6 (a), (e); 20 R50): no rule reads it (log 20). -/
structure AfeMap where
  address : List (AfeLocation × Nat)
  opcode : List (AfeCmd × Nat)
  place : List (AfeField × FieldPlace)
  deriving DecidableEq, Repr, Inhabited

/-- The address of a location, none where the map has no entry. -/
def AfeMap.addressOf (m : AfeMap) (l : AfeLocation) : Option Nat := m.address.lookup l

/-- The opcode of a command. -/
def AfeMap.opcodeOf (m : AfeMap) (c : AfeCmd) : Option Nat := m.opcode.lookup c

/-- The position of a field. -/
def AfeMap.placeOf (m : AfeMap) (f : AfeField) : Option FieldPlace := m.place.lookup f

/-- Every location of 10 R35 on a chip with `n` interrupt status registers. -/
def AfeLocation.all (n : Nat) : List AfeLocation :=
  [.identity, .opControl, .oscStatus, .adcResult, .afeSupply, .auxClk, .regAdjust, .txDriver, .modulation, .bitRate,
    .swGuard] ++ (List.range n).map .irqStatus ++ (List.range n).map .irqMask ++
    [.opMode, .txLength, .frameConf, .rxConf, .nrt, .nrtCtrl, .fifoStatusA, .fifoStatusB, .collisionStatus,
      .wuTimerControl, .wuRef .amp, .wuRef .phase, .wuRef .cap, .wuConf .amp, .wuConf .phase, .wuConf .cap,
      .capCalConf, .capCalResult, .fuseCtrl]

/-- Every command of 10 R36. -/
def AfeCmd.all : List AfeCmd :=
  [.setDefault, .stop, .resetRxGain, .txReqa, .txWupa, .txWithoutCrc, .txWithCrc, .initialRfCa, .measVdd, .measAmp,
    .measPhase, .measCap, .adjustReg, .calCap]

/-- Every named field of 10 R35. -/
def AfeField.all : List AfeField :=
  [.en, .rxEn, .txEn, .wu, .efd, .oscOk, .sup3v, .auxOut, .regS, .dRes, .trAm, .amDepth, .txRate, .rxRate, .om,
    .raw, .antcl, .corrStrict, .agcEn, .countLo, .countHi, .ovr, .undr, .npLb, .cByte, .cBit, .index, .slow, .enAmp,
    .enPhase, .enCap, .delta, .aaEn, .aaIncludeIrq, .aaWeight, .calMode, .calEnd, .calErr, .calValue]

/-- `T_UNIT` (00 R9): a unit of time, as the fraction `num / den` of a second. No rule reads it: the quantities in it
are added to one another and written to NRT (30 R93). -/
structure TimeUnit where
  num : Nat
  den : Nat
  deriving DecidableEq, Repr, Inhabited

/-- The open parameters of 00 R9, every row of its table. Durations on the timer port (`tFieldOn`, `tGuard`) are in
ticks; the no-response-timer quantities are in `tUnit` (log 23). -/
structure Params where
  variant : Variant
  afeMap : AfeMap
  hasFuseStep : Bool
  nIrq : IrqCount
  irqBit : IrqBits
  tFieldOn : Option Nat
  dResNominal : Nat
  amDepth : Nat
  nrtAdjJitter : Nat
  nrtAdjRx : Nat
  tUnit : TimeUnit
  tShort : Nat
  tGuard : Nat
  rats0 : Byte
  rats1 : Byte
  tRats : Nat
  tDep : Nat
  atsCap : Nat
  depCap : Nat
  fifoDepth : Nat
  periods : List Period
  ticksPerMs : Nat
  txbufCap : Nat
  rxbufCap : Nat
  deriving DecidableEq, Repr, Inhabited

/-- The reference instantiation of 95 section 0: "an example chosen by the spec for the vectors only". It is
the value of the parameters in `State.reset` and in the tests; every statement is for every value of
them. DESIGN CHOICE, unsafe, log 5 (`VARIANT`, `AfeMap`, `T_UNIT`, `D_RES_NOMINAL`, `AM_DEPTH` and the two host
buffer sizes are not in 95 and are chosen here: the map numbers its names in order and gives every field 32 bits of
its own). -/
def Config.reference : Params where
  variant := .familyA
  afeMap :=
    { address := (AfeLocation.all 2).zipIdx
      opcode := AfeCmd.all.zipIdx
      place := AfeField.all.zipIdx.map (fun q => (q.1, { lsb := 32 * q.2, width := 32 })) }
  hasFuseStep := false
  nIrq := .two
  irqBit :=
    { dct := 0, cac := 1, cat := 2, txe := 3, rxe := 4, nre := 5, col := 6, errFrame := 8, errPar := 9,
      errCrc := 10, wuAmp := 11, wuPhase := 12, wuCap := 13 }
  tFieldOn := none
  dResNominal := 0
  amDepth := 0
  nrtAdjJitter := 64
  nrtAdjRx := 512
  tUnit := { num := 1, den := 13560000 }
  tShort := 1024
  tGuard := 5
  rats0 := 0xE0
  rats1 := 0x80
  tRats := 100000
  tDep := 100000
  atsCap := 32
  depCap := 256
  fifoDepth := 512
  periods :=
    (List.range 8).map (fun i => { ms := 10 * (i + 1), index := i, slow := true }) ++
      (List.range 8).map (fun i => { ms := 100 * (i + 1), index := i, slow := false })
  ticksPerMs := 1
  txbufCap := 512
  rxbufCap := 512

/-! ## Free values: constants with no body, applied to the counter `draws` of State -/

/-- What ENV answers to a port transaction when no answer has been placed for it: any answer (20 R58, R60;
93 U3, U19). DESIGN CHOICE, safe, log 1. -/
opaque Config.freeAnswer : Nat → PortAnswer

/-- By how much the timer has advanced at a read for which no increment has been placed: any amount
(00 R15, 70 R344). DESIGN CHOICE, safe, log 3. -/
opaque Config.freeTick : Nat → Nat

/-- The level of the IRQ line at a sample for which none has been placed (43 R178). DESIGN CHOICE, safe,
log 16. -/
opaque Config.freeLevel : Nat → Bool

/-- VALUE after an operation that did not end Ok (10 R32, 60 R286, 93 U17). DESIGN CHOICE, safe, log 10. -/
opaque Config.freeValue : Nat → Word32

/-- RX (and so RXLEN) after an operation that did not end Ok (10 R32, 60 R286, 93 U17). DESIGN CHOICE, safe,
log 10. -/
opaque Config.freeRx : Nat → List Byte

/-- ERRINFO after an operation that did not end with Interface (10 R32, 93 U17). DESIGN CHOICE, safe,
log 10. -/
opaque Config.freeErrinfo : Nat → BusErr

end Sys2Proof
end

