-- ==== Sys2Proof/Machine/State.lean ====
section
/-! DEFINITION. Everything the machine holds: the block registers of 10 R20, the latches of 10 R31 and R32, the
sequencer position (10 R29), the event trace (00 R13), and the inputs that ENV, TIMER and HOST have
placed. Plain data throughout. -/

namespace Sys2Proof.Machine

/-! ## Register values -/

/-- MODE (10 R21). -/
inductive Mode where
  | off | on | wakeup
  deriving DecidableEq, Repr, Inhabited

/-- SESS (10 R24). -/
inductive Sess where
  | none | a | dep
  deriving DecidableEq, Repr, Inhabited

/-- The errors an operation can end with (60 R270), `Interface` with its transport value. -/
inductive Err where
  | interface (e : BusErr)
  | timeout
  | framing
  | parity
  | crc
  | collision
  | fifoOverflow
  | fifoUnderflow
  | framingLastByteMissingParity
  | fieldCollision
  | responseTooShort
  | responseTooLong
  | txFrameTooBig
  | rxFrameTooBig
  | protocol
  | calibrationFault
  | cancelled
  deriving DecidableEq, Repr, Inhabited

/-! ## Events (00 R13) -/

/-- The location of a read (10 R35, rows with dir R or M). -/
inductive ReadLoc where
  | identity | opControl | oscStatus | adcResult | irqStatus (i : Nat) | fifoStatusA | fifoStatusB
  | collisionStatus | capCalResult
  deriving DecidableEq, Repr, Inhabited

/-- `R(loc)=v`: a location together with the value ENV answered. -/
inductive ReadVal where
  | identity (v : Byte)
  | opControl (v : OpControl)
  | oscStatus (oscOk : Bool)
  | adcResult (v : Byte)
  | irqStatus (i : Nat) (v : Byte)
  | fifoStatusA (countLo : Byte)
  | fifoStatusB (v : FifoStatusB)
  | collisionStatus (v : CollisionStatus)
  | capCalResult (v : CapCalResult)
  deriving DecidableEq, Repr, Inhabited

/-- The configuration of one sensing method written to WU_CONF (10 R35). -/
structure WuConf where
  delta : Byte
  aaEn : Bool
  aaIncludeIrq : Bool
  aaWeight : Byte
  deriving DecidableEq, Repr, Inhabited

/-- The value written to WU_TIMER_CONTROL (10 R35, 43 R173). -/
structure WuTimerControl where
  index : BitVec 4
  slow : Bool
  enAmp : Bool
  enPhase : Bool
  enCap : Bool
  deriving DecidableEq, Repr, Inhabited

/-- `W(loc,v)`: a written location with its value (10 R35, rows with dir W or M). A location of which CTRL
writes one value only carries none: AUX_CLK `out` = DISABLED, MODULATION `tr_am` = OOK, BIT_RATE both
R106, OP_MODE `om` = ISO14443A_INITIATOR, NRT_CTRL STOP, CAP_CAL_CONF `mode` = AUTO, FUSE_CTRL
DISABLED. -/
inductive AfeWrite where
  | opControl (v : OpControl)
  | afeSupply (sup3v : Bool)
  | auxClkDisabled
  | regAdjust (regS : Bool)
  | txDriver (dRes : Nat)
  | modulationOok (amDepth : Nat)
  | bitRate106
  | swGuard (n : Nat)
  | irqMask (i : Nat) (v : Byte)
  | opModeIso14443aInitiator
  | txLength (bits : Nat)
  | frameConf (raw antcl : Bool)
  | rxConf (corrStrict agcEn : Bool)
  | nrt (deadline : Nat)
  | nrtCtrlStop
  | wuTimerControl (v : WuTimerControl)
  | wuRef (m : Method) (v : Byte)
  | wuConf (m : Method) (v : WuConf)
  | capCalConfAuto
  | fuseCtrlDisabled
  deriving DecidableEq, Repr, Inhabited

/-- A port transaction as it is started (20 R51). -/
inductive Txn where
  | cmd (c : AfeCmd)
  | read (l : ReadLoc)
  | write (w : AfeWrite)
  | fifoWrite (bytes : List Byte)
  | fifoRead (n : Nat)
  deriving DecidableEq, Repr, Inhabited

/-- What is sent to LOG (10 R34, D43). -/
inductive LogMsg where
  | identity (id : Byte)
  | vddMv (mv : Nat)
  | fieldOffFailed (e : BusErr)
  | modeOffFailed (e : BusErr)
  deriving DecidableEq, Repr, Inhabited

/-- The event alphabet of 00 R13; `fail t e` is the transaction `t` with `FAIL(e)` appended. -/
inductive Event where
  | cmd (c : AfeCmd)
  | read (v : ReadVal)
  | write (w : AfeWrite)
  | fifoWrite (bytes : List Byte)
  | fifoRead (n : Nat) (bytes : List Byte)
  | time (t : Nat)
  | yield
  | edge
  | log (m : LogMsg)
  | fail (t : Txn) (e : BusErr)
  deriving DecidableEq, Repr, Inhabited

/-! ## The sequencer (10 R29, R40, R41) -/

/-- The `Frame` tag of an exchange (30 R83). -/
inductive FrameKind where
  | reqA | wupA | anticoll | standard
  deriving DecidableEq, Repr, Inhabited

/-- Where the response of an exchange goes: the host's RX (44 R214 to R216), DEP_NEW's ATS decoder (45 R240), or
DEP_XCV's block handler with the header it sent and the host's RXCAP (45 R245). -/
inductive Dest where
  | host
  | depNew
  | depXcv (hdr : Byte) (rxcap : Nat)
  deriving DecidableEq, Repr, Inhabited

/-- The operands of a running `Exchange` (44 R200): kept until its decode. -/
structure Xcv where
  kind : FrameKind
  bits : Nat
  tx : List Byte
  cap : Nat
  dest : Dest
  deriving DecidableEq, Repr, Inhabited

/-- A loop that calls IrqRefresh in each iteration, with its deadline: `IrqWait(n, d)` (60 R283), FIELD_ON S7
(41 R134; no deadline when T_FIELD_ON is unset), exchange S6 (44 R209). -/
inductive Poll where
  | irq (n : IrqName) (deadline : Nat)
  | field (deadline : Option Nat)
  | xcv (x : Xcv) (deadline : Nat)
  deriving DecidableEq, Repr, Inhabited

/-- What a timer read `t0 <- Now()` starts. -/
inductive Timed where
  | irqWait (n : IrqName) (d : Nat)
  | fieldOn (d : Nat)
  | xcv (x : Xcv)
  | calCap
  | delay (d : Nat)
  deriving DecidableEq, Repr, Inhabited

/-- The fields a `RegModify` of OP_CONTROL sets (D44). -/
inductive OpcUpdate where
  | efdAuto | txRxOn | txRxOff
  deriving DecidableEq, Repr, Inhabited

/-- The two halves whose `Interface(e)` is logged and dropped (44 R192, R196). -/
inductive Attempt where
  | fieldOff | modeOff
  deriving DecidableEq, Repr, Inhabited

/-- One step of the sequencer (00 R10) with the temporaries it needs (10 R40). What each does is `microStep` of
`Machine/Sequencer.lean`. -/
inductive Micro where
  /-- `x[MODE] <- m` -/
  | setMode (m : Mode)
  /-- `x[READY] <- 1` -/
  | setReady
  /-- `x[SESS] <- v` -/
  | setSess (v : Sess)
  /-- `Cmd(c)` -/
  | cmd (c : AfeCmd)
  /-- `RegWrite` -/
  | write (w : AfeWrite)
  /-- `FifoWrite(bytes)` -/
  | fifoWrite (bytes : List Byte)
  /-- INIT S3 -/
  | readIdentity
  /-- one iteration of the oscillator poll (40 R122) -/
  | pollOsc
  /-- `RegModify(OP_CONTROL, ..)`: its read, which puts its write next -/
  | modifyOpControl (u : OpcUpdate)
  /-- read number `i` of an IrqClear (60 R281) -/
  | drainIrq (i : Nat)
  /-- the last step of an IrqClear, `x[IRQS] <- 0` -/
  | zeroIrqs
  /-- `t0 <- Now()` -/
  | startTimer (w : Timed)
  /-- read number `i` of the IrqRefresh of a loop (60 R280) -/
  | refresh (i : Nat) (k : Poll)
  /-- the tests of a loop after its IrqRefresh -/
  | test (k : Poll)
  /-- the deadline test of a loop -/
  | deadline (k : Poll)
  /-- `Yield()` -/
  | yield
  /-- the ADC read of MeasureVdd, with INIT S5's conversion; puts INIT S6 next -/
  | readVdd
  /-- the ADC read of a Measure in WAIT_FOR_CARD S7; puts the write of WU_REF next -/
  | readRef (m : Method)
  /-- the ADC read of MEAS_*, and its `return v` -/
  | returnAdc
  /-- one read of CAP_CAL_RESULT with its flag tests (CAL_CAP S4) -/
  | pollCal (deadline : Nat)
  /-- the deadline test of CAL_CAP S4 -/
  | calDeadline (deadline : Nat)
  /-- the test of `Delay` (60 R285) -/
  | delayUntil (t : Nat)
  /-- `WaitRise()` with the level last seen, none before the first sample (43 R178) -/
  | waitRise (last : Option Bool)
  /-- exchange S8 -/
  | readFifoB (x : Xcv)
  /-- exchange S9, with the high bit of the count read in S8 -/
  | readFifoA (x : Xcv) (countHi : Bool)
  /-- `FifoRead(n)` of exchange S10 -/
  | readFifo (x : Xcv) (n : Nat)
  /-- the read of COLLISION_STATUS in DecodeAnticoll, with the bytes decoded so far -/
  | readCollision (x : Xcv) (out : List Byte)
  /-- the decoded response and its bit count go to the exchange's destination -/
  | deliver (x : Xcv) (data : List Byte) (bits : Nat)
  /-- `raise e` -/
  | raise (e : Err)
  /-- the end of an attempted half -/
  | attemptEnd (a : Attempt)
  /-- the end of START_A S1 and S2, whose errors go to path F (44 R192) -/
  | startAGuard
  deriving DecidableEq, Repr, Inhabited

/-- SEQ (10 R29): Idle, or the running operation with the steps that remain, the first of them the current one.
An operation with no step left does `return 0`. Log 13. -/
inductive Seq where
  | idle
  | busy (op : Instr) (todo : List Micro)
  deriving DecidableEq, Repr, Inhabited

/-! ## The host's acts (70 R340) -/

/-- What the host does at its port: writes an operand latch, issues a command word, asserts CANCEL, resets the
block. -/
inductive HostAct where
  | writeTx (bytes : List Byte)
  | writeRxcap (n : Nat)
  | writeCfg (bytes : List Byte)
  | issue (w : CmdWord)
  | cancel
  | reset
  deriving DecidableEq, Repr, Inhabited

/-! ## State -/

/-- The machine. -/
structure State where
  /-- the parameters of 00 R9; nothing writes them (log 5) -/
  params : Params
  /-- READY (10 R27) -/
  ready : Bool
  /-- FATAL (10 R28) -/
  fatal : Bool
  /-- MODE (10 R21) -/
  mode : Mode
  /-- IRQS (10 R22) -/
  irqs : Word32
  /-- SESS (10 R24) -/
  sess : Sess
  /-- FSC (10 R25) -/
  fsc : BitVec 9
  /-- SPIN (10 R26) -/
  spin : BitVec 1
  /-- SEQ (10 R29) -/
  seq : Seq
  /-- OPC (10 R31) -/
  opc : Byte
  /-- IMM (10 R31) -/
  imm : Word32
  /-- TX; TXLEN is its length (10 R31) -/
  tx : List Byte
  /-- RXCAP (10 R31) -/
  rxcap : Nat
  /-- CFG, the 13-byte WakeupConfig image (10 R31, 30 R95) -/
  cfg : List Byte
  /-- STATUS (10 R32) -/
  status : Byte
  /-- VALUE (10 R32) -/
  value : Word32
  /-- ERRINFO (10 R32) -/
  errinfo : BusErr
  /-- RX; RXLEN is its length (10 R32) -/
  rx : List Byte
  /-- the event trace, oldest first (00 R13) -/
  trace : List Event
  /-- the last instant the timer returned (model's own, log 3) -/
  clock : Nat
  /-- acts of the host not yet taken (model's own, log 4) -/
  host : List HostAct
  /-- answers of ENV to port transactions not yet made (model's own, log 1) -/
  port : List PortAnswer
  /-- advances of the timer at reads not yet made (model's own, log 3) -/
  ticks : List Nat
  /-- levels of the IRQ line at samples not yet taken (model's own, log 16) -/
  line : List Bool
  /-- how many free values have been drawn (model's own, log 10) -/
  draws : Nat
  deriving DecidableEq, Repr, Inhabited

/-- There is no fault: no rule of the spec stops the machine. An error is a result code (60 R270) and an
operation that does not end keeps running (00 R14 (c)). Nobody raises one; safe. -/
inductive Fault where
  deriving DecidableEq, Repr

/-- Why `exec` gives no next state. -/
inductive Refusal where
  /-- Raised by every meaning when SEQ is not Idle: the host issued while an operation runs, and "a host that
  breaks the right-hand column has no move in the model" (70 R340, 20 R66, 93 U16). `step` never gets
  there. Safe: nothing is claimed. Log 22. -/
  | sequencerBusy
  /-- Raised by an arm of `exec` whose instruction has no meaning yet; none has. Safe: nothing is claimed. -/
  | notModelled (mnemonic : String)
  deriving DecidableEq, Repr

/-- The state after a hardware reset of a block with parameters `p`, before anything is placed at its ports
(70 R321). The values of FSC, SPIN and the latches are DESIGN CHOICE, unsafe: logs 6, 7, 8; the model's
own fields: logs 1, 3, 4, 10, 16. -/
def State.resetWith (p : Params) : State where
  params := p
  ready := false
  fatal := false
  mode := .off
  irqs := 0
  sess := .none
  fsc := 0
  spin := 0
  seq := .idle
  opc := 0
  imm := 0
  tx := []
  rxcap := 0
  cfg := List.replicate 13 0
  status := 0
  value := 0
  errinfo := 0
  rx := []
  trace := []
  clock := 0
  host := []
  port := []
  ticks := []
  line := []
  draws := 0

/-- The machine right after reset, with the reference parameters of 95 section 0 (log 5). -/
def State.reset : State := State.resetWith Config.reference

end Sys2Proof.Machine
end

