-- ==== Sys2Proof/Machine/Operands.lean ====
section
/-! DEFINITION. The operand forms and the computations of 30 R85 to R98 and R105, on naturals and bytes: nothing
here reads or writes State. -/

namespace Sys2Proof.Machine

/-! ## Counts and lengths -/

/-- `ceil8(n) = (n + 7) div 8` (00 R18). -/
def ceil8 (n : Nat) : Nat := (n + 7) / 8

/-- `rx_bytes = count_lo + 256 * count_hi` (30 R94). -/
def receivedBytes (countLo : Byte) (countHi : Bool) : Nat :=
  countLo.toNat + 256 * countHi.toNat

/-- `T_DEFAULT` = 500 ms in ticks (00 R8, 70 R344). -/
def tDefault (p : Params) : Nat := 500 * p.ticksPerMs

/-- `nrt = timeout + NRT_ADJ_JITTER + NRT_ADJ_RX`, an unbounded natural (30 R93). -/
def nrtDeadline (p : Params) (timeout : Nat) : Nat :=
  timeout + p.nrtAdjJitter + p.nrtAdjRx

/-! ## Supply voltage -/

/-- `vdd_mv = (raw * 234 + 5) div 10` (30 R98). -/
def vddMv (raw : Byte) : Nat := (raw.toNat * 234 + 5) / 10

/-- `sup3v = 1 if vdd_mv < 3600 else 0` (30 R98). -/
def sup3v (raw : Byte) : Bool := vddMv raw < 3600

/-! ## ISO-DEP bytes -/

/-- The I-block header `0x02 | SPIN` (30 R87). -/
def iBlockHeader (spin : BitVec 1) : Byte := 0x02 ||| spin.setWidth 8

/-- A response that is an S(WTX) request: exactly 2 bytes, the first 0xF2 (30 R88). -/
def isWtx (resp : List Byte) : Bool := resp.length == 2 && resp.headD 0 == 0xF2

/-- The reply to an S(WTX) request: `[0xF2, resp[1] & 0x3F]` (30 R88). -/
def wtxReply (resp : List Byte) : List Byte := [0xF2, resp.getD 1 0 &&& 0x3F]

/-- `FSCI = resp[1][3:0]` (30 R89). -/
def fsciOf (resp : List Byte) : Nat := ((resp.getD 1 0).extractLsb' 0 4).toNat

/-- `FSC_TABLE` (30 R90). -/
def fscTable : List Nat := [16, 24, 32, 40, 48, 64, 96, 128, 256]

/-- `FSC_TABLE[fsci]`, none for an index with no entry (30 R90, R101). -/
def fscOf (fsci : Nat) : Option Nat := fscTable[fsci]?

/-! ## Anticollision (30 R91, R92; 44 R215) -/

/-- The mask of the split byte's known bits, `(1 << rem) - 1` (30 R92). -/
def splitMask (bits : Nat) : Byte := BitVec.ofNat 8 (2 ^ (bits % 8) - 1)

/-- `n = max(full + rx_bytes, ceil8(bits))` (44 R215). -/
def anticollLength (bits rxBytes : Nat) : Nat := max (bits / 8 + rxBytes) (ceil8 bits)

/-- `out`: the `full` transmitted bytes, then the received bytes, then zeros to the length `n`, with the known
bits of the split byte or-ed in (44 R215). -/
def anticollBytes (bits : Nat) (tx received : List Byte) : List Byte :=
  let full := bits / 8
  let body := tx.take full ++ received
  let out := body ++ List.replicate (anticollLength bits received.length - body.length) 0
  if bits % 8 = 0 then out
  else out.modify full (fun b => b ||| (tx.getD full 0 &&& splitMask bits))

/-- `valid = 8 * c_byte + c_bit` (30 R91). -/
def collisionPosition (c : CollisionStatus) : Nat := 8 * c.cByte.toNat + c.cBit.toNat

/-! ## The WakeupConfig image (30 R95) -/

/-- The number of a sensing method in the image: 0 amplitude, 1 phase, 2 capacitive. -/
def methodIndex : Method → Nat
  | .amp => 0
  | .phase => 1
  | .cap => 2

/-- `ref_kind` (30 R95). -/
inductive RefKind where
  | manual | automatic | autoAverage | reserved
  deriving DecidableEq, Repr, Inhabited

/-- `ref_kind` from its two bits. -/
def refKindOf (bits : BitVec 2) : RefKind :=
  match bits.toNat with
  | 0 => .manual
  | 1 => .automatic
  | 2 => .autoAverage
  | _ => .reserved

/-- One WakeupMethodConfig of the image. -/
structure MethodCfg where
  enabled : Bool
  refKind : RefKind
  includeIrq : Bool
  mustBeZero : BitVec 4
  delta : Byte
  manualRef : Byte
  weight : Byte
  deriving DecidableEq, Repr, Inhabited

/-- Byte `i` of the image. -/
def cfgByte (cfg : List Byte) (i : Nat) : Byte := cfg.getD i 0

/-- The configuration of a method, at bytes 1+4k to 4+4k. -/
def methodCfg (cfg : List Byte) (m : Method) : MethodCfg :=
  let k := methodIndex m
  let flags := cfgByte cfg (1 + 4 * k)
  { enabled := flags.getLsbD 0
    refKind := refKindOf (flags.extractLsb' 1 2)
    includeIrq := flags.getLsbD 3
    mustBeZero := flags.extractLsb' 4 4
    delta := cfgByte cfg (2 + 4 * k)
    manualRef := cfgByte cfg (3 + 4 * k)
    weight := cfgByte cfg (4 + 4 * k) }

/-- `index = CFG[0][3:0]` (30 R96). -/
def cfgIndex (cfg : List Byte) : BitVec 4 := (cfgByte cfg 0).extractLsb' 0 4

/-- `slow = CFG[0][4]` (30 R96). -/
def cfgSlow (cfg : List Byte) : Bool := (cfgByte cfg 0).getLsbD 4

/-- The must-be-0 bits of byte 0. -/
def cfgTopBits (cfg : List Byte) : BitVec 3 := (cfgByte cfg 0).extractLsb' 5 3

/-- The three methods in their fixed order (43 R174). -/
def allMethods : List Method := [.amp, .phase, .cap]

/-- A method's entry is well formed: its must-be-0 bits are 0 and, when it is enabled, its `ref_kind` is not
reserved. -/
def methodWellFormed (c : MethodCfg) : Bool :=
  c.mustBeZero == 0 && !(c.enabled && c.refKind == .reserved)

/-- The period (`index`, `slow`) is a member of PERIODS. -/
def periodKnown (p : Params) (cfg : List Byte) : Bool :=
  p.periods.any (fun q => q.index == (cfgIndex cfg).toNat && q.slow == cfgSlow cfg)

/-- The image is 13 bytes and well formed (30 R95, R102). That a latch of another length is refused as an image is log
32, DESIGN CHOICE. -/
def cfgWellFormed (p : Params) (cfg : List Byte) : Bool :=
  cfg.length == 13 && cfgTopBits cfg == 0 &&
    allMethods.all (fun m => methodWellFormed (methodCfg cfg m)) && periodKnown p cfg

/-- The timer-control value of WAIT_FOR_CARD: the period and the enable flag of every configured method
(43 R170 S6, S7; R173). -/
def wuTimerControlOf (cfg : List Byte) : WuTimerControl :=
  { index := cfgIndex cfg
    slow := cfgSlow cfg
    enAmp := (methodCfg cfg .amp).enabled
    enPhase := (methodCfg cfg .phase).enabled
    enCap := (methodCfg cfg .cap).enabled }

/-- The WU_CONF value of an enabled method: the averaging fields are set for AutoAverage only (43 R174). -/
def wuConfOf (c : MethodCfg) : WuConf :=
  { delta := c.delta
    aaEn := c.refKind == .autoAverage
    aaIncludeIrq := c.refKind == .autoAverage && c.includeIrq
    aaWeight := if c.refKind = .autoAverage then c.weight else 0 }

/-- The interrupt of a method's wake source, `WU_k`. -/
def wakeIrq : Method → IrqName
  | .amp => .wuAmp
  | .phase => .wuPhase
  | .cap => .wuCap

/-- The measurement command of a method, `C_MEAS_k`. -/
def measCmd : Method → AfeCmd
  | .amp => .measAmp
  | .phase => .measPhase
  | .cap => .measCap

/-- `sel`: the wake-interrupt bits of the enabled methods (30 R97). -/
def wakeSel (p : Params) (cfg : List Byte) : Word32 :=
  allMethods.foldl
    (fun sel m => if (methodCfg cfg m).enabled then sel ||| (1#32 <<< p.irqBit.of (wakeIrq m)) else sel) 0

/-- The byte written to mask register `i`: `(~sel)[8i+7 : 8i]` (30 R97). A mask bit of 1 masks: the polarity is the
spec's own, from general knowledge (log 19). -/
def maskByte (sel : Word32) (i : Nat) : Byte := (~~~sel).extractLsb' (8 * i) 8

/-! ## OP_CONTROL -/

/-- The value `RegModify` writes back: the named fields set, every other field as read (00 R18). -/
def applyUpdate : OpcUpdate → OpControl → OpControl
  | .efdAuto, v => { v with efd := .auto }
  | .txRxOn, v => { v with txEn := true, rxEn := true }
  | .txRxOff, v => { v with txEn := false, rxEn := false }

/-! ## The FIFO -/

/-- `FifoRead(n)` returns a byte list of length `n` (00 R18): the view's bytes, cut or filled to that length.
Every list of `n` bytes is the answer of some view (log 17). -/
def fifoBytes (v : AfeView) (n : Nat) : List Byte := (v.fifo ++ List.replicate n 0).take n

end Sys2Proof.Machine
end

