-- ==== Sys2Proof/Machine/Flags.lean ====
section
/-! DEFINITION. The block's flags: the bits of IRQS (10 R22, R23, R30; 60 R280 to R282), the result code STATUS
(60 R270), SPIN (45 R252), and the validation order of an exchange (44 R209, R212). -/

namespace Sys2Proof.Machine

/-! ## IRQS -/

/-- The byte ENV shows on IRQ_STATUS[i]. -/
def irqStatusByte (v : AfeView) (i : Nat) : Byte := v.irqStatus.extractLsb' (8 * i) 8

/-- `x[IRQS] | (b << 8i)` (60 R280, 30 R99). -/
def orStatus (irqs : Word32) (i : Nat) (b : Byte) : Word32 := irqs ||| (b.setWidth 32 <<< (8 * i))

/-- `x[IRQS].n` (00 R18, 60 R282). -/
def irqSet (p : Params) (irqs : Word32) (n : IrqName) : Bool := irqs.getLsbD (p.irqBit.of n)

/-- `N_IRQ`. -/
def nIrq (p : Params) : Nat := p.nIrq.toNat

/-! ## The tests of exchange step 6 (44 R209) -/

/-- What one round of tests in exchange step 6 finds. -/
inductive Verdict where
  | error (e : Err)
  | success
  | pending
  deriving DecidableEq, Repr

/-- The priority order of 44 R209: NRE, ERR_FRAME, ERR_PAR, ERR_CRC, COL (outside anticollision), then RXE. -/
def xcvVerdict (p : Params) (kind : FrameKind) (irqs : Word32) : Verdict :=
  if irqSet p irqs .nre then .error .timeout
  else if irqSet p irqs .errFrame then .error .framing
  else if irqSet p irqs .errPar then .error .parity
  else if irqSet p irqs .errCrc then .error .crc
  else if kind ≠ .anticoll ∧ irqSet p irqs .col then .error .collision
  else if irqSet p irqs .rxe then .success
  else .pending

/-- The three FIFO flags in the order of exchange step 8 (44 R212). -/
def fifoFault (b : FifoStatusB) : Option Err :=
  if b.ovr then some .fifoOverflow
  else if b.undr then some .fifoUnderflow
  else if b.npLb then some .framingLastByteMissingParity
  else none

/-! ## STATUS -/

/-- `Ok` (60 R270). -/
def statusOk : Byte := 0x00

/-- `Refused` (60 R270). -/
def statusRefused : Byte := 0xFF

/-- The result code of an error (60 R270). -/
def errCode : Err → Byte
  | .interface _ => 0x01
  | .timeout => 0x02
  | .framing => 0x03
  | .parity => 0x04
  | .crc => 0x05
  | .collision => 0x06
  | .fifoOverflow => 0x07
  | .fifoUnderflow => 0x08
  | .framingLastByteMissingParity => 0x09
  | .fieldCollision => 0x0A
  | .responseTooShort => 0x0B
  | .responseTooLong => 0x0C
  | .txFrameTooBig => 0x0D
  | .rxFrameTooBig => 0x0E
  | .protocol => 0x0F
  | .calibrationFault => 0x10
  | .cancelled => 0x11

/-! ## SPIN -/

/-- `SPIN ^ 1` (45 R252). -/
def flipSpin (spin : BitVec 1) : BitVec 1 := spin ^^^ 1

end Sys2Proof.Machine
end

