-- ==== Sys2Proof/Machine/Ops.lean ====
section
/-! DEFINITION. The operations every meaning is built from: recording an event, moving the sequencer, the port,
timer and line primitives (20 R51, R52), ending an operation with a result, taking an error (60 R286), and the
shared step lists EnableOsc, IrqClear, IrqWait, CmdWait, Exchange, and those of MODE_ON, MODE_OFF and FIELD_ON
that other operations run (10 R41). -/

namespace Sys2Proof.Machine

/-! ## Small updates -/

/-- Record one event (00 R13). -/
def State.emit (s : State) (e : Event) : State := { s with trace := s.trace ++ [e] }

/-- Move the sequencer: operation `op` with the steps `todo` remaining (10 R41). -/
def State.goTo (s : State) (op : Instr) (todo : List Micro) : State := { s with seq := .busy op todo }

/-- The answer of ENV to the transaction being made has been taken. -/
def State.usePort (s : State) (rest : List PortAnswer) : State := { s with port := rest }

/-- The timer is read: it has advanced by `d` since the last read, and `T=t` is recorded (00 R13, R15). -/
def State.readTime (s : State) (d : Nat) (rest : List Nat) : State :=
  { s with clock := s.clock + d, ticks := rest, trace := s.trace ++ [.time (s.clock + d)] }

/-- A level of the IRQ line has been sampled. -/
def State.useLine (s : State) (rest : List Bool) : State := { s with line := rest }

/-! ## The end of an operation -/

/-- `return v` (00 R18): STATUS <- Ok, VALUE <- v, SEQ <- Idle. A receiving operation writes RX with it, any
other leaves RX as it was (10 R33, 20 R68; log 11). ERRINFO is not defined: free (10 R32; log 10). -/
def endOk (v : Nat) (received : Option (List Byte)) (s : State) : State :=
  { s with
    status := statusOk
    value := BitVec.ofNat 32 v
    rx := received.getD s.rx
    errinfo := Config.freeErrinfo s.draws
    draws := s.draws + 1
    seq := .idle }

/-- ERRINFO after an error: `e` for `Interface(e)`, free otherwise (60 R286, 10 R32). -/
def errinfoAfter (e : Err) (n : Nat) : BusErr :=
  match e with
  | .interface c => c
  | _ => Config.freeErrinfo n

/-- The end of an operation with an error: STATUS <- code(E), ERRINFO for `Interface`, SEQ <- Idle; VALUE, RX and
RXLEN are left unspecified, so free (60 R286 (2), (3); log 10). -/
def endError (e : Err) (s : State) : State :=
  { s with
    status := errCode e
    errinfo := errinfoAfter e s.draws
    value := Config.freeValue s.draws
    rx := Config.freeRx s.draws
    draws := s.draws + 1
    seq := .idle }

/-- START_A's path F (44 R192): attempt the steps of MODE_OFF, then raise the original error. -/
def pathF (e : Err) : List Micro :=
  [.setMode .off, .cmd .stop, .write (.opControl {}), .attemptEnd .modeOff, .raise e]

/-- Where an error goes. -/
inductive Unwound where
  /-- no clean-up is named: the operation ends -/
  | ended
  /-- inside an attempted half: the transport value is logged and the operation goes on -/
  | attempted (a : Attempt) (c : BusErr) (rest : List Micro)
  /-- inside START_A S1 or S2: path F -/
  | cleanup (rest : List Micro)
  deriving DecidableEq, Repr

/-- The clean-up an error finds among the steps that remain (60 R286 (1)). -/
def unwind (e : Err) : List Micro → Unwound
  | [] => .ended
  | .attemptEnd a :: rest =>
    match e with
    | .interface c => .attempted a c rest
    | _ => unwind e rest
  | .startAGuard :: _ => .cleanup (pathF e)
  | _ :: rest => unwind e rest

/-- The LOG text of an attempted half that failed (44 R192, R195). -/
def attemptLog : Attempt → BusErr → LogMsg
  | .fieldOff, e => .fieldOffFailed e
  | .modeOff, e => .modeOffFailed e

/-- TAKING AN ERROR: `raise E` while operation `op` has the steps `todo` remaining (60 R286, R287). -/
def raiseErr (e : Err) (op : Instr) (todo : List Micro) (s : State) : State :=
  match unwind e todo with
  | .ended => endError e s
  | .attempted a c rest => (s.emit (.log (attemptLog a c))).goTo op rest
  | .cleanup rest => s.goTo op rest

/-- A refused operation: no port transaction, no state change but STATUS (00 R14 (b), 60 R290; log 9). -/
def refuse (s : State) : State := { s with status := statusRefused }

/-! ## The primitives (20 R51, R52) -/

/-- One port transaction: none while ENV has not answered; a failure is recorded and raised at once
(20 R60); otherwise `k` says what the answer does. -/
def transact (t : Txn) (op : Instr) (todo : List Micro) (s : State) (k : AfeView → State → State) : Option State :=
  match s.port with
  | [] => none
  | .fail e :: rest => some (raiseErr (.interface e) op todo ((s.usePort rest).emit (.fail t e)))
  | .done v :: rest => some (k v (s.usePort rest))

/-- `Now()`: none while the timer has not answered; `k` gets the instant. -/
def readNow (s : State) (k : Nat → State → State) : Option State :=
  match s.ticks with
  | [] => none
  | d :: rest => some (k (s.clock + d) (s.readTime d rest))

/-! ## Shared step lists -/

/-- EnableOsc (40 R122): a whole-register write of `en` = 1, then the unbounded poll. -/
def enableOsc : List Micro := [.write (.opControl { en := true }), .pollOsc]

/-- IrqClear (60 R281): every status register is read, then IRQS <- 0. -/
def irqClear (p : Params) : List Micro := (List.range (nIrq p)).map .drainIrq ++ [.zeroIrqs]

/-- IrqWait(n, T_DEFAULT) (60 R283). -/
def irqWait (p : Params) (n : IrqName) : List Micro := [.startTimer (.irqWait n (tDefault p))]

/-- CmdWait(c) (60 R284). -/
def cmdWait (p : Params) (c : AfeCmd) : List Micro := irqClear p ++ [.cmd c] ++ irqWait p .dct

/-- MODE_ON steps S1 to S4 (41 R130). -/
def modeOnSteps (p : Params) : List Micro :=
  [.setMode .on] ++ enableOsc ++ [.modifyOpControl .efdAuto, .write (.txDriver p.dResNominal)]

/-- MODE_OFF steps S1 to S3 (41 R132). -/
def modeOffSteps : List Micro := [.setMode .off, .cmd .stop, .write (.opControl {})]

/-- FIELD_ON steps S6 and S7 on entry: the bounded or the unbounded loop (41 R134, R136). -/
def fieldLoop (p : Params) : List Micro :=
  match p.tFieldOn with
  | some d => [.startTimer (.fieldOn d)]
  | none => [.refresh 0 (.field none)]

/-- FIELD_ON steps S1 to S8 (41 R134). -/
def fieldOnSteps (p : Params) : List Micro :=
  [.write (.modulationOok p.amDepth), .write .bitRate106, .write (.swGuard 0)] ++ irqClear p ++
    [.cmd .initialRfCa] ++ fieldLoop p ++ [.modifyOpControl .txRxOn]

/-- FIELD_OFF step S1 (41 R138). -/
def fieldOffSteps : List Micro := [.modifyOpControl .txRxOff]

/-- The transmit command of a frame kind (44 R202). -/
def txCommand : FrameKind → AfeCmd
  | .reqA => .txReqa
  | .wupA => .txWupa
  | .anticoll => .txWithoutCrc
  | .standard => .txWithCrc

/-- Exchange step 2, the part that depends on the kind (44 R202 to R205). -/
def xcvPayload (x : Xcv) : List Micro :=
  match x.kind with
  | .reqA => []
  | .wupA => []
  | .anticoll => [.write (.txLength x.bits), .fifoWrite (x.tx.take (ceil8 x.bits))]
  | .standard => [.write (.txLength (8 * x.tx.length)), .fifoWrite x.tx]

/-- Exchange steps 1 to 6 on entry (44 R200); steps 7 to 10 follow from what step 6 finds. -/
def exchange (p : Params) (x : Xcv) (timeout : Nat) : List Micro :=
  let raw := x.kind != .standard
  let anticoll := x.kind == .anticoll
  [.cmd .stop, .cmd .resetRxGain, .write (.frameConf raw anticoll)] ++ xcvPayload x ++
    [.write (.rxConf (!anticoll) (!anticoll)), .write (.nrt (nrtDeadline p timeout))] ++
    irqClear p ++ [.cmd (txCommand x.kind)] ++ irqWait p .txe ++ [.startTimer (.xcv x)]

/-- A Standard exchange with an internal response buffer (45, before section 1). -/
def depExchange (tx : List Byte) (cap : Nat) (dest : Dest) : Xcv :=
  { kind := .standard, bits := 0, tx := tx, cap := cap, dest := dest }

end Sys2Proof.Machine
end

