-- ==== Sys2Proof/Machine/Sequencer.lean ====
section
/-! DEFINITION. The sequencer: what each step does (00 R10, 10 R41), one step of CTRL, and the run of CTRL up to
the end of the operation or to an answer that has not come. -/

namespace Sys2Proof.Machine

/-! ## The tests of the loops -/

/-- The tests of a loop after its IrqRefresh: `IrqWait` (60 R283), FIELD_ON S7 (41 R134, R135), exchange S6
(44 R209); exchange S7 follows S6 for every outcome (44 R211). -/
def testLoop (op : Instr) (rest : List Micro) (s : State) : Poll → State
  | .irq n dl =>
    if irqSet s.params s.irqs n then s.goTo op rest
    else s.goTo op (.deadline (.irq n dl) :: rest)
  | .field dl =>
    if irqSet s.params s.irqs .cac then raiseErr .fieldCollision op rest s
    else if irqSet s.params s.irqs .cat then s.goTo op rest
    else
      match dl with
      | some t => s.goTo op (.deadline (.field (some t)) :: rest)
      | none => s.goTo op (.yield :: .refresh 0 (.field none) :: rest)
  | .xcv x dl =>
    match xcvVerdict s.params x.kind s.irqs with
    | .error e => s.goTo op (.write .nrtCtrlStop :: .raise e :: rest)
    | .success => s.goTo op (.write .nrtCtrlStop :: .readFifoB x :: rest)
    | .pending => s.goTo op (.deadline (.xcv x dl) :: rest)

/-- The deadline of a loop; the FIELD_ON loop may have none. -/
def pollDeadline : Poll → Option Nat
  | .irq _ dl => some dl
  | .field dl => dl
  | .xcv _ dl => some dl

/-- The deadline test `Now() >= deadline` of a loop, then its yield and its next refresh (60 R283). The exchange
stops the no-response timer before it raises (44 R211). -/
def testDeadline (op : Instr) (rest : List Micro) (k : Poll) (now : Nat) (s : State) : State :=
  match pollDeadline k with
  | none => s.goTo op (.yield :: .refresh 0 k :: rest)
  | some dl =>
    if now ≥ dl then
      match k with
      | .irq _ _ => raiseErr .timeout op rest s
      | .field _ => raiseErr .timeout op rest s
      | .xcv _ _ => s.goTo op (.write .nrtCtrlStop :: .raise .timeout :: rest)
    else s.goTo op (.yield :: .refresh 0 k :: rest)

/-- What `t0 <- Now()` starts, with `now` = t0. -/
def startTimed (p : Params) (now : Nat) : Timed → Micro
  | .irqWait n d => .refresh 0 (.irq n (now + d))
  | .fieldOn d => .refresh 0 (.field (some (now + d)))
  | .xcv x => .refresh 0 (.xcv x (now + tDefault p))
  | .calCap => .pollCal (now + tDefault p)
  | .delay d => .delayUntil (now + d)

/-! ## The decode of an exchange -/

/-- Exchange step 10 up to its FifoRead: the length checks of DecodeStandard, DecodeAnticoll and DecodeRaw
(44 R214 to R216). The received count is held against the capacity only, not against FIFO_DEPTH (log 33, DESIGN
CHOICE: 20 R53 bounds a FIFO transaction by FIFO_DEPTH, 20 R58 and these checks take any count). -/
def decodeChecks (op : Instr) (rest : List Micro) (x : Xcv) (rxBytes : Nat) (s : State) : State :=
  match x.kind with
  | .standard =>
    if rxBytes < 2 then raiseErr .responseTooShort op rest s
    else if rxBytes - 2 > x.cap then raiseErr .responseTooLong op rest s
    else s.goTo op (.readFifo x (rxBytes - 2) :: rest)
  | .anticoll =>
    if anticollLength x.bits rxBytes > x.cap then raiseErr .responseTooLong op rest s
    else s.goTo op (.readFifo x rxBytes :: rest)
  | .reqA =>
    if rxBytes > x.cap then raiseErr .responseTooLong op rest s
    else s.goTo op (.readFifo x rxBytes :: rest)
  | .wupA =>
    if rxBytes > x.cap then raiseErr .responseTooLong op rest s
    else s.goTo op (.readFifo x rxBytes :: rest)

/-- Exchange step 10 after its FifoRead of `f`; COLLISION_STATUS is read only when COL is set (44 R215). -/
def decodeRead (op : Instr) (rest : List Micro) (x : Xcv) (f : List Byte) (s : State) : State :=
  match x.kind with
  | .anticoll =>
    let out := anticollBytes x.bits x.tx f
    if irqSet s.params s.irqs .col then s.goTo op (.readCollision x out :: rest)
    else s.goTo op (.deliver x out (8 * (x.bits / 8 + f.length)) :: rest)
  | .standard => s.goTo op (.deliver x f (8 * f.length) :: rest)
  | .reqA => s.goTo op (.deliver x f (8 * f.length) :: rest)
  | .wupA => s.goTo op (.deliver x f (8 * f.length) :: rest)

/-- DEP_NEW steps S2 to S5 (45 R240). -/
def depNewFinish (op : Instr) (rest : List Micro) (resp : List Byte) (s : State) : State :=
  if resp.length < 2 then raiseErr .protocol op rest s
  else
    match fscOf (fsciOf resp) with
    | none => raiseErr .protocol op rest s
    | some fsc => endOk fsc none { s with fsc := BitVec.ofNat 9 fsc, spin := 0, sess := .dep }

/-- DEP_XCV steps S4 to S11 (45 R245): a WTX request is answered with one more exchange, anything else is
checked, delivered, and flips SPIN. -/
def depXcvFinish (op : Instr) (rest : List Micro) (hdr : Byte) (rxcap : Nat) (resp : List Byte) (s : State) : State :=
  if isWtx resp then
    s.goTo op
      (exchange s.params (depExchange (wtxReply resp) s.params.depCap (.depXcv hdr rxcap)) s.params.tDep ++ rest)
  else
    match resp with
    | [] => raiseErr .protocol op rest s
    | b :: payload =>
      if b ≠ hdr then raiseErr .protocol op rest s
      else if payload.length > rxcap then raiseErr .rxFrameTooBig op rest s
      else endOk payload.length (some payload) { s with spin := flipSpin s.spin }

/-- The decoded response of an exchange goes to its destination. -/
def deliverTo (op : Instr) (rest : List Micro) (x : Xcv) (data : List Byte) (bits : Nat) (s : State) : State :=
  match x.dest with
  | .host => endOk bits (some data) s
  | .depNew => depNewFinish op rest data s
  | .depXcv hdr rxcap => depXcvFinish op rest hdr rxcap data s

/-! ## One step -/

/-- The flag tests of CAL_CAP S4 after one read of CAP_CAL_RESULT (42 R156): `cal_err` first. -/
def calTests (op : Instr) (rest : List Micro) (dl : Nat) (r : CapCalResult) (s : State) : State :=
  if r.calErr then raiseErr .calibrationFault op rest { s with fatal := true }
  else if r.calEnd then endOk r.value.toNat none s
  else s.goTo op (.calDeadline dl :: rest)

/-- What the step `m` of operation `op` does when the steps `rest` follow it; none while the answer it needs has
not come. -/
def microStep (op : Instr) (m : Micro) (rest : List Micro) (s : State) : Option State :=
  match m with
  | .setMode v => some ({ s with mode := v }.goTo op rest)
  | .setReady => some ({ s with ready := true }.goTo op rest)
  | .setSess v => some ({ s with sess := v }.goTo op rest)
  | .cmd c => transact (.cmd c) op rest s fun _ s => (s.emit (.cmd c)).goTo op rest
  | .write w => transact (.write w) op rest s fun _ s => (s.emit (.write w)).goTo op rest
  | .fifoWrite b => transact (.fifoWrite b) op rest s fun _ s => (s.emit (.fifoWrite b)).goTo op rest
  | .readIdentity => transact (.read .identity) op rest s fun v s =>
      ((s.emit (.read (.identity v.identity))).emit (.log (.identity v.identity))).goTo op rest
  | .pollOsc => transact (.read .oscStatus) op rest s fun v s =>
      (s.emit (.read (.oscStatus v.oscOk))).goTo op (if v.oscOk then rest else .pollOsc :: rest)
  | .modifyOpControl u => transact (.read .opControl) op rest s fun v s =>
      (s.emit (.read (.opControl v.opControl))).goTo op (.write (.opControl (applyUpdate u v.opControl)) :: rest)
  | .drainIrq i => transact (.read (.irqStatus i)) op rest s fun v s =>
      (s.emit (.read (.irqStatus i (irqStatusByte v i)))).goTo op rest
  | .zeroIrqs => some ({ s with irqs := 0 }.goTo op rest)
  | .startTimer w => readNow s fun now s => s.goTo op (startTimed s.params now w :: rest)
  | .refresh i k => transact (.read (.irqStatus i)) op rest s fun v s =>
      ({ s with irqs := orStatus s.irqs i (irqStatusByte v i) }.emit
          (.read (.irqStatus i (irqStatusByte v i)))).goTo op
        ((if i + 1 < nIrq s.params then .refresh (i + 1) k else .test k) :: rest)
  | .test k => some (testLoop op rest s k)
  | .deadline k => readNow s fun now s => testDeadline op rest k now s
  | .yield => some ((s.emit .yield).goTo op rest)
  | .readVdd => transact (.read .adcResult) op rest s fun v s =>
      ((s.emit (.read (.adcResult v.adcResult))).emit (.log (.vddMv (vddMv v.adcResult)))).goTo op
        (.write (.afeSupply (sup3v v.adcResult)) :: rest)
  | .readRef k => transact (.read .adcResult) op rest s fun v s =>
      (s.emit (.read (.adcResult v.adcResult))).goTo op (.write (.wuRef k v.adcResult) :: rest)
  | .returnAdc => transact (.read .adcResult) op rest s fun v s =>
      endOk v.adcResult.toNat none (s.emit (.read (.adcResult v.adcResult)))
  | .pollCal dl => transact (.read .capCalResult) op rest s fun v s =>
      calTests op rest dl v.capCal (s.emit (.read (.capCalResult v.capCal)))
  | .calDeadline dl => readNow s fun now s =>
      if now ≥ dl then raiseErr .timeout op rest s else s.goTo op (.yield :: .pollCal dl :: rest)
  | .delayUntil t => readNow s fun now s =>
      s.goTo op (if now ≥ t then rest else .yield :: .delayUntil t :: rest)
  | .waitRise last =>
    match s.line with
    | [] => none
    | level :: ls =>
      if last = some false ∧ level = true then some (((s.useLine ls).emit .edge).goTo op rest)
      else some ((s.useLine ls).goTo op (.waitRise (some level) :: rest))
  | .readFifoB x => transact (.read .fifoStatusB) op rest s fun v s =>
      match fifoFault v.fifoB with
      | some e => raiseErr e op rest (s.emit (.read (.fifoStatusB v.fifoB)))
      | none => (s.emit (.read (.fifoStatusB v.fifoB))).goTo op (.readFifoA x v.fifoB.countHi :: rest)
  | .readFifoA x hi => transact (.read .fifoStatusA) op rest s fun v s =>
      decodeChecks op rest x (receivedBytes v.countLo hi) (s.emit (.read (.fifoStatusA v.countLo)))
  | .readFifo x n => transact (.fifoRead n) op rest s fun v s =>
      decodeRead op rest x (fifoBytes v n) (s.emit (.fifoRead n (fifoBytes v n)))
  | .readCollision x out => transact (.read .collisionStatus) op rest s fun v s =>
      (s.emit (.read (.collisionStatus v.collision))).goTo op
        (.deliver x out (collisionPosition v.collision) :: rest)
  | .deliver x data bits => some (deliverTo op rest x data bits s)
  | .raise e => some (raiseErr e op rest s)
  | .attemptEnd _ => some (s.goTo op rest)
  | .startAGuard => some (s.goTo op rest)

/-- One step of CTRL: none while SEQ is Idle (00 R10) or while the answer the current step needs has not come.
An operation with no step left does `return 0`. -/
def ctrlStep (s : State) : Option State :=
  match s.seq with
  | .idle => none
  | .busy _ [] => some (endOk 0 none s)
  | .busy op (m :: rest) => microStep op m rest s

/-! ## The run of CTRL -/

/-- How many steps a step can lead to before the next answer is taken; 0 for a step that takes one itself. -/
def Micro.weight : Micro → Nat
  | .setMode _ => 1
  | .setReady => 1
  | .setSess _ => 1
  | .zeroIrqs => 1
  | .test _ => 3
  | .yield => 1
  | .deliver _ _ _ => 3
  | .raise _ => 1
  | .attemptEnd _ => 1
  | .startAGuard => 4
  | _ => 0

/-- The answers still placed at the ports. -/
def State.answers (s : State) : Nat := s.port.length + s.ticks.length + s.line.length

/-- A bound on the steps CTRL can make with the answers that are placed: every step lowers it
(`Laws/Run.lean`). -/
def budget (s : State) : Nat :=
  match s.seq with
  | .idle => 0
  | .busy _ todo => 8 * s.answers + (todo.map Micro.weight).sum + 1

/-- At most `n` steps of CTRL. -/
def runCtrl : Nat → State → State
  | 0, s => s
  | n + 1, s =>
    match ctrlStep s with
    | none => s
    | some t => runCtrl n t

/-- CTRL runs until the operation has ended or needs an answer that has not come. -/
def runToStop (s : State) : State := runCtrl (budget s) s

end Sys2Proof.Machine
end

