-- ==== Sys2Proof/Machine/Legality.lean ====
section
/-! DEFINITION. The legality of an operation in the block's state (60 R290) and the issue of a legal one. -/

namespace Sys2Proof.Machine

/-- The columns READY, FATAL and SESS = None of 60 R290 for an operation outside a session. -/
def outsideSession (s : State) : Bool := s.ready && !s.fatal && s.sess == .none

/-- As `outsideSession`, with MODE = On. -/
def outsideSessionOn (s : State) : Bool := outsideSession s && s.mode == .on

/-- The columns READY, FATAL and SESS = A of 60 R290. -/
def inSessionA (s : State) : Bool := s.ready && !s.fatal && s.sess == .a

/-- The columns READY, FATAL and SESS = Dep of 60 R290. -/
def inSessionDep (s : State) : Bool := s.ready && !s.fatal && s.sess == .dep

/-- The latch sizes that hold in every row of 60 R290. -/
def latchesFit (s : State) : Bool := s.tx.length ≤ s.params.txbufCap && s.rxcap ≤ s.params.rxbufCap

/-- The legality matrix, one arm per row of 60 R290. IMM = 0 is the decoder's check (30 R84). DEP_XCV's own row
has no size check at issue; its last conjunct is 93 section 1: "a model with a smaller FIFO_DEPTH must
treat a longer frame as a refusal" (log 18). -/
def legal (i : Instr) (s : State) : Bool :=
  match i with
  | .init => !s.ready && !s.fatal && s.sess == .none && latchesFit s
  | .modeOn => outsideSession s && latchesFit s
  | .modeOff => outsideSession s && latchesFit s
  | .fieldOn => outsideSessionOn s && latchesFit s
  | .fieldOff => outsideSessionOn s && latchesFit s
  | .measAmp => outsideSessionOn s && latchesFit s
  | .measPhase => outsideSessionOn s && latchesFit s
  | .measCap => outsideSessionOn s && latchesFit s
  | .calCap => outsideSessionOn s && latchesFit s
  | .waitForCard => outsideSession s && cfgWellFormed s.params s.cfg && latchesFit s
  | .startA => outsideSession s && latchesFit s
  | .sessionEnd => s.ready && !s.fatal && (s.sess == .a || s.sess == .dep) && latchesFit s
  | .xcvReqa => inSessionA s && latchesFit s
  | .xcvWupa => inSessionA s && latchesFit s
  | .xcvAnticoll bitCount =>
    inSessionA s && 1 ≤ bitCount.toNat && ceil8 bitCount.toNat ≤ s.tx.length &&
      ceil8 bitCount.toNat ≤ s.params.fifoDepth && latchesFit s
  | .xcvStandard _ => inSessionA s && s.tx.length ≤ s.params.fifoDepth && latchesFit s
  | .depNew => inSessionA s && latchesFit s
  | .depXcv =>
    inSessionDep s && (s.fsc.toNat < s.tx.length + 1 || s.tx.length + 1 ≤ s.params.fifoDepth) && latchesFit s

/-- The issue of operation `i` with the step list `steps` (00 R14): refused where the matrix says no, else CTRL
runs it to its end or to an answer that has not come. The operands are in the step list, so what runs is
their snapshot at issue (20 R66). -/
def issue (i : Instr) (steps : List Micro) (s : State) : Host.Outcome State Fault Refusal :=
  match s.seq with
  | .busy _ _ => .refused .sequencerBusy
  | .idle => .next (if legal i s then runToStop (s.goTo i steps) else refuse s)

end Sys2Proof.Machine
end

