-- ==== Sys2Proof/Machine/Init.lean ====
section
/-! DEFINITION. INIT (spec file 40). -/

namespace Sys2Proof.Machine

/-- The fuse step, where the chip variant has one (40 R121). -/
def fuseStep (p : Params) : List Micro := if p.hasFuseStep then [.write .fuseCtrlDisabled] else []

/-- The steps S1 to S11 of INIT (40 R120). S6 is put next by `readVdd`. -/
def initSteps (p : Params) : List Micro :=
  [.cmd .setDefault] ++ fuseStep p ++ [.readIdentity] ++ enableOsc ++ cmdWait p .measVdd ++ [.readVdd] ++
    [.write .auxClkDisabled, .modifyOpControl .efdAuto, .write (.regAdjust true), .write (.regAdjust false)] ++
    cmdWait p .adjustReg ++ [.setReady]

/-- INIT (40 R120 to R126). -/
def execInit (s : State) : Host.Outcome State Fault Refusal := issue .init (initSteps s.params) s

end Sys2Proof.Machine
end

