-- ==== Sys2Proof/Machine/Iso14443a.lean ====
section
/-! DEFINITION. START_A, SESSION_END, XCV_REQA, XCV_WUPA, XCV_ANTICOLL, XCV_STANDARD (spec file 44). -/

namespace Sys2Proof.Machine

/-- The steps S1 to S4 of START_A (44 R190, R191); errors of S1 and S2 meet `startAGuard` (44 R192). -/
def startASteps (p : Params) : List Micro :=
  modeOnSteps p ++ fieldOnSteps p ++ [.startAGuard, .startTimer (.delay p.tGuard), .setSess .a]

/-- START_A (44 R190 to R193). -/
def execStartA (s : State) : Host.Outcome State Fault Refusal := issue .startA (startASteps s.params) s

/-- The steps S1 to S3 of SESSION_END (44 R195, R196). -/
def sessionEndSteps : List Micro :=
  fieldOffSteps ++ [.attemptEnd .fieldOff] ++ modeOffSteps ++ [.attemptEnd .modeOff, .setSess .none]

/-- SESSION_END (44 R195, R196). -/
def execSessionEnd (s : State) : Host.Outcome State Fault Refusal := issue .sessionEnd sessionEndSteps s

/-- The exchange of XCV_REQA: no payload, TX is ignored (44 R203, R220). -/
def reqaXcv (s : State) : Xcv := { kind := .reqA, bits := 0, tx := [], cap := s.rxcap, dest := .host }

/-- XCV_REQA (44 R220). -/
def execXcvReqa (s : State) : Host.Outcome State Fault Refusal :=
  issue .xcvReqa (exchange s.params (reqaXcv s) s.params.tShort) s

/-- The exchange of XCV_WUPA (44 R203, R221). -/
def wupaXcv (s : State) : Xcv := { kind := .wupA, bits := 0, tx := [], cap := s.rxcap, dest := .host }

/-- XCV_WUPA (44 R221). -/
def execXcvWupa (s : State) : Host.Outcome State Fault Refusal :=
  issue .xcvWupa (exchange s.params (wupaXcv s) s.params.tShort) s

/-- The exchange of XCV_ANTICOLL (44 R205, R222). -/
def anticollXcv (bitCount : Word32) (s : State) : Xcv :=
  { kind := .anticoll, bits := bitCount.toNat, tx := s.tx, cap := s.rxcap, dest := .host }

/-- XCV_ANTICOLL (44 R222). -/
def execXcvAnticoll (bitCount : Word32) (s : State) : Host.Outcome State Fault Refusal :=
  issue (.xcvAnticoll bitCount) (exchange s.params (anticollXcv bitCount s) s.params.tShort) s

/-- The exchange of XCV_STANDARD (44 R204, R223). -/
def standardXcv (s : State) : Xcv := { kind := .standard, bits := 0, tx := s.tx, cap := s.rxcap, dest := .host }

/-- XCV_STANDARD (44 R223). -/
def execXcvStandard (timeout : Word32) (s : State) : Host.Outcome State Fault Refusal :=
  issue (.xcvStandard timeout) (exchange s.params (standardXcv s) timeout.toNat) s

end Sys2Proof.Machine
end

