-- ==== Sys2Proof/Machine/IsoDep.lean ====
section
/-! DEFINITION. DEP_NEW, DEP_XCV (spec file 45). What they do with a response is `depNewFinish` and `depXcvFinish`
of the sequencer. -/

namespace Sys2Proof.Machine

/-- DEP_NEW step S1 (45 R240, R241). -/
def depNewSteps (p : Params) : List Micro :=
  exchange p (depExchange [p.rats0, p.rats1] p.atsCap .depNew) p.tRats

/-- DEP_NEW (45 R240 to R244). -/
def execDepNew (s : State) : Host.Outcome State Fault Refusal := issue .depNew (depNewSteps s.params) s

/-- The I-block exchange of DEP_XCV step S3 (45 R245). -/
def depXcvExchange (s : State) : Xcv :=
  depExchange (iBlockHeader s.spin :: s.tx) s.params.depCap (.depXcv (iBlockHeader s.spin) s.rxcap)

/-- DEP_XCV steps S1 to S3 (45 R245): the size check against FSC comes before any transaction (45 R246). -/
def depXcvSteps (s : State) : List Micro :=
  if s.tx.length + 1 > s.fsc.toNat then [.raise .txFrameTooBig]
  else exchange s.params (depXcvExchange s) s.params.tDep

/-- DEP_XCV (45 R245 to R255). -/
def execDepXcv (s : State) : Host.Outcome State Fault Refusal := issue .depXcv (depXcvSteps s) s

end Sys2Proof.Machine
end

