-- ==== Sys2Proof/Machine/Measure.lean ====
section
/-! DEFINITION. MEAS_AMP, MEAS_PHASE, MEAS_CAP, CAL_CAP (spec file 42). -/

namespace Sys2Proof.Machine

/-- `v <- Measure(c); return v` (42 R150). -/
def measureSteps (p : Params) (c : AfeCmd) : List Micro := cmdWait p c ++ [.returnAdc]

/-- MEAS_AMP (42 R151). -/
def execMeasAmp (s : State) : Host.Outcome State Fault Refusal := issue .measAmp (measureSteps s.params .measAmp) s

/-- MEAS_PHASE (42 R152). -/
def execMeasPhase (s : State) : Host.Outcome State Fault Refusal :=
  issue .measPhase (measureSteps s.params .measPhase) s

/-- MEAS_CAP (42 R153). -/
def execMeasCap (s : State) : Host.Outcome State Fault Refusal := issue .measCap (measureSteps s.params .measCap) s

/-- CAL_CAP steps S1 to S4 on entry (42 R156): no IrqClear and no DCT wait (42 R158). -/
def calCapSteps : List Micro := [.write .capCalConfAuto, .cmd .calCap, .startTimer .calCap]

/-- CAL_CAP (42 R156 to R158). -/
def execCalCap (s : State) : Host.Outcome State Fault Refusal := issue .calCap calCapSteps s

end Sys2Proof.Machine
end

