-- ==== Sys2Proof/Machine/ModeField.lean ====
section
/-! DEFINITION. MODE_ON, MODE_OFF, FIELD_ON, FIELD_OFF (spec file 41). -/

namespace Sys2Proof.Machine

/-- MODE_ON (41 R130, R131). -/
def execModeOn (s : State) : Host.Outcome State Fault Refusal := issue .modeOn (modeOnSteps s.params) s

/-- MODE_OFF (41 R132, R133). -/
def execModeOff (s : State) : Host.Outcome State Fault Refusal := issue .modeOff modeOffSteps s

/-- FIELD_ON (41 R134 to R137). -/
def execFieldOn (s : State) : Host.Outcome State Fault Refusal := issue .fieldOn (fieldOnSteps s.params) s

/-- FIELD_OFF (41 R138). -/
def execFieldOff (s : State) : Host.Outcome State Fault Refusal := issue .fieldOff fieldOffSteps s

end Sys2Proof.Machine
end

