-- ==== Sys2Proof/Machine/Wakeup.lean ====
section
/-! DEFINITION. WAIT_FOR_CARD (spec file 43). -/

namespace Sys2Proof.Machine

/-- The reference of an enabled method (43 R174). A reserved `ref_kind` was refused at issue (30 R102). -/
def referenceSteps (p : Params) (m : Method) (c : MethodCfg) : List Micro :=
  match c.refKind with
  | .manual => [.write (.wuRef m c.manualRef)]
  | .automatic => cmdWait p (measCmd m) ++ [.readRef m]
  | .autoAverage => cmdWait p (measCmd m) ++ [.readRef m]
  | .reserved => []

/-- WAIT_FOR_CARD step S7 for one method (43 R170, R174). -/
def methodSteps (p : Params) (cfg : List Byte) (m : Method) : List Micro :=
  let c := methodCfg cfg m
  if c.enabled then referenceSteps p m c ++ [.write (.wuConf m (wuConfOf c))] else []

/-- WAIT_FOR_CARD step S11: every mask register, in order (43 R176). -/
def maskSteps (p : Params) (cfg : List Byte) : List Micro :=
  (List.range (nIrq p)).map (fun i => .write (.irqMask i (maskByte (wakeSel p cfg) i)))

/-- The steps S1 to S13 of WAIT_FOR_CARD (43 R170, R171). -/
def waitForCardSteps (p : Params) (mode : Mode) (cfg : List Byte) : List Micro :=
  (if mode ≠ .on then modeOnSteps p else []) ++
    [.setMode .wakeup, .cmd .stop, .write (.opControl {}), .write .opModeIso14443aInitiator] ++
    allMethods.flatMap (methodSteps p cfg) ++ irqClear p ++
    [.write (.wuTimerControl (wuTimerControlOf cfg)), .write (.opControl { wu := true })] ++
    maskSteps p cfg ++ [.waitRise none]

/-- WAIT_FOR_CARD (43 R170 to R180). -/
def execWaitForCard (s : State) : Host.Outcome State Fault Refusal :=
  issue .waitForCard (waitForCardSteps s.params s.mode s.cfg) s

end Sys2Proof.Machine
end

