-- ==== Sys2Proof/Machine/Dispatch.lean ====
section
/-! DEFINITION. One arm per operation. -/

namespace Sys2Proof.Machine

def exec (i : Instr) (s : State) : Host.Outcome State Fault Refusal :=
  match i with
  | .init => Sys2Proof.Machine.execInit s
  | .modeOn => Sys2Proof.Machine.execModeOn s
  | .modeOff => Sys2Proof.Machine.execModeOff s
  | .fieldOn => Sys2Proof.Machine.execFieldOn s
  | .fieldOff => Sys2Proof.Machine.execFieldOff s
  | .measAmp => Sys2Proof.Machine.execMeasAmp s
  | .measPhase => Sys2Proof.Machine.execMeasPhase s
  | .measCap => Sys2Proof.Machine.execMeasCap s
  | .calCap => Sys2Proof.Machine.execCalCap s
  | .waitForCard => Sys2Proof.Machine.execWaitForCard s
  | .startA => Sys2Proof.Machine.execStartA s
  | .sessionEnd => Sys2Proof.Machine.execSessionEnd s
  | .xcvReqa => Sys2Proof.Machine.execXcvReqa s
  | .xcvWupa => Sys2Proof.Machine.execXcvWupa s
  | .xcvAnticoll bitCount => Sys2Proof.Machine.execXcvAnticoll bitCount s
  | .xcvStandard timeout => Sys2Proof.Machine.execXcvStandard timeout s
  | .depNew => Sys2Proof.Machine.execDepNew s
  | .depXcv => Sys2Proof.Machine.execDepXcv s

end Sys2Proof.Machine
end

