-- ==== Sys2Proof/Machine/HostPort.lean ====
section
/-! DEFINITION. The host port: latch writes, the command word, CANCEL, the hardware reset (70 R320, R340), and the
continuation of an operation that waits for an answer. `step` composes these. -/

namespace Sys2Proof.Machine

/-- The hardware reset: every block register and latch to its value of 70 R321, SEQ to Idle, no port
transaction, the AFE untouched (70 R320). The parameters, the trace, the clock and what is placed at the
ports stay (log 15). -/
def hwReset (s : State) : State :=
  { State.resetWith s.params with
    trace := s.trace
    clock := s.clock
    host := s.host
    port := s.port
    ticks := s.ticks
    line := s.line
    draws := s.draws }

/-- The host presents a command word: OPC and IMM take its two fields (30 R80, 10 R31). -/
def presentWord (w : CmdWord) (s : State) : State := { s with opc := opcOf w, imm := immOf w }

/-- The issue of a command word while SEQ is Idle: a word the decoder refuses is refused (30 R84), any other runs
its operation. -/
def issueWord (w : CmdWord) (s : State) : Host.Outcome State Fault Refusal :=
  match decode w with
  | .ok i => exec i (presentWord w s)
  | .error _ => .next (refuse (presentWord w s))

/-- An act of the host while SEQ is Idle. CANCEL does nothing here (43 R179). A CFG write is held whatever its length
(log 32, DESIGN CHOICE: 10 R31 gives the latch 13 bytes and does not say what a write of another length does). -/
def hostActIdle (a : HostAct) (s : State) : Host.Outcome State Fault Refusal :=
  match a with
  | .writeTx bytes => .next { s with tx := bytes }
  | .writeRxcap n => .next { s with rxcap := n }
  | .writeCfg bytes => .next { s with cfg := bytes }
  | .issue w => issueWord w s
  | .cancel => .next s
  | .reset => .next (hwReset s)

/-- CANCEL while an operation runs: it ends the wake-up sleep, and "CANCEL at any other time is ignored"
(43 R179). -/
def cancelBusy (todo : List Micro) (s : State) : State :=
  match todo with
  | .waitRise _ :: _ => endError .cancelled s
  | _ => s

/-- Where a step takes its answer from. -/
inductive Source where
  | port | timer | line | nowhere
  deriving DecidableEq, Repr

/-- The input a step reads. -/
def sourceOf : Micro → Source
  | .startTimer _ => .timer
  | .deadline _ => .timer
  | .calDeadline _ => .timer
  | .delayUntil _ => .timer
  | .waitRise _ => .line
  | .setMode _ => .nowhere
  | .setReady => .nowhere
  | .setSess _ => .nowhere
  | .zeroIrqs => .nowhere
  | .test _ => .nowhere
  | .yield => .nowhere
  | .deliver _ _ _ => .nowhere
  | .raise _ => .nowhere
  | .attemptEnd _ => .nowhere
  | .startAGuard => .nowhere
  | _ => .port

/-- When the current step waits for an answer and none is placed, ENV or TIMER gives one: a free value
(93 U3; log 1). -/
def supply (s : State) : State :=
  match s.seq with
  | .busy _ (m :: _) =>
    match sourceOf m with
    | .port => if s.port.isEmpty then { s with port := [Config.freeAnswer s.draws], draws := s.draws + 1 } else s
    | .timer => if s.ticks.isEmpty then { s with ticks := [Config.freeTick s.draws], draws := s.draws + 1 } else s
    | .line => if s.line.isEmpty then { s with line := [Config.freeLevel s.draws], draws := s.draws + 1 } else s
    | .nowhere => s
  | _ => s

/-- The running operation goes on. -/
def continueRun (s : State) : State := runToStop (supply s)

/-- The machine while an operation runs: a reset or a CANCEL the host asserts now takes effect now (70 R320,
43 R179); a latch write or a command word waits (20 R66; log 14). -/
def stepBusy (todo : List Micro) (s : State) : State :=
  match s.host with
  | .reset :: rest => hwReset { s with host := rest }
  | .cancel :: rest => cancelBusy todo { s with host := rest }
  | _ => continueRun s

/-- The machine while SEQ is Idle: the host's next act, or nothing: "CTRL has no step of its own while idle"
(00 R10). -/
def stepIdle (s : State) : Host.Outcome State Fault Refusal :=
  match s.host with
  | [] => .next s
  | a :: rest => hostActIdle a { s with host := rest }

end Sys2Proof.Machine
end

