-- ==== Sys2Proof/Machine/Step.lean ====
section
/-! DEFINITION. One step of the machine. -/

namespace Sys2Proof.Machine

/-- While SEQ is Idle, the host's next act (for a command word, the whole operation up to an answer that has not
come); while an operation runs, its continuation (00 R10; logs 4, 12, 14). -/
def step (s : State) : Host.Outcome State Fault Refusal :=
  match s.seq with
  | .idle => stepIdle s
  | .busy _ todo => .next (stepBusy todo s)

/-- `s` with a command word at the head of the host's acts and SEQ Idle, where `step` takes its next command
from (log 4). -/
def State.withFetchWord (s : State) (nbits w : Nat) : State :=
  { s with seq := .idle, host := .issue (BitVec.ofNat 40 (w % 2 ^ nbits)) :: s.host }

end Sys2Proof.Machine
end

