-- ==== Sys2Proof/Safety.lean ====
section
/-! DEFINITION. What claims about the machine are said in: the mode and session state machines of 60 R292 and
R293 and the invariant they make, the legality matrix as a table (60 R290), where a run stops, and scripts: the
answers an operation gets on one path through it. -/

namespace Sys2Proof.Machine

/-! ## The mode and session state machines -/

/-- The edges of 60 R292. Off to Wakeup and Wakeup to Wakeup are not among them. -/
def modeEdge : Mode → Mode → Bool
  | .off, .on => true
  | .on, .on => true
  | .on, .off => true
  | .off, .off => true
  | .on, .wakeup => true
  | .wakeup, .on => true
  | .wakeup, .off => true
  | .off, .wakeup => false
  | .wakeup, .wakeup => false

/-- The registers of the legality matrix (60 R290). -/
structure Regs where
  ready : Bool
  fatal : Bool
  mode : Mode
  sess : Sess
  deriving DecidableEq, Repr

/-- The matrix registers of a state. -/
def regsOf (s : State) : Regs := { ready := s.ready, fatal := s.fatal, mode := s.mode, sess := s.sess }

/-- The invariant of 60 R293, "SESS != None implies MODE = On and READY = 1 and FATAL = 0", with what the INIT row
of 60 R290 says beside it: before INIT has succeeded MODE is Off and no session or fault exists. -/
def quiet (r : Regs) : Bool :=
  (r.sess == .none || (r.mode == .on && r.ready && !r.fatal)) &&
    (r.ready || (r.mode == .off && r.sess == .none && !r.fatal))

/-- What a step that can end the operation, or set FATAL, needs of the registers. -/
def endingOk (r : Regs) (x : Xcv) : Bool := quiet r && (x.dest != .depNew || quiet { r with sess := .dep })

mutual
/-- Whatever the answers are, the remaining steps `todo` take MODE along edges of 60 R292 only, and leave the
registers quiet when the operation ends. -/
def planOk (r : Regs) : List Micro → Bool
  | [] => quiet r
  | m :: rest =>
    match m with
    | .setMode v => modeEdge r.mode v && planOk { r with mode := v } rest
    | .setReady => planOk { r with ready := true } rest
    | .setSess v => planOk { r with sess := v } rest
    | .zeroIrqs => planOk r rest
    | .yield => planOk r rest
    | .attemptEnd _ => planOk r rest
    | .startAGuard => planOk r rest
    | .delayUntil _ => planOk r rest
    | .startTimer (.delay _) => planOk r rest
    | .cmd _ => raiseOk r true rest && planOk r rest
    | .write _ => raiseOk r true rest && planOk r rest
    | .fifoWrite _ => raiseOk r true rest && planOk r rest
    | .readIdentity => raiseOk r true rest && planOk r rest
    | .pollOsc => raiseOk r true rest && planOk r rest
    | .modifyOpControl _ => raiseOk r true rest && planOk r rest
    | .drainIrq _ => raiseOk r true rest && planOk r rest
    | .readVdd => raiseOk r true rest && planOk r rest
    | .readRef _ => raiseOk r true rest && planOk r rest
    | .returnAdc => quiet r && raiseOk r true rest
    | .waitRise _ => quiet r && planOk r rest
    | .pollCal _ => quiet r && raiseOk { r with fatal := true } false rest && raiseOk r false rest
    | .calDeadline _ => quiet r && raiseOk { r with fatal := true } false rest && raiseOk r false rest
    | .startTimer .calCap => quiet r && raiseOk { r with fatal := true } false rest && raiseOk r false rest
    | .startTimer (.xcv x) => endingOk r x && raiseOk r false rest && planOk r rest
    | .refresh _ (.xcv x _) => endingOk r x && raiseOk r false rest && planOk r rest
    | .test (.xcv x _) => endingOk r x && raiseOk r false rest && planOk r rest
    | .deadline (.xcv x _) => endingOk r x && raiseOk r false rest && planOk r rest
    | .readFifoB x => endingOk r x && raiseOk r false rest && planOk r rest
    | .readFifoA x _ => endingOk r x && raiseOk r false rest && planOk r rest
    | .readFifo x _ => endingOk r x && raiseOk r false rest && planOk r rest
    | .readCollision x _ => endingOk r x && raiseOk r false rest && planOk r rest
    | .deliver x _ _ => endingOk r x && raiseOk r false rest && planOk r rest
    | .startTimer (.irqWait _ _) => raiseOk r false rest && planOk r rest
    | .startTimer (.fieldOn _) => raiseOk r false rest && planOk r rest
    | .refresh _ (.irq _ _) => raiseOk r false rest && planOk r rest
    | .refresh _ (.field _) => raiseOk r false rest && planOk r rest
    | .test (.irq _ _) => raiseOk r false rest && planOk r rest
    | .test (.field _) => raiseOk r false rest && planOk r rest
    | .deadline (.irq _ _) => raiseOk r false rest && planOk r rest
    | .deadline (.field _) => raiseOk r false rest && planOk r rest
    | .raise _ => raiseOk r false rest
/-- The same for an error raised while the steps `todo` remain (60 R286); `transport` says that it can only be an
`Interface`, which an attempted half takes. -/
def raiseOk (r : Regs) (transport : Bool) : List Micro → Bool
  | [] => quiet r
  | m :: rest =>
    match m with
    | .attemptEnd _ => planOk r rest && (transport || raiseOk r false rest)
    | .startAGuard => modeEdge r.mode .off && quiet { r with mode := .off }
    | _ => raiseOk r transport rest
end

/-- The session invariant: quiet while SEQ is Idle, and a plan that leads back to quiet while an operation runs. -/
def sessionInv (s : State) : Bool :=
  match s.seq with
  | .idle => quiet (regsOf s)
  | .busy _ todo => planOk (regsOf s) todo

/-! ## The interrupt bitmap -/

/-- A refresh reads an interrupt status register that exists (60 R280). -/
def refreshIndexOk (p : Params) : Micro → Bool
  | .refresh i _ => i < nIrq p
  | _ => true

/-- "bits at and above 8*N_IRQ are always 0" (10 R22). -/
def irqsInv (s : State) : Bool :=
  s.irqs >>> (8 * nIrq s.params) == 0 &&
    match s.seq with
    | .idle => true
    | .busy _ todo => todo.all (refreshIndexOk s.params)

/-! ## Port transactions in a trace -/

/-- An event that is a port transaction, completed or failed (20 R51, R60). -/
def isTransaction : Event → Bool
  | .cmd _ => true
  | .read _ => true
  | .write _ => true
  | .fifoWrite _ => true
  | .fifoRead _ _ => true
  | .fail _ _ => true
  | .time _ => false
  | .yield => false
  | .edge => false
  | .log _ => false

/-- The transaction a step of CTRL makes, none for a step that makes none (20 R51, R60). -/
def transactionOf : Micro → Option Txn
  | .cmd c => some (.cmd c)
  | .write w => some (.write w)
  | .fifoWrite bytes => some (.fifoWrite bytes)
  | .readIdentity => some (.read .identity)
  | .pollOsc => some (.read .oscStatus)
  | .modifyOpControl _ => some (.read .opControl)
  | .drainIrq i => some (.read (.irqStatus i))
  | .refresh i _ => some (.read (.irqStatus i))
  | .readVdd => some (.read .adcResult)
  | .readRef _ => some (.read .adcResult)
  | .returnAdc => some (.read .adcResult)
  | .pollCal _ => some (.read .capCalResult)
  | .readFifoB _ => some (.read .fifoStatusB)
  | .readFifoA _ _ => some (.read .fifoStatusA)
  | .readFifo _ n => some (.fifoRead n)
  | .readCollision _ _ => some (.read .collisionStatus)
  | .setMode _ => none
  | .setReady => none
  | .setSess _ => none
  | .zeroIrqs => none
  | .startTimer _ => none
  | .test _ => none
  | .deadline _ => none
  | .yield => none
  | .calDeadline _ => none
  | .delayUntil _ => none
  | .waitRise _ => none
  | .deliver _ _ _ => none
  | .raise _ => none
  | .attemptEnd _ => none
  | .startAGuard => none

/-! ## The legality matrix (60 R290) as a table -/

/-- A row of the matrix: READY, SESS, MODE, and the column "other". FATAL is 0 in every row. -/
structure MatrixRow where
  ready : Bool
  sess : List Sess
  mode : List Mode
  other : State → Bool

/-- "any" in the MODE column. The parenthesised "(is On)" and "(is Off)" are consequences of the invariant of 60
R293, not conditions, and are written "any" too. -/
def anyMode : List Mode := [.off, .on, .wakeup]

/-- "-" in the column "other". -/
def noCondition : State → Bool := fun _ => true

/-! ### The WakeupConfig image (30 R95), spelled byte by byte -/

/-- The four bytes of a sensing method in the image. -/
structure MethodEntry where
  flags : Byte
  delta : Byte
  manualRef : Byte
  weight : Byte
  deriving DecidableEq, Repr

/-- The entry of each method: bytes 1 to 4 amplitude, 5 to 8 phase, 9 to 12 capacitive. -/
def entryOf (cfg : List Byte) : Method → MethodEntry
  | .amp => { flags := cfg.getD 1 0, delta := cfg.getD 2 0, manualRef := cfg.getD 3 0, weight := cfg.getD 4 0 }
  | .phase => { flags := cfg.getD 5 0, delta := cfg.getD 6 0, manualRef := cfg.getD 7 0, weight := cfg.getD 8 0 }
  | .cap => { flags := cfg.getD 9 0, delta := cfg.getD 10 0, manualRef := cfg.getD 11 0, weight := cfg.getD 12 0 }

/-- Bit 0 of the flags: the method is configured. -/
def MethodEntry.enabled (c : MethodEntry) : Bool := c.flags.getLsbD 0

/-- Bits 2:1 of the flags: 0 Manual, 1 Automatic, 2 AutoAverage, 3 reserved. -/
def MethodEntry.refKind (c : MethodEntry) : Nat := c.flags.toNat / 2 % 4

/-- Bit 3 of the flags. -/
def MethodEntry.includeIrq (c : MethodEntry) : Bool := c.flags.getLsbD 3

/-- An entry is well formed: bits 7:4 of its flags are 0, and an enabled method has no reserved reference kind. -/
def MethodEntry.wellFormed (c : MethodEntry) : Bool := c.flags.toNat < 16 && !(c.enabled && c.refKind == 3)

/-- The image is well formed (30 R95, R102): 13 bytes (log 32), bits 7:5 of byte 0 are 0, the three entries are well
formed, and PERIODS has a member with the index of bits 3:0 of byte 0 and the slow bit of its bit 4. -/
def imageWellFormed (p : Params) (cfg : List Byte) : Bool :=
  cfg.length == 13 && (cfg.getD 0 0).toNat < 32 && (entryOf cfg .amp).wellFormed && (entryOf cfg .phase).wellFormed &&
    (entryOf cfg .cap).wellFormed &&
    p.periods.any (fun q => q.index == (cfg.getD 0 0).toNat % 16 && q.slow == (cfg.getD 0 0).getLsbD 4)

/-- The matrix. The condition of DEP_XCV is 93 section 1 (log 18). -/
def matrixRow : Instr → MatrixRow
  | .init => { ready := false, sess := [.none], mode := anyMode, other := noCondition }
  | .modeOn => { ready := true, sess := [.none], mode := anyMode, other := noCondition }
  | .modeOff => { ready := true, sess := [.none], mode := anyMode, other := noCondition }
  | .fieldOn => { ready := true, sess := [.none], mode := [.on], other := noCondition }
  | .fieldOff => { ready := true, sess := [.none], mode := [.on], other := noCondition }
  | .measAmp => { ready := true, sess := [.none], mode := [.on], other := noCondition }
  | .measPhase => { ready := true, sess := [.none], mode := [.on], other := noCondition }
  | .measCap => { ready := true, sess := [.none], mode := [.on], other := noCondition }
  | .calCap => { ready := true, sess := [.none], mode := [.on], other := noCondition }
  | .waitForCard =>
    { ready := true, sess := [.none], mode := anyMode, other := fun s => imageWellFormed s.params s.cfg }
  | .startA => { ready := true, sess := [.none], mode := anyMode, other := noCondition }
  | .sessionEnd => { ready := true, sess := [.a, .dep], mode := anyMode, other := noCondition }
  | .xcvReqa => { ready := true, sess := [.a], mode := anyMode, other := noCondition }
  | .xcvWupa => { ready := true, sess := [.a], mode := anyMode, other := noCondition }
  | .xcvAnticoll bits =>
    { ready := true
      sess := [.a]
      mode := anyMode
      other := fun s =>
        1 ≤ bits.toNat && (bits.toNat + 7) / 8 ≤ s.tx.length && (bits.toNat + 7) / 8 ≤ s.params.fifoDepth }
  | .xcvStandard _ =>
    { ready := true, sess := [.a], mode := anyMode, other := fun s => s.tx.length ≤ s.params.fifoDepth }
  | .depNew => { ready := true, sess := [.a], mode := anyMode, other := noCondition }
  | .depXcv =>
    { ready := true
      sess := [.dep]
      mode := anyMode
      other := fun s => s.fsc.toNat < s.tx.length + 1 || s.tx.length + 1 ≤ s.params.fifoDepth }

/-- The matrix permits operation `i` in state `s`, with "In every row .. TXLEN <= TXBUF_CAP and RXCAP <= RXBUF_CAP". -/
def permitted (i : Instr) (s : State) : Bool :=
  let row := matrixRow i
  s.ready == row.ready && !s.fatal && row.sess.contains s.sess && row.mode.contains s.mode && row.other s &&
    s.tx.length ≤ s.params.txbufCap && s.rxcap ≤ s.params.rxbufCap

/-! ## Where a run stops -/

/-- The current step needs an answer that has not come. -/
def awaitsAnswer (s : State) : Bool :=
  match s.seq with
  | .idle => false
  | .busy _ [] => false
  | .busy _ (m :: _) =>
    match sourceOf m with
    | .port => s.port.isEmpty
    | .timer => s.ticks.isEmpty
    | .line => s.line.isEmpty
    | .nowhere => false

/-- `s` with more answers placed behind those it has. -/
def State.feed (s : State) (port : List PortAnswer) (ticks : List Nat) (line : List Bool) : State :=
  { s with port := s.port ++ port, ticks := s.ticks ++ ticks, line := s.line ++ line }

/-! ## Rounds of status reads -/

/-- The events of the status reads of an IrqRefresh or IrqClear that gets the views `vs`, from register `i` on. -/
def statusEvents : Nat → List AfeView → List Event
  | _, [] => []
  | i, v :: vs => .read (.irqStatus i (irqStatusByte v i)) :: statusEvents (i + 1) vs

/-- IRQS after an IrqRefresh from register `i` on that gets the views `vs`. -/
def gather : Word32 → Nat → List AfeView → Word32
  | irqs, _, [] => irqs
  | irqs, i, v :: vs => gather (orStatus irqs i (irqStatusByte v i)) (i + 1) vs

/-- Completed answers, placed at the port. -/
def answered (vs : List AfeView) : List PortAnswer := vs.map .done

/-- One round of a polling loop that goes on: the views of its IrqRefresh and the advance of the timer at its
deadline test (not used by a loop that has no deadline). -/
structure Round where
  views : List AfeView
  tick : Nat
  deriving Repr

/-- IRQS after some rounds. -/
def loopIrqs : Word32 → List Round → Word32
  | irqs, [] => irqs
  | irqs, r :: l => loopIrqs (gather irqs 0 r.views) l

/-- The views that some rounds take. -/
def loopViews (l : List Round) : List AfeView := l.flatMap Round.views

/-- The timer advances that some rounds of a loop with a deadline take. -/
def loopTicks (l : List Round) : List Nat := l.map Round.tick

/-- The clock after some rounds of a loop with a deadline. -/
def loopClock : Nat → List Round → Nat
  | clock, [] => clock
  | clock, r :: l => loopClock (clock + r.tick) l

/-- The events of some rounds of a loop with a deadline, each ended by its timer read and its yield (60 R283). -/
def loopEvents : Nat → List Round → List Event
  | _, [] => []
  | clock, r :: l => statusEvents 0 r.views ++ [.time (clock + r.tick), .yield] ++ loopEvents (clock + r.tick) l

/-- The rounds go on: one view for each register, a refresh after which the loop does not end, and a timer read
below the deadline. -/
def loopGoesOn (p : Params) (ends : Word32 → Bool) (deadline : Nat) : Nat → Word32 → List Round → Bool
  | _, _, [] => true
  | clock, irqs, r :: l =>
    r.views.length == nIrq p && !ends (gather irqs 0 r.views) && clock + r.tick < deadline &&
      loopGoesOn p ends deadline (clock + r.tick) (gather irqs 0 r.views) l

/-- The events of some rounds of FIELD_ON's loop when T_FIELD_ON is unset: no timer read (41 R134). -/
def freeLoopEvents : List Round → List Event
  | [] => []
  | r :: l => statusEvents 0 r.views ++ [.yield] ++ freeLoopEvents l

/-- The rounds of that loop go on. -/
def freeLoopGoesOn (p : Params) (ends : Word32 → Bool) : Word32 → List Round → Bool
  | _, [] => true
  | irqs, r :: l =>
    r.views.length == nIrq p && !ends (gather irqs 0 r.views) && freeLoopGoesOn p ends (gather irqs 0 r.views) l

/-! ## Scripts: the answers an operation gets on a path through it

A script names the answer of each transaction and timer read of a shared sequence, `views` and `ticks` lay them out in
the order they are taken, `events` is the trace they make, and `fits` says that the path is the one described. -/

/-- The answers of a CmdWait that sees DCT (60 R284): the clear, the command, `t0`, the rounds that do not show DCT,
and the refresh that does. -/
structure CmdScript where
  drain : List AfeView
  send : AfeView
  tick : Nat
  waits : List Round
  last : List AfeView
  deriving Repr

/-- IRQS at the end. -/
def CmdScript.irqs (c : CmdScript) : Word32 := gather (loopIrqs 0 c.waits) 0 c.last

/-- The path: DCT is not seen in the rounds, each before the deadline, and is seen in the last refresh. -/
def CmdScript.fits (p : Params) (clock : Nat) (c : CmdScript) : Bool :=
  c.drain.length == nIrq p && c.last.length == nIrq p &&
    loopGoesOn p (fun w => irqSet p w .dct) (clock + c.tick + tDefault p) (clock + c.tick) 0 c.waits &&
    irqSet p c.irqs .dct

/-- The views, in order. -/
def CmdScript.views (c : CmdScript) : List AfeView := c.drain ++ [c.send] ++ loopViews c.waits ++ c.last

/-- The timer advances, in order. -/
def CmdScript.ticks (c : CmdScript) : List Nat := c.tick :: loopTicks c.waits

/-- The clock at the end. -/
def CmdScript.clockAfter (clock : Nat) (c : CmdScript) : Nat := loopClock (clock + c.tick) c.waits

/-- The trace of CmdWait(`cmd`). -/
def CmdScript.events (cmd : AfeCmd) (clock : Nat) (c : CmdScript) : List Event :=
  statusEvents 0 c.drain ++ [.cmd cmd, .time (clock + c.tick)] ++ loopEvents (clock + c.tick) c.waits ++
    statusEvents 0 c.last

/-- The answers of MODE_ON steps S2 to S4 (41 R130). -/
structure ModeOnScript where
  enWrite : AfeView
  polls : List AfeView
  ready : AfeView
  opcRead : AfeView
  opcWrite : AfeView
  driver : AfeView
  deriving Repr

/-- The oscillator is not ready at any of `polls`, and then it is. -/
def ModeOnScript.fits (m : ModeOnScript) : Bool := m.polls.all (fun v => !v.oscOk) && m.ready.oscOk

/-- The views, in order. -/
def ModeOnScript.views (m : ModeOnScript) : List AfeView :=
  [m.enWrite] ++ m.polls ++ [m.ready, m.opcRead, m.opcWrite, m.driver]

/-- The trace of MODE_ON (41 R130 example). -/
def ModeOnScript.events (p : Params) (m : ModeOnScript) : List Event :=
  [.write (.opControl { en := true })] ++ m.polls.map (fun _ => .read (.oscStatus false)) ++
    [.read (.oscStatus true), .read (.opControl m.opcRead.opControl),
      .write (.opControl { m.opcRead.opControl with efd := .auto }), .write (.txDriver p.dResNominal)]

/-- The answers of FIELD_ON steps S1 to S7 (41 R134): the three writes, the clear, the command, `t0` (read only when
T_FIELD_ON is set), the rounds that show neither CAC nor CAT, and the last refresh. -/
structure FieldOnScript where
  setup : List AfeView
  drain : List AfeView
  send : AfeView
  tick : Nat
  waits : List Round
  last : List AfeView
  deriving Repr

/-- IRQS after the last refresh. -/
def FieldOnScript.irqs (f : FieldOnScript) : Word32 := gather (loopIrqs 0 f.waits) 0 f.last

/-- The FIELD_ON loop ends on this bitmap. -/
def fieldSeen (p : Params) (w : Word32) : Bool := irqSet p w .cac || irqSet p w .cat

/-- The path up to the last refresh. -/
def FieldOnScript.fits (p : Params) (clock : Nat) (f : FieldOnScript) : Bool :=
  f.setup.length == 3 && f.drain.length == nIrq p && f.last.length == nIrq p &&
    match p.tFieldOn with
    | none => freeLoopGoesOn p (fieldSeen p) 0 f.waits
    | some d => loopGoesOn p (fieldSeen p) (clock + f.tick + d) (clock + f.tick) 0 f.waits

/-- The views, in order. -/
def FieldOnScript.views (f : FieldOnScript) : List AfeView :=
  f.setup ++ f.drain ++ [f.send] ++ loopViews f.waits ++ f.last

/-- The timer advances, in order. -/
def FieldOnScript.ticks (p : Params) (f : FieldOnScript) : List Nat :=
  match p.tFieldOn with
  | none => []
  | some _ => f.tick :: loopTicks f.waits

/-- The clock after the last refresh. -/
def FieldOnScript.clockAfter (p : Params) (clock : Nat) (f : FieldOnScript) : Nat :=
  match p.tFieldOn with
  | none => clock
  | some _ => loopClock (clock + f.tick) f.waits

/-- The trace up to the last refresh. -/
def FieldOnScript.events (p : Params) (clock : Nat) (f : FieldOnScript) : List Event :=
  [.write (.modulationOok p.amDepth), .write .bitRate106, .write (.swGuard 0)] ++ statusEvents 0 f.drain ++
    [.cmd .initialRfCa] ++
    (match p.tFieldOn with
      | none => freeLoopEvents f.waits
      | some _ => [.time (clock + f.tick)] ++ loopEvents (clock + f.tick) f.waits) ++
    statusEvents 0 f.last

/-- OP_CONTROL with the transmitter and receiver enabled, the other fields as read (41 R134 S8). -/
def fieldOnWrite (v : AfeView) : AfeWrite := .opControl { v.opControl with txEn := true, rxEn := true }

/-- OP_CONTROL with the transmitter and receiver disabled, the other fields as read (41 R138). -/
def fieldOffWrite (v : AfeView) : AfeWrite := .opControl { v.opControl with txEn := false, rxEn := false }

/-- The answers of INIT (40 R120). `fuse` is taken only when HAS_FUSE_STEP. -/
structure InitScript where
  setDefault : AfeView
  fuse : AfeView
  identity : AfeView
  enWrite : AfeView
  polls : List AfeView
  ready : AfeView
  vdd : CmdScript
  adc : AfeView
  supply : AfeView
  auxClk : AfeView
  opcRead : AfeView
  opcWrite : AfeView
  start1 : AfeView
  start0 : AfeView
  adjust : CmdScript
  deriving Repr

/-- The path through INIT on which it succeeds. -/
def InitScript.fits (p : Params) (clock : Nat) (n : InitScript) : Bool :=
  n.polls.all (fun v => !v.oscOk) && n.ready.oscOk && n.vdd.fits p clock &&
    n.adjust.fits p (n.vdd.clockAfter clock)

/-- The views, in order. -/
def InitScript.views (p : Params) (n : InitScript) : List AfeView :=
  [n.setDefault] ++ (if p.hasFuseStep then [n.fuse] else []) ++ [n.identity, n.enWrite] ++ n.polls ++ [n.ready] ++
    n.vdd.views ++ [n.adc, n.supply, n.auxClk, n.opcRead, n.opcWrite, n.start1, n.start0] ++ n.adjust.views

/-- The timer advances, in order. -/
def InitScript.ticks (n : InitScript) : List Nat := n.vdd.ticks ++ n.adjust.ticks

/-- The supply voltage in millivolts that the ADC byte stands for (30 R98). -/
def InitScript.millivolts (n : InitScript) : Nat := (n.adc.adcResult.toNat * 234 + 5) / 10

/-- The trace of INIT, its steps S1 to S10 in order (40 R120 to R124). -/
def InitScript.events (p : Params) (clock : Nat) (n : InitScript) : List Event :=
  [.cmd .setDefault] ++ (if p.hasFuseStep then [.write .fuseCtrlDisabled] else []) ++
    [.read (.identity n.identity.identity), .log (.identity n.identity.identity),
      .write (.opControl { en := true })] ++
    n.polls.map (fun _ => .read (.oscStatus false)) ++ [.read (.oscStatus true)] ++
    n.vdd.events .measVdd clock ++
    [.read (.adcResult n.adc.adcResult), .log (.vddMv n.millivolts),
      .write (.afeSupply (decide (n.millivolts < 3600))), .write .auxClkDisabled,
      .read (.opControl n.opcRead.opControl), .write (.opControl { n.opcRead.opControl with efd := .auto }),
      .write (.regAdjust true), .write (.regAdjust false)] ++
    n.adjust.events .adjustReg (n.vdd.clockAfter clock)

/-- The answers for one sensing method of WAIT_FOR_CARD: its measurement, and its two writes (43 R174). -/
structure MethodScript where
  cmd : CmdScript
  adc : AfeView
  refWrite : AfeView
  confWrite : AfeView
  deriving Repr

/-- A method that takes a fresh measurement (43 R174). -/
def measured (c : MethodEntry) : Bool := c.enabled && (c.refKind == 1 || c.refKind == 2)

/-- The command that measures for a method (10 R36). -/
def measuredBy : Method → AfeCmd
  | .amp => .measAmp
  | .phase => .measPhase
  | .cap => .measCap

/-- The bit of a method's wake interrupt. -/
def wakeBit (p : Params) : Method → Nat
  | .amp => p.irqBit.wuAmp
  | .phase => p.irqBit.wuPhase
  | .cap => p.irqBit.wuCap

/-- The path: a measurement, where there is one, that sees DCT. -/
def MethodScript.fits (p : Params) (c : MethodEntry) (clock : Nat) (m : MethodScript) : Bool :=
  !measured c || m.cmd.fits p clock

/-- The views that method `m` of the image takes. -/
def MethodScript.views (c : MethodEntry) (m : MethodScript) : List AfeView :=
  if c.enabled then (if measured c then m.cmd.views ++ [m.adc] else []) ++ [m.refWrite, m.confWrite] else []

/-- The timer advances that it takes. -/
def MethodScript.ticks (c : MethodEntry) (m : MethodScript) : List Nat := if measured c then m.cmd.ticks else []

/-- The clock after it. -/
def MethodScript.clockAfter (c : MethodEntry) (clock : Nat) (m : MethodScript) : Nat :=
  if measured c then m.cmd.clockAfter clock else clock

/-- Its trace: the reference, measured or manual, then WU_CONF with the averaging fields of AutoAverage only. -/
def MethodScript.events (c : MethodEntry) (k : Method) (clock : Nat) (m : MethodScript) : List Event :=
  if c.enabled then
    (if measured c then
        m.cmd.events (measuredBy k) clock ++ [.read (.adcResult m.adc.adcResult), .write (.wuRef k m.adc.adcResult)]
      else [.write (.wuRef k c.manualRef)]) ++
      [.write (.wuConf k
        (if c.refKind = 2 then
            { delta := c.delta, aaEn := true, aaIncludeIrq := c.includeIrq, aaWeight := c.weight }
          else { delta := c.delta, aaEn := false, aaIncludeIrq := false, aaWeight := 0 }))]
  else []

/-- The answers of WAIT_FOR_CARD up to its sleep (43 R170). `modeOn` is taken only when MODE is not On. -/
structure WakeScript where
  modeOn : ModeOnScript
  stop : AfeView
  opcZero : AfeView
  opMode : AfeView
  amp : MethodScript
  phase : MethodScript
  cap : MethodScript
  drain : List AfeView
  timer : AfeView
  wake : AfeView
  masks : List AfeView
  deriving Repr

/-- The clock when the phase method begins. -/
def WakeScript.clockPhase (cfg : List Byte) (clock : Nat) (w : WakeScript) : Nat :=
  w.amp.clockAfter (entryOf cfg .amp) clock

/-- The clock when the capacitive method begins. -/
def WakeScript.clockCap (cfg : List Byte) (clock : Nat) (w : WakeScript) : Nat :=
  w.phase.clockAfter (entryOf cfg .phase) (w.clockPhase cfg clock)

/-- The clock at the sleep. -/
def WakeScript.clockAfter (cfg : List Byte) (clock : Nat) (w : WakeScript) : Nat :=
  w.cap.clockAfter (entryOf cfg .cap) (w.clockCap cfg clock)

/-- The path to the sleep. -/
def WakeScript.fits (p : Params) (mode : Mode) (cfg : List Byte) (clock : Nat) (w : WakeScript) : Bool :=
  (mode == .on || w.modeOn.fits) && w.amp.fits p (entryOf cfg .amp) clock &&
    w.phase.fits p (entryOf cfg .phase) (w.clockPhase cfg clock) &&
    w.cap.fits p (entryOf cfg .cap) (w.clockCap cfg clock) &&
    w.drain.length == nIrq p && w.masks.length == nIrq p

/-- The views, in order. -/
def WakeScript.views (mode : Mode) (cfg : List Byte) (w : WakeScript) : List AfeView :=
  (if mode = .on then [] else w.modeOn.views) ++ [w.stop, w.opcZero, w.opMode] ++
    w.amp.views (entryOf cfg .amp) ++ w.phase.views (entryOf cfg .phase) ++ w.cap.views (entryOf cfg .cap) ++
    w.drain ++ [w.timer, w.wake] ++ w.masks

/-- The timer advances, in order. -/
def WakeScript.ticks (cfg : List Byte) (w : WakeScript) : List Nat :=
  w.amp.ticks (entryOf cfg .amp) ++ w.phase.ticks (entryOf cfg .phase) ++ w.cap.ticks (entryOf cfg .cap)

/-- A bit of the set of selected wake sources (30 R97). -/
def selectedBit (p : Params) (cfg : List Byte) (k : Method) : Word32 :=
  if (entryOf cfg k).enabled then 1#32 <<< wakeBit p k else 0

/-- The trace up to the sleep, steps S1 to S11 in order. -/
def WakeScript.events (p : Params) (mode : Mode) (cfg : List Byte) (clock : Nat) (w : WakeScript) : List Event :=
  (if mode = .on then [] else w.modeOn.events p) ++
    [.cmd .stop, .write (.opControl {}), .write .opModeIso14443aInitiator] ++
    w.amp.events (entryOf cfg .amp) .amp clock ++
    w.phase.events (entryOf cfg .phase) .phase (w.clockPhase cfg clock) ++
    w.cap.events (entryOf cfg .cap) .cap (w.clockCap cfg clock) ++
    statusEvents 0 w.drain ++
    [.write (.wuTimerControl
      { index := (cfg.getD 0 0).extractLsb' 0 4
        slow := (cfg.getD 0 0).getLsbD 4
        enAmp := (entryOf cfg .amp).enabled
        enPhase := (entryOf cfg .phase).enabled
        enCap := (entryOf cfg .cap).enabled }),
      .write (.opControl { wu := true })] ++
    (List.range (nIrq p)).map (fun i => .write (.irqMask i
      ((~~~(selectedBit p cfg .amp ||| selectedBit p cfg .phase ||| selectedBit p cfg .cap)).extractLsb' (8 * i) 8)))

/-- The answers of one Exchange up to the tests of S6 that end its loop (44 R200): S1 to S4, the clear, the transmit
command, `t0` of the TXE wait, its rounds and its last refresh, `t0` of S6, its rounds and its last refresh. -/
structure XcvScript where
  setup : List AfeView
  drain : List AfeView
  send : AfeView
  tick0 : Nat
  txWaits : List Round
  txLast : List AfeView
  tick1 : Nat
  rxWaits : List Round
  rxLast : List AfeView
  deriving Repr

/-- The events of exchange steps S1 to S4 (44 R201 to R207). -/
def setupEvents (p : Params) (x : Xcv) (timeout : Nat) : List Event :=
  [.cmd .stop, .cmd .resetRxGain, .write (.frameConf (x.kind != .standard) (x.kind == .anticoll))] ++
    (match x.kind with
      | .reqA => []
      | .wupA => []
      | .anticoll => [.write (.txLength x.bits), .fifoWrite (x.tx.take ((x.bits + 7) / 8))]
      | .standard => [.write (.txLength (8 * x.tx.length)), .fifoWrite x.tx]) ++
    [.write (.rxConf (x.kind != .anticoll) (x.kind != .anticoll)),
      .write (.nrt (timeout + p.nrtAdjJitter + p.nrtAdjRx))]

/-- IRQS when TXE has been seen. -/
def XcvScript.txIrqs (sc : XcvScript) : Word32 := gather (loopIrqs 0 sc.txWaits) 0 sc.txLast

/-- IRQS after the last refresh of S6. -/
def XcvScript.irqs (sc : XcvScript) : Word32 := gather (loopIrqs sc.txIrqs sc.rxWaits) 0 sc.rxLast

/-- The clock at `t0` of the TXE wait. -/
def XcvScript.clockTx (clock : Nat) (sc : XcvScript) : Nat := clock + sc.tick0

/-- The clock at `t0` of S6. -/
def XcvScript.clockRx (clock : Nat) (sc : XcvScript) : Nat := loopClock (sc.clockTx clock) sc.txWaits + sc.tick1

/-- The clock after S6. -/
def XcvScript.clockAfter (clock : Nat) (sc : XcvScript) : Nat := loopClock (sc.clockRx clock) sc.rxWaits

/-- S6 has something to act on: one of its error bits, COL among them outside anticollision, or RXE (44 R209). -/
def decided (p : Params) (kind : FrameKind) (w : Word32) : Bool :=
  irqSet p w .nre || irqSet p w .errFrame || irqSet p w .errPar || irqSet p w .errCrc ||
    (kind != .anticoll && irqSet p w .col) || irqSet p w .rxe

/-- The transmit command of each frame kind (44 R202). -/
def transmitCommand : FrameKind → AfeCmd
  | .reqA => .txReqa
  | .wupA => .txWupa
  | .anticoll => .txWithoutCrc
  | .standard => .txWithCrc

/-- The path: TXE in time, and rounds of S6 that decide nothing, each before the outer deadline. -/
def XcvScript.fits (p : Params) (x : Xcv) (timeout clock : Nat) (sc : XcvScript) : Bool :=
  sc.setup.length == (setupEvents p x timeout).length && sc.drain.length == nIrq p &&
    sc.txLast.length == nIrq p && sc.rxLast.length == nIrq p &&
    loopGoesOn p (fun w => irqSet p w .txe) (sc.clockTx clock + tDefault p) (sc.clockTx clock) 0 sc.txWaits &&
    irqSet p sc.txIrqs .txe &&
    loopGoesOn p (decided p x.kind) (sc.clockRx clock + tDefault p) (sc.clockRx clock) sc.txIrqs sc.rxWaits

/-- The views of S1 to S6. -/
def XcvScript.views (sc : XcvScript) : List AfeView :=
  sc.setup ++ sc.drain ++ [sc.send] ++ loopViews sc.txWaits ++ sc.txLast ++ loopViews sc.rxWaits ++ sc.rxLast

/-- The timer advances of S1 to S6. -/
def XcvScript.ticks (sc : XcvScript) : List Nat :=
  sc.tick0 :: loopTicks sc.txWaits ++ sc.tick1 :: loopTicks sc.rxWaits

/-- The trace of S1 to S6. -/
def XcvScript.events (p : Params) (x : Xcv) (timeout clock : Nat) (sc : XcvScript) : List Event :=
  setupEvents p x timeout ++ statusEvents 0 sc.drain ++ [.cmd (transmitCommand x.kind), .time (sc.clockTx clock)] ++
    loopEvents (sc.clockTx clock) sc.txWaits ++ statusEvents 0 sc.txLast ++ [.time (sc.clockRx clock)] ++
    loopEvents (sc.clockRx clock) sc.rxWaits ++ statusEvents 0 sc.rxLast

/-- The answers of S7 to S10 up to the FifoRead. -/
structure RxScript where
  stop : AfeView
  fifoB : AfeView
  fifoA : AfeView
  fifo : AfeView
  deriving Repr

/-- The views, in order. -/
def RxScript.views (r : RxScript) : List AfeView := [r.stop, r.fifoB, r.fifoA, r.fifo]

/-- `rx_bytes = count_lo + 256 * count_hi` (44 R213). -/
def RxScript.count (r : RxScript) : Nat := r.fifoA.countLo.toNat + 256 * r.fifoB.fifoB.countHi.toNat

/-- No FIFO flag is set (44 R212). -/
def RxScript.clean (r : RxScript) : Bool := !r.fifoB.fifoB.ovr && !r.fifoB.fifoB.undr && !r.fifoB.fifoB.npLb

/-- The trace of S7 to S10 with a FifoRead of `n` bytes. -/
def RxScript.events (r : RxScript) (n : Nat) : List Event :=
  [.write .nrtCtrlStop, .read (.fifoStatusB r.fifoB.fifoB), .read (.fifoStatusA r.fifoA.countLo),
    .fifoRead n (fifoBytes r.fifo n)]

/-- S6 ends in success (44 R209, R217): RXE, and none of NRE, ERR_FRAME, ERR_PAR, ERR_CRC and, outside
anticollision, COL. -/
def received (p : Params) (kind : FrameKind) (w : Word32) : Bool :=
  irqSet p w .rxe && !irqSet p w .nre && !irqSet p w .errFrame && !irqSet p w .errPar && !irqSet p w .errCrc &&
    (kind == .anticoll || !irqSet p w .col)

/-- A response of a Standard exchange that is accepted: S6 ends in success, no FIFO flag, at least the two CRC bytes
and at most `cap` bytes beside them (44 R214). -/
def acceptedStandard (p : Params) (cap : Nat) (sc : XcvScript) (r : RxScript) : Bool :=
  received p .standard sc.irqs && r.clean && 2 ≤ r.count && r.count ≤ cap + 2

/-- The payload of an accepted Standard response. -/
def RxScript.payload (r : RxScript) : List Byte := fifoBytes r.fifo (r.count - 2)

/-- The exchange each of the four XCV operations runs, and its requested timeout (44 R220 to R223). -/
def hostExchange (i : Instr) (s : State) : Option (Xcv × Nat) :=
  match i with
  | .xcvReqa => some ({ kind := .reqA, bits := 0, tx := [], cap := s.rxcap, dest := .host }, s.params.tShort)
  | .xcvWupa => some ({ kind := .wupA, bits := 0, tx := [], cap := s.rxcap, dest := .host }, s.params.tShort)
  | .xcvAnticoll bits =>
    some ({ kind := .anticoll, bits := bits.toNat, tx := s.tx, cap := s.rxcap, dest := .host }, s.params.tShort)
  | .xcvStandard timeout =>
    some ({ kind := .standard, bits := 0, tx := s.tx, cap := s.rxcap, dest := .host }, timeout.toNat)
  | _ => none

/-- The exchange of DEP_NEW (45 R240). -/
def activation (p : Params) : Xcv :=
  { kind := .standard, bits := 0, tx := [p.rats0, p.rats1], cap := p.atsCap, dest := .depNew }

/-- The exchange of DEP_XCV that sends `tx`, in an operation whose header is `hdr` (45 R245). -/
def blockXcv (s : State) (hdr : Byte) (tx : List Byte) : Xcv :=
  { kind := .standard, bits := 0, tx := tx, cap := s.params.depCap, dest := .depXcv hdr s.rxcap }

/-- The header DEP_XCV sends (30 R87). -/
def headerOf (s : State) : Byte := if s.spin = 0 then 0x02 else 0x03

/-- A completed exchange inside DEP_XCV. -/
structure BlockScript where
  sc : XcvScript
  r : RxScript
  deriving Repr

/-- The bytes each exchange of DEP_XCV sends, given the responses before it: the I-block, then one reply to each
S(WTX) request (45 R247). -/
def BlockScript.reply (b : BlockScript) : List Byte := [0xF2, (b.r.payload.getD 1 0) &&& 0x3F]

/-- The response of a round is an S(WTX) request (30 R88). -/
def BlockScript.isWtx (b : BlockScript) : Bool := b.r.payload.length == 2 && b.r.payload.headD 0 == 0xF2

/-- Exchanges of DEP_XCV that are all answered with S(WTX), the first of them sending `tx`. -/
def wtxFits (s : State) (hdr : Byte) : Nat → List Byte → List BlockScript → Bool
  | _, _, [] => true
  | clock, tx, b :: l =>
    b.sc.fits s.params (blockXcv s hdr tx) s.params.tDep clock && acceptedStandard s.params s.params.depCap b.sc b.r &&
      b.isWtx && wtxFits s hdr (b.sc.clockAfter clock) b.reply l

/-- What the exchange after them sends. -/
def wtxNext : List Byte → List BlockScript → List Byte
  | tx, [] => tx
  | _, b :: l => wtxNext b.reply l

/-- The clock after them. -/
def wtxClock : Nat → List BlockScript → Nat
  | clock, [] => clock
  | clock, b :: l => wtxClock (b.sc.clockAfter clock) l

/-- The trace of one whole exchange of DEP_XCV. -/
def BlockScript.events (s : State) (hdr : Byte) (tx : List Byte) (clock : Nat) (b : BlockScript) : List Event :=
  b.sc.events s.params (blockXcv s hdr tx) s.params.tDep clock ++ b.r.events (b.r.count - 2)

/-- Their trace. -/
def wtxEvents (s : State) (hdr : Byte) : Nat → List Byte → List BlockScript → List Event
  | _, _, [] => []
  | clock, tx, b :: l => b.events s hdr tx clock ++ wtxEvents s hdr (b.sc.clockAfter clock) b.reply l

/-- The views of one whole exchange. -/
def BlockScript.views (b : BlockScript) : List AfeView := b.sc.views ++ b.r.views

/-- The exchange that operation `i` makes after the S(WTX) rounds `wtx`, with its requested timeout: that of an XCV
operation or of DEP_NEW, which have no such rounds, or the one of DEP_XCV that sends its I-block or the reply to the
last of them (44 R220 to R223; 45 R240, R245 to R247). -/
def exchangeOf (i : Instr) (s : State) (wtx : List BlockScript) : Option (Xcv × Nat) :=
  match i with
  | .depXcv =>
    if s.tx.length + 1 ≤ s.fsc.toNat && wtxFits s (headerOf s) s.clock (headerOf s :: s.tx) wtx then
      some (blockXcv s (headerOf s) (wtxNext (headerOf s :: s.tx) wtx), s.params.tDep)
    else none
  | .depNew => if wtx.isEmpty then some (activation s.params, s.params.tRats) else none
  | _ => if wtx.isEmpty then hostExchange i s else none

/-- The views the rounds take. -/
def roundViews (wtx : List BlockScript) : List AfeView := wtx.flatMap BlockScript.views

/-- The timer advances they take. -/
def roundTicks (wtx : List BlockScript) : List Nat := wtx.flatMap fun q => q.sc.ticks

/-- Their trace in an operation issued at `s`. -/
def roundEvents (s : State) (wtx : List BlockScript) : List Event :=
  wtxEvents s (headerOf s) s.clock (headerOf s :: s.tx) wtx

/-- The pending rounds of CAL_CAP S4 (42 R156): a read with neither flag, a timer read before the deadline, a
yield. -/
structure CalRound where
  view : AfeView
  tick : Nat
  deriving Repr

/-- The rounds go on. -/
def calGoesOn (deadline : Nat) : Nat → List CalRound → Bool
  | _, [] => true
  | clock, r :: l =>
    !r.view.capCal.calErr && !r.view.capCal.calEnd && clock + r.tick < deadline && calGoesOn deadline (clock + r.tick) l

/-- Their trace. -/
def calEvents : Nat → List CalRound → List Event
  | _, [] => []
  | clock, r :: l => [.read (.capCalResult r.view.capCal), .time (clock + r.tick), .yield] ++ calEvents (clock + r.tick) l

/-- The clock after them. -/
def calClock : Nat → List CalRound → Nat
  | clock, [] => clock
  | clock, r :: l => calClock (clock + r.tick) l

/-- The timer reads of `Delay` that come too early (60 R285). -/
def delayGoesOn (deadline : Nat) : Nat → List Nat → Bool
  | _, [] => true
  | clock, d :: l => clock + d < deadline && delayGoesOn deadline (clock + d) l

/-- Their trace. -/
def delayEvents : Nat → List Nat → List Event
  | _, [] => []
  | clock, d :: l => [.time (clock + d), .yield] ++ delayEvents (clock + d) l

/-- The clock after them. -/
def delayClock : Nat → List Nat → Nat
  | clock, [] => clock
  | clock, d :: l => delayClock (clock + d) l

/-- How the first half of SESSION_END goes: its read fails, its write fails, or it completes (44 R196). -/
inductive FieldOffHalf where
  | readFails (e : BusErr)
  | writeFails (v : AfeView) (e : BusErr)
  | completes (v w : AfeView)

/-- The answers of that half. -/
def FieldOffHalf.answers : FieldOffHalf → List PortAnswer
  | .readFails e => [.fail e]
  | .writeFails v e => [.done v, .fail e]
  | .completes v w => [.done v, .done w]

/-- The trace of that half. -/
def FieldOffHalf.events : FieldOffHalf → List Event
  | .readFails e => [.fail (.read .opControl) e, .log (.fieldOffFailed e)]
  | .writeFails v e =>
    [.read (.opControl v.opControl), .fail (.write (fieldOffWrite v)) e, .log (.fieldOffFailed e)]
  | .completes v _ => [.read (.opControl v.opControl), .write (fieldOffWrite v)]

/-- How the second half of SESSION_END, and path F of START_A, go (44 R192, R196). -/
inductive ModeOffHalf where
  | stopFails (e : BusErr)
  | writeFails (v : AfeView) (e : BusErr)
  | completes (v w : AfeView)

/-- The answers of that half. -/
def ModeOffHalf.answers : ModeOffHalf → List PortAnswer
  | .stopFails e => [.fail e]
  | .writeFails v e => [.done v, .fail e]
  | .completes v w => [.done v, .done w]

/-- The trace of that half. -/
def ModeOffHalf.events : ModeOffHalf → List Event
  | .stopFails e => [.fail (.cmd .stop) e, .log (.modeOffFailed e)]
  | .writeFails _ e => [.cmd .stop, .fail (.write (.opControl {})) e, .log (.modeOffFailed e)]
  | .completes _ _ => [.cmd .stop, .write (.opControl {})]

end Sys2Proof.Machine
end

