-- ==== Sys2Proof/Certificates/Slice0/Obligations.lean ====
section
/-! DEFINITION. The statements for the provers. The scripts and their `fits`, `views`, `ticks` and `events` are of
`Safety.lean`: a script names the answers of ENV and TIMER on one path through an operation, `events` is the trace the
spec gives that path. Where an operation ends, ERRINFO (unless Interface), VALUE and RX after an error, and the counter
`draws` are existentially quantified: the spec leaves them open (10 R32, 93 U17; log 10). The block has no memory; its
byte stores are the latches TX, RX and CFG, and an equation on the whole next state is the frame. Where a statement
takes any received count, that one above FIFO_DEPTH is read like any other is the model's choice (log 33). -/

open Sys2Proof Sys2Proof.Machine

/-! ## Encoding (30) -/

/-- Decoding is the inverse of encoding, for every word and every instruction with every operand value (30 R80 to R84):
no two instructions share a word and no bit of an encoding is dropped. -/
def Obligations.DecodeIsTheInverseOfEncode : Prop :=
  ∀ (w : CmdWord) (i : Instr), decode w = .ok i ↔ w = encode i

/-- Words of 95 section 2.1, one of each family, with a reserved and an illegal one. -/
def Obligations.SpecWordsDecode : Prop :=
  decode 0x0000000000 = .ok .init ∧ decode 0x0300000000 = .ok .fieldOn ∧ decode 0x0B00000000 = .ok .calCap ∧
    decode 0x1000000000 = .ok .waitForCard ∧ decode 0x2100000000 = .ok .sessionEnd ∧
    decode 0x260000000C = .ok (.xcvAnticoll 12) ∧ decode 0x2700000400 = .ok (.xcvStandard 1024) ∧
    decode 0x3100000000 = .ok .depXcv ∧ decode 0x0500000000 = .error .reservedOpcode ∧
    decode 0x0100000001 = .error .immNotZero

/-- 30 R84: a word whose OPC is not in the table of 30 R82, or whose IMM is not 0 in an operation that takes none, is
refused: no port transaction, no state change, STATUS <- Refused. The latches OPC and IMM, which the host writes, are
left open (log 30). -/
def Obligations.IllegalWordIsRefused : Prop :=
  ∀ (s : State) (w : CmdWord) (rest : List HostAct),
    s.seq = .idle → s.host = .issue w :: rest →
      (opcOf w ∉ ([0x00, 0x01, 0x02, 0x03, 0x04, 0x08, 0x09, 0x0A, 0x0B, 0x10, 0x20, 0x21, 0x24, 0x25, 0x26, 0x27,
          0x30, 0x31] : List Byte) ∨ (opcOf w ≠ 0x26 ∧ opcOf w ≠ 0x27 ∧ immOf w ≠ 0)) →
      ∃ o m, step s = .next { s with host := rest, opc := o, imm := m, status := 0xFF }

/-! ## The step and the host port (00 R10, R14; 43 R179; 70 R320 to R322) -/

/-- A step at an idle machine whose host presents a word that decodes to `i` is `exec i` on the state in which that act
has been taken and OPC and IMM hold the word's fields (30 R80). -/
def Obligations.StepRunsTheDecodedInstruction : Prop :=
  ∀ (s : State) (w : CmdWord) (rest : List HostAct) (i : Instr),
    s.seq = .idle → s.host = .issue w :: rest → decode w = .ok i →
      step s = exec i { s with host := rest, opc := opcOf w, imm := immOf w }

/-- 43 R179: CANCEL during the wake-up sleep ends the operation with Cancelled, no port transaction and no change of
MODE; CANCEL at any other time is ignored. -/
def Obligations.CancelEndsOnlyTheSleep : Prop :=
  (∀ (s : State) (op : Instr) (last : Option Bool) (todo : List Micro) (rest : List HostAct),
    s.seq = .busy op (.waitRise last :: todo) → s.host = .cancel :: rest →
      ∃ v e r n, step s = .next { s with
        host := rest, seq := .idle, status := 0x11, value := v, errinfo := e, rx := r, draws := n }) ∧
  (∀ (s : State) (rest : List HostAct),
    s.host = .cancel :: rest → (∀ op last todo, s.seq ≠ .busy op (.waitRise last :: todo)) →
      step s = .next { s with host := rest })

/-- 70 R320, R321: a hardware reset, whatever operation was running, puts READY, FATAL, MODE, IRQS, SESS and SEQ to
their reset values with no port transaction. The registers whose reset value the spec leaves unspecified (FSC, SPIN
and the latches) are left open here. That the parameters and the model's own fields stay is log 15. -/
def Obligations.HardwareResetRestoresTheRegisters : Prop :=
  ∀ (s : State) (rest : List HostAct), s.host = .reset :: rest →
    ∃ fsc spin opc imm tx rxcap cfg status value errinfo rx,
      step s = .next { s with
        host := rest, ready := false, fatal := false, mode := .off, irqs := 0, sess := .none, seq := .idle,
        fsc := fsc, spin := spin, opc := opc, imm := imm, tx := tx, rxcap := rxcap, cfg := cfg,
        status := status, value := value, errinfo := errinfo, rx := rx }

/-- 70 R321: the reset values the spec gives. -/
def Obligations.ResetValuesAreThoseOfTheSpec : Prop :=
  State.reset.ready = false ∧ State.reset.fatal = false ∧ State.reset.mode = .off ∧ State.reset.irqs = 0 ∧
    State.reset.sess = .none ∧ State.reset.seq = .idle

/-- 00 R10, 10 R31, 70 R340: an idle machine whose host does nothing stays as it is; a latch write the host makes while
SEQ is Idle puts what it wrote into its latch and changes nothing else (the length of CFG is not checked there: log 32);
while an operation runs, a latch write or a command word waits, and the operation goes on as if it were not there (log
14); and an operation issued all the same has no move (log 22). -/
def Obligations.HostActsOnlyWhileIdle : Prop :=
  (∀ s : State, s.seq = .idle → s.host = [] → step s = .next s) ∧
  (∀ (s : State) (bytes : List Byte) (n : Nat) (rest : List HostAct), s.seq = .idle →
    (s.host = .writeTx bytes :: rest → step s = .next { s with host := rest, tx := bytes }) ∧
    (s.host = .writeRxcap n :: rest → step s = .next { s with host := rest, rxcap := n }) ∧
    (s.host = .writeCfg bytes :: rest → step s = .next { s with host := rest, cfg := bytes })) ∧
  (∀ (s : State) (op : Instr) (todo : List Micro) (a : HostAct) (rest : List HostAct),
    s.seq = .busy op todo → s.host = a :: rest → a ≠ .reset → a ≠ .cancel →
      ∃ t, step { s with host := [] } = .next t ∧ step s = .next { t with host := a :: rest }) ∧
  (∀ (i : Instr) (s : State) (op : Instr) (todo : List Micro), s.seq = .busy op todo →
    exec i s = .refused .sequencerBusy)

/-! ## Legality (60 section 4) -/

/-- 60 R290: an operation the matrix does not permit makes no port transaction and changes nothing but STATUS. -/
def Obligations.MatrixRefusalChangesOnlyStatus : Prop :=
  ∀ (i : Instr) (s : State), s.seq = .idle → permitted i s = false → exec i s = .next { s with status := 0xFF }

/-- 60 R270: an operation that has ended was refused exactly when the matrix does not permit it, and otherwise ends
with one of the codes 0x00 to 0x11: 0x12 to 0xFE are never produced. -/
def Obligations.EndedOperationHasATableCode : Prop :=
  ∀ (i : Instr) (s t : State), s.seq = .idle → exec i s = .next t → t.seq = .idle →
    (permitted i s = false ∧ t.status = 0xFF) ∨ (permitted i s = true ∧ t.status.toNat ≤ 0x11)

/-- 40 R126: with READY = 1, INIT is refused, and only a hardware reset returns READY to 0. -/
def Obligations.InitIsNotRepeatable : Prop :=
  (∀ s : State, s.seq = .idle → s.ready = true → exec .init s = .next { s with status := 0xFF }) ∧
  (∀ s t : State, step s = .next t → s.ready = true → t.ready = false → s.host.head? = some .reset)

/-- 10 R28: while FATAL = 1 every operation is refused, and only a hardware reset clears FATAL. -/
def Obligations.FatalRefusesUntilReset : Prop :=
  (∀ (i : Instr) (s : State), s.seq = .idle → s.fatal = true → exec i s = .next { s with status := 0xFF }) ∧
  (∀ s t : State, step s = .next t → s.fatal = true → t.fatal = false → s.host.head? = some .reset)

/-! ## Each operation on the path on which it succeeds -/

/-- INIT (40 R120 to R124): its trace, READY <- 1, VALUE 0, and IRQS as the last wait left it; nothing else changes. -/
def Obligations.InitCompletes : Prop :=
  ∀ (s : State) (n : InitScript) (ps : List PortAnswer) (ts : List Nat),
    s.seq = .idle → permitted .init s = true → n.fits s.params s.clock = true →
    s.port = answered (n.views s.params) ++ ps → s.ticks = n.ticks ++ ts →
      ∃ e k, exec .init s = .next { s with
        ready := true, irqs := n.adjust.irqs, status := 0x00, value := 0, errinfo := e, draws := k,
        port := ps, ticks := ts, clock := n.adjust.clockAfter (n.vdd.clockAfter s.clock),
        trace := s.trace ++ n.events s.params s.clock }

/-- MODE_ON (41 R130), from any MODE and for any number of oscillator polls: MODE <- On; IRQS is not touched. -/
def Obligations.ModeOnCompletes : Prop :=
  ∀ (s : State) (m : ModeOnScript) (ps : List PortAnswer),
    s.seq = .idle → permitted .modeOn s = true → m.fits = true → s.port = answered m.views ++ ps →
      ∃ e k, exec .modeOn s = .next { s with
        mode := .on, status := 0x00, value := 0, errinfo := e, draws := k, port := ps,
        trace := s.trace ++ m.events s.params }

/-- MODE_OFF (41 R132), from any MODE: C_STOP, then OP_CONTROL written 0; MODE <- Off. -/
def Obligations.ModeOffCompletes : Prop :=
  ∀ (s : State) (v w : AfeView) (ps : List PortAnswer),
    s.seq = .idle → permitted .modeOff s = true → s.port = answered [v, w] ++ ps →
      ∃ e k, exec .modeOff s = .next { s with
        mode := .off, status := 0x00, value := 0, errinfo := e, draws := k, port := ps,
        trace := s.trace ++ [.cmd .stop, .write (.opControl {})] }

/-- FIELD_ON (41 R134), with or without T_FIELD_ON: avoidance complete and no collision in the last refresh; tx and rx
are enabled over what was read. -/
def Obligations.FieldOnCompletes : Prop :=
  ∀ (s : State) (f : FieldOnScript) (v w : AfeView) (ps : List PortAnswer) (ts : List Nat),
    s.seq = .idle → permitted .fieldOn s = true → f.fits s.params s.clock = true →
    irqSet s.params f.irqs .cac = false → irqSet s.params f.irqs .cat = true →
    s.port = answered (f.views ++ [v, w]) ++ ps → s.ticks = f.ticks s.params ++ ts →
      ∃ e k, exec .fieldOn s = .next { s with
        irqs := f.irqs, status := 0x00, value := 0, errinfo := e, draws := k, port := ps, ticks := ts,
        clock := f.clockAfter s.params s.clock,
        trace := s.trace ++ f.events s.params s.clock ++ [.read (.opControl v.opControl), .write (fieldOnWrite v)] }

/-- FIELD_OFF (41 R138): tx and rx are disabled over what was read; only STATUS and VALUE are written. -/
def Obligations.FieldOffCompletes : Prop :=
  ∀ (s : State) (v w : AfeView) (ps : List PortAnswer),
    s.seq = .idle → permitted .fieldOff s = true → s.port = answered [v, w] ++ ps →
      ∃ e k, exec .fieldOff s = .next { s with
        status := 0x00, value := 0, errinfo := e, draws := k, port := ps,
        trace := s.trace ++ [.read (.opControl v.opControl), .write (fieldOffWrite v)] }

/-- MEAS_AMP, MEAS_PHASE, MEAS_CAP (42 R150 to R153): the command of each, the wait for DCT, and the ADC byte as
VALUE. -/
def Obligations.MeasurementsComplete : Prop :=
  ∀ (i : Instr) (cmd : AfeCmd) (s : State) (c : CmdScript) (adc : AfeView) (ps : List PortAnswer) (ts : List Nat),
    (i, cmd) ∈ [(.measAmp, .measAmp), (.measPhase, .measPhase), (.measCap, .measCap)] →
    s.seq = .idle → permitted i s = true → c.fits s.params s.clock = true →
    s.port = answered (c.views ++ [adc]) ++ ps → s.ticks = c.ticks ++ ts →
      ∃ e k, exec i s = .next { s with
        irqs := c.irqs, status := 0x00, value := adc.adcResult.setWidth 32, errinfo := e, draws := k,
        port := ps, ticks := ts, clock := c.clockAfter s.clock,
        trace := s.trace ++ c.events cmd s.clock ++ [.read (.adcResult adc.adcResult)] }

/-- CAL_CAP (42 R156): reads until `cal_end`, with no error flag; VALUE is the calibration value and IRQS is not
touched. -/
def Obligations.CalCapCompletes : Prop :=
  ∀ (s : State) (conf send : AfeView) (tick : Nat) (rounds : List CalRound) (last : AfeView) (ps : List PortAnswer)
    (ts : List Nat),
    s.seq = .idle → permitted .calCap s = true →
    calGoesOn (s.clock + tick + 500 * s.params.ticksPerMs) (s.clock + tick) rounds = true →
    last.capCal.calErr = false → last.capCal.calEnd = true →
    s.port = answered ([conf, send] ++ rounds.map CalRound.view ++ [last]) ++ ps →
    s.ticks = tick :: rounds.map CalRound.tick ++ ts →
      ∃ e k, exec .calCap s = .next { s with
        status := 0x00, value := last.capCal.value, errinfo := e, draws := k, port := ps, ticks := ts,
        clock := calClock (s.clock + tick) rounds,
        trace := s.trace ++ [.write .capCalConfAuto, .cmd .calCap, .time (s.clock + tick)] ++
          calEvents (s.clock + tick) rounds ++ [.read (.capCalResult last.capCal)] }

/-- WAIT_FOR_CARD (43 R170 to R180), for every well-formed image, from any MODE: the arming sequence, then the sleep,
which a line that is high when the wait begins does not end (log 16); MODE = Wakeup and IRQS = 0 at the end. The image
is spelled byte by byte (30 R95). That a mask bit of 1 masks is the polarity 30 R97 chooses from general knowledge ("a
model that takes AfeMap with the other polarity writes sel[8i+7 : 8i] instead"): log 19. -/
def Obligations.WaitForCardCompletes : Prop :=
  ∀ (s : State) (w : WakeScript) (high low : Nat) (ps : List PortAnswer) (ts : List Nat) (ls : List Bool),
    s.seq = .idle → permitted .waitForCard s = true → w.fits s.params s.mode s.cfg s.clock = true →
    s.port = answered (w.views s.mode s.cfg) ++ ps → s.ticks = w.ticks s.cfg ++ ts →
    s.line = List.replicate high true ++ List.replicate (low + 1) false ++ true :: ls →
      ∃ e k, exec .waitForCard s = .next { s with
        mode := .wakeup, irqs := 0, status := 0x00, value := 0, errinfo := e, draws := k,
        port := ps, ticks := ts, line := ls, clock := w.clockAfter s.cfg s.clock,
        trace := s.trace ++ w.events s.params s.mode s.cfg s.clock ++ [.edge] }

/-- START_A (44 R190, R191): MODE_ON, FIELD_ON, the guard interval with any number of early timer reads, then
SESS <- A. -/
def Obligations.StartACompletes : Prop :=
  ∀ (s : State) (m : ModeOnScript) (f : FieldOnScript) (v w : AfeView) (tick : Nat) (early : List Nat) (late : Nat)
    (ps : List PortAnswer) (ts : List Nat),
    let t0 := f.clockAfter s.params s.clock + tick
    s.seq = .idle → permitted .startA s = true → m.fits = true → f.fits s.params s.clock = true →
    irqSet s.params f.irqs .cac = false → irqSet s.params f.irqs .cat = true →
    delayGoesOn (t0 + s.params.tGuard) t0 early = true → t0 + s.params.tGuard ≤ delayClock t0 early + late →
    s.port = answered (m.views ++ f.views ++ [v, w]) ++ ps →
    s.ticks = f.ticks s.params ++ tick :: early ++ late :: ts →
      ∃ e k, exec .startA s = .next { s with
        mode := .on, sess := .a, irqs := f.irqs, status := 0x00, value := 0, errinfo := e, draws := k,
        port := ps, ticks := ts, clock := delayClock t0 early + late,
        trace := s.trace ++ m.events s.params ++ f.events s.params s.clock ++
          [.read (.opControl v.opControl), .write (fieldOnWrite v), .time t0] ++ delayEvents t0 early ++
          [.time (delayClock t0 early + late)] }

/-- SESSION_END (44 R195, R196), for every way its two halves can go: the second is attempted whatever the first did,
failures are logged and dropped, the result is Ok, MODE = Off, SESS = None. -/
def Obligations.SessionEndCompletes : Prop :=
  ∀ (s : State) (a : FieldOffHalf) (b : ModeOffHalf) (ps : List PortAnswer),
    s.seq = .idle → permitted .sessionEnd s = true → s.port = a.answers ++ b.answers ++ ps →
      ∃ e k, exec .sessionEnd s = .next { s with
        mode := .off, sess := .none, status := 0x00, value := 0, errinfo := e, draws := k, port := ps,
        trace := s.trace ++ a.events ++ b.events }

/-- XCV_REQA and XCV_WUPA (44 R216, R220, R221): RX is what the FIFO gives, VALUE its bit count; nothing is
subtracted. (Any count: log 33.) -/
def Obligations.RequestsComplete : Prop :=
  ∀ (i : Instr) (s : State) (x : Xcv) (timeout : Nat) (sc : XcvScript) (r : RxScript) (ps : List PortAnswer)
    (ts : List Nat),
    i = .xcvReqa ∨ i = .xcvWupa → hostExchange i s = some (x, timeout) →
    s.seq = .idle → permitted i s = true → sc.fits s.params x timeout s.clock = true →
    received s.params x.kind sc.irqs = true → r.clean = true → r.count ≤ s.rxcap →
    s.port = answered (sc.views ++ r.views) ++ ps → s.ticks = sc.ticks ++ ts →
      ∃ e k, exec i s = .next { s with
        irqs := sc.irqs, status := 0x00, value := BitVec.ofNat 32 (8 * r.count), rx := fifoBytes r.fifo r.count,
        errinfo := e, draws := k, port := ps, ticks := ts, clock := sc.clockAfter s.clock,
        trace := s.trace ++ sc.events s.params x timeout s.clock ++ r.events r.count }

/-- XCV_ANTICOLL (44 R215, R222), with `full = bits div 8` and `rem = bits mod 8`: the length of RX, its bytes one by
one, and VALUE, which is the collision position when COL is set and the whole bit count when it is not. COL is not an
error here. (Any count: log 33.) -/
def Obligations.AnticollCompletes : Prop :=
  ∀ (s : State) (bits : Word32) (x : Xcv) (timeout : Nat) (sc : XcvScript) (r : RxScript) (col : AfeView)
    (ps : List PortAnswer) (ts : List Nat),
    let full := bits.toNat / 8
    let n := max (full + r.count) ((bits.toNat + 7) / 8)
    hostExchange (.xcvAnticoll bits) s = some (x, timeout) →
    s.seq = .idle → permitted (.xcvAnticoll bits) s = true → sc.fits s.params x timeout s.clock = true →
    received s.params .anticoll sc.irqs = true → r.clean = true → n ≤ s.rxcap →
    s.port = answered (sc.views ++ r.views ++ (if irqSet s.params sc.irqs .col then [col] else [])) ++ ps →
    s.ticks = sc.ticks ++ ts →
      ∃ e k out, exec (.xcvAnticoll bits) s = .next { s with
          irqs := sc.irqs, status := 0x00, rx := out, errinfo := e, draws := k,
          value := BitVec.ofNat 32 (if irqSet s.params sc.irqs .col
            then 8 * col.collision.cByte.toNat + col.collision.cBit.toNat else 8 * (full + r.count)),
          port := ps, ticks := ts, clock := sc.clockAfter s.clock,
          trace := s.trace ++ sc.events s.params x timeout s.clock ++ r.events r.count ++
            (if irqSet s.params sc.irqs .col then [.read (.collisionStatus col.collision)] else []) } ∧
        out.length = n ∧ (∀ j, j < full → out.getD j 0 = s.tx.getD j 0) ∧
        (∀ j, full ≤ j → j < n → out.getD j 0 = (fifoBytes r.fifo r.count).getD (j - full) 0 |||
          (if j = full then s.tx.getD full 0 &&& BitVec.ofNat 8 (2 ^ (bits.toNat % 8) - 1) else 0))

/-- XCV_STANDARD (44 R214, R223): the two CRC bytes are subtracted from the count, RX is the payload, VALUE its bit
count. (Any count: log 33.) -/
def Obligations.StandardCompletes : Prop :=
  ∀ (s : State) (tmo : Word32) (x : Xcv) (timeout : Nat) (sc : XcvScript) (r : RxScript) (ps : List PortAnswer)
    (ts : List Nat),
    hostExchange (.xcvStandard tmo) s = some (x, timeout) →
    s.seq = .idle → permitted (.xcvStandard tmo) s = true → sc.fits s.params x timeout s.clock = true →
    acceptedStandard s.params s.rxcap sc r = true →
    s.port = answered (sc.views ++ r.views) ++ ps → s.ticks = sc.ticks ++ ts →
      ∃ e k, exec (.xcvStandard tmo) s = .next { s with
        irqs := sc.irqs, status := 0x00, value := BitVec.ofNat 32 (8 * (r.count - 2)),
        rx := fifoBytes r.fifo (r.count - 2), errinfo := e, draws := k, port := ps, ticks := ts,
        clock := sc.clockAfter s.clock,
        trace := s.trace ++ sc.events s.params x timeout s.clock ++ r.events (r.count - 2) }

/-- DEP_NEW (45 R240, R242): the low nibble of the answer's second byte selects one of the nine frame sizes; FSC and
VALUE take it, SPIN <- 0, SESS <- Dep, and the host's RX is not touched. (Any count: log 33.) -/
def Obligations.DepNewCompletes : Prop :=
  ∀ (s : State) (sc : XcvScript) (r : RxScript) (fsc : Nat) (ps : List PortAnswer) (ts : List Nat),
    s.seq = .idle → permitted .depNew s = true →
    sc.fits s.params (activation s.params) s.params.tRats s.clock = true →
    acceptedStandard s.params s.params.atsCap sc r = true → 2 ≤ r.payload.length →
    ((r.payload.getD 1 0).toNat % 16, fsc) ∈
      [(0, 16), (1, 24), (2, 32), (3, 40), (4, 48), (5, 64), (6, 96), (7, 128), (8, 256)] →
    s.port = answered (sc.views ++ r.views) ++ ps → s.ticks = sc.ticks ++ ts →
      ∃ e k, exec .depNew s = .next { s with
        fsc := BitVec.ofNat 9 fsc, spin := 0, sess := .dep, irqs := sc.irqs, status := 0x00,
        value := BitVec.ofNat 32 fsc, errinfo := e, draws := k, port := ps, ticks := ts,
        clock := sc.clockAfter s.clock,
        trace := s.trace ++ sc.events s.params (activation s.params) s.params.tRats s.clock ++
          r.events (r.count - 2) }

/-- DEP_XCV (45 R245 to R248, R252), with any number of S(WTX) requests before the response: each is answered with its
multiplier masked to 6 bits; RX is the response without its header, VALUE its length, and SPIN flips once. (Any count:
log 33.) -/
def Obligations.DepXcvCompletes : Prop :=
  ∀ (s : State) (wtx : List BlockScript) (b : BlockScript) (payload : List Byte) (ps : List PortAnswer)
    (ts : List Nat),
    let hdr := headerOf s
    let tx := wtxNext (hdr :: s.tx) wtx
    let clock := wtxClock s.clock wtx
    s.seq = .idle → permitted .depXcv s = true → s.tx.length + 1 ≤ s.fsc.toNat →
    wtxFits s hdr s.clock (hdr :: s.tx) wtx = true →
    b.sc.fits s.params (blockXcv s hdr tx) s.params.tDep clock = true →
    acceptedStandard s.params s.params.depCap b.sc b.r = true → b.r.payload = hdr :: payload →
    payload.length ≤ s.rxcap →
    s.port = answered (wtx.flatMap BlockScript.views ++ b.views) ++ ps →
    s.ticks = wtx.flatMap (fun q => q.sc.ticks) ++ b.sc.ticks ++ ts →
      ∃ e k, exec .depXcv s = .next { s with
        spin := s.spin + 1, irqs := b.sc.irqs, status := 0x00, value := BitVec.ofNat 32 payload.length,
        rx := payload, errinfo := e, draws := k, port := ps, ticks := ts, clock := b.sc.clockAfter clock,
        trace := s.trace ++ wtxEvents s hdr s.clock (hdr :: s.tx) wtx ++ b.events s hdr tx clock }

/-! ## Errors -/

/-- 20 R60: a port transaction that fails is recorded with FAIL, the very transaction the step makes, and ends the
running operation at once with Interface and the transport value in ERRINFO; no other register changes. (Not inside the
attempted halves of SESSION_END or START_A's first two steps.) -/
def Obligations.PortFaultEndsTheOperation : Prop :=
  ∀ (s : State) (op : Instr) (m : Micro) (todo : List Micro) (tr : Txn) (err : BusErr) (ps : List PortAnswer),
    s.seq = .busy op (m :: todo) → transactionOf m = some tr → s.port = .fail err :: ps → s.host = [] →
    (∀ q ∈ todo, q ≠ .startAGuard ∧ ∀ a, q ≠ .attemptEnd a) →
      ∃ v r k, step s = .next { s with
        seq := .idle, status := 0x01, errinfo := err, value := v, rx := r, draws := k, port := ps,
        trace := s.trace ++ [.fail tr err] }

/-- 41 R134, R135: a collision in the last refresh, with or without avoidance-complete beside it, ends FIELD_ON with
FieldCollision, and no transaction follows: tx and rx are not enabled. -/
def Obligations.FieldCollisionLeavesTheFieldOff : Prop :=
  ∀ (s : State) (f : FieldOnScript) (ps : List PortAnswer) (ts : List Nat),
    s.seq = .idle → permitted .fieldOn s = true → f.fits s.params s.clock = true →
    irqSet s.params f.irqs .cac = true →
    s.port = answered f.views ++ ps → s.ticks = f.ticks s.params ++ ts →
      ∃ v e r k, exec .fieldOn s = .next { s with
        irqs := f.irqs, status := 0x0A, value := v, errinfo := e, rx := r, draws := k, port := ps, ticks := ts,
        clock := f.clockAfter s.params s.clock, trace := s.trace ++ f.events s.params s.clock }

/-- 41 R136: with T_FIELD_ON set to `d`, a timer read at or past `t0 + d` after a refresh that shows neither bit ends
FIELD_ON with Timeout. -/
def Obligations.FieldOnTimesOut : Prop :=
  ∀ (s : State) (f : FieldOnScript) (d late : Nat) (ps : List PortAnswer) (ts : List Nat),
    s.seq = .idle → permitted .fieldOn s = true → s.params.tFieldOn = some d → f.fits s.params s.clock = true →
    irqSet s.params f.irqs .cac = false → irqSet s.params f.irqs .cat = false →
    s.clock + f.tick + d ≤ f.clockAfter s.params s.clock + late →
    s.port = answered f.views ++ ps → s.ticks = f.ticks s.params ++ late :: ts →
      ∃ v e r k, exec .fieldOn s = .next { s with
        irqs := f.irqs, status := 0x02, value := v, errinfo := e, rx := r, draws := k, port := ps, ticks := ts,
        clock := f.clockAfter s.params s.clock + late,
        trace := s.trace ++ f.events s.params s.clock ++ [.time (f.clockAfter s.params s.clock + late)] }

/-- 44 R192, path F, for every error of START_A's first two steps: where MODE_ON alone would end with an error, or
MODE_ON and then FIELD_ON, START_A goes on to attempt MODE_OFF, for every way that can go; its failure is logged and
dropped, the original code and ERRINFO (for Interface) are the result, MODE = Off and SESS stays None. The third part
says it of a field collision and of a T_FIELD_ON timeout with the trace written out. -/
def Obligations.StartAFailureTurnsOff : Prop :=
  (∀ (s t : State) (b : ModeOffHalf) (ps : List PortAnswer),
    s.seq = .idle → permitted .startA s = true →
    exec .modeOn s = .next t → t.seq = .idle → t.status ≠ 0x00 → t.port = b.answers ++ ps →
      ∃ v e r k, (t.status = 0x01 → e = t.errinfo) ∧ exec .startA s = .next { t with
        mode := .off, sess := .none, value := v, errinfo := e, rx := r, draws := k, port := ps,
        trace := t.trace ++ b.events }) ∧
  (∀ (s t u : State) (b : ModeOffHalf) (ps : List PortAnswer),
    s.seq = .idle → permitted .startA s = true →
    exec .modeOn s = .next t → t.seq = .idle → t.status = 0x00 →
    exec .fieldOn t = .next u → u.seq = .idle → u.status ≠ 0x00 → u.port = b.answers ++ ps →
      ∃ v e r k, (u.status = 0x01 → e = u.errinfo) ∧ exec .startA s = .next { u with
        mode := .off, sess := .none, value := v, errinfo := e, rx := r, draws := k, port := ps,
        trace := u.trace ++ b.events }) ∧
  (∀ (s : State) (m : ModeOnScript) (f : FieldOnScript) (b : ModeOffHalf) (ps : List PortAnswer) (ts : List Nat),
    s.seq = .idle → permitted .startA s = true → m.fits = true → f.fits s.params s.clock = true →
    s.port = answered (m.views ++ f.views) ++ b.answers ++ ps → s.ticks = f.ticks s.params ++ ts →
      (irqSet s.params f.irqs .cac = true → ∃ v e r k, exec .startA s = .next { s with
        mode := .off, irqs := f.irqs, status := 0x0A, value := v, errinfo := e, rx := r, draws := k,
        port := ps, ticks := ts, clock := f.clockAfter s.params s.clock,
        trace := s.trace ++ m.events s.params ++ f.events s.params s.clock ++ b.events }) ∧
      (irqSet s.params f.irqs .cac = false → irqSet s.params f.irqs .cat = false →
        ∀ d late ts', s.params.tFieldOn = some d → ts = late :: ts' →
        s.clock + f.tick + d ≤ f.clockAfter s.params s.clock + late →
          ∃ v e r k, exec .startA s = .next { s with
            mode := .off, irqs := f.irqs, status := 0x02, value := v, errinfo := e, rx := r, draws := k,
            port := ps, ticks := ts', clock := f.clockAfter s.params s.clock + late,
            trace := s.trace ++ m.events s.params ++ f.events s.params s.clock ++
              [.time (f.clockAfter s.params s.clock + late)] ++ b.events }))

/-- 60 R283, 42 R153: a measurement whose DCT is not seen ends with Timeout at the first deadline test at or past
`t0 + T_DEFAULT`, after as many refreshes as deadline tests. -/
def Obligations.MeasurementTimesOut : Prop :=
  ∀ (i : Instr) (cmd : AfeCmd) (s : State) (c : CmdScript) (late : Nat) (ps : List PortAnswer) (ts : List Nat),
    (i, cmd) ∈ [(.measAmp, .measAmp), (.measPhase, .measPhase), (.measCap, .measCap)] →
    let deadline := s.clock + c.tick + 500 * s.params.ticksPerMs
    s.seq = .idle → permitted i s = true →
    c.drain.length = nIrq s.params → c.last.length = nIrq s.params →
    loopGoesOn s.params (fun w => irqSet s.params w .dct) deadline (s.clock + c.tick) 0 c.waits = true →
    irqSet s.params c.irqs .dct = false → deadline ≤ c.clockAfter s.clock + late →
    s.port = answered c.views ++ ps → s.ticks = c.ticks ++ late :: ts →
      ∃ v e r k, exec i s = .next { s with
        irqs := c.irqs, status := 0x02, value := v, errinfo := e, rx := r, draws := k, port := ps, ticks := ts,
        clock := c.clockAfter s.clock + late,
        trace := s.trace ++ c.events cmd s.clock ++ [.time (c.clockAfter s.clock + late)] }

/-- 42 R156, R157: an error flag ends CAL_CAP with CalibrationFault, whatever `cal_end` is beside it, and sets FATAL;
a deadline test at or past the deadline after a read with neither flag ends it with Timeout and leaves FATAL. -/
def Obligations.CalCapFaultsAndTimesOut : Prop :=
  ∀ (s : State) (conf send : AfeView) (tick : Nat) (rounds : List CalRound) (last : AfeView) (ps : List PortAnswer)
    (ts : List Nat),
    let deadline := s.clock + tick + 500 * s.params.ticksPerMs
    let events : List Event := [.write .capCalConfAuto, .cmd .calCap, .time (s.clock + tick)] ++
      calEvents (s.clock + tick) rounds ++ [.read (.capCalResult last.capCal)]
    let clock := calClock (s.clock + tick) rounds
    s.seq = .idle → permitted .calCap s = true → calGoesOn deadline (s.clock + tick) rounds = true →
    s.port = answered ([conf, send] ++ rounds.map CalRound.view ++ [last]) ++ ps →
    s.ticks = tick :: rounds.map CalRound.tick ++ ts →
      (last.capCal.calErr = true →
        ∃ v e r k, exec .calCap s = .next { s with
          fatal := true, status := 0x10, value := v, errinfo := e, rx := r, draws := k, port := ps, ticks := ts,
          clock := clock, trace := s.trace ++ events }) ∧
      (last.capCal.calErr = false → last.capCal.calEnd = false →
        ∀ late ts', ts = late :: ts' → deadline ≤ clock + late →
          ∃ v e r k, exec .calCap s = .next { s with
            status := 0x02, value := v, errinfo := e, rx := r, draws := k, port := ps, ticks := ts',
            clock := clock + late, trace := s.trace ++ events ++ [.time (clock + late)] })

/-- 44 R209, R211; 45 R253: in every exchange, those inside DEP_NEW and DEP_XCV among them, the first of NRE, ERR_FRAME,
ERR_PAR, ERR_CRC and, outside anticollision, COL that the last refresh of step 6 shows gives the code; the no-response
timer is stopped first, and nothing else is done. -/
def Obligations.ExchangeErrorsInPriorityOrder : Prop :=
  ∀ (i : Instr) (s : State) (wtx : List BlockScript) (x : Xcv) (timeout : Nat) (sc : XcvScript) (stop : AfeView)
    (code : Byte) (ps : List PortAnswer) (ts : List Nat),
    let clock := wtxClock s.clock wtx
    exchangeOf i s wtx = some (x, timeout) → s.seq = .idle → permitted i s = true →
    sc.fits s.params x timeout clock = true →
    some code = (if irqSet s.params sc.irqs .nre then some 0x02 else if irqSet s.params sc.irqs .errFrame then some 0x03
      else if irqSet s.params sc.irqs .errPar then some 0x04 else if irqSet s.params sc.irqs .errCrc then some 0x05
      else if irqSet s.params sc.irqs .col ∧ x.kind ≠ .anticoll then some 0x06 else none) →
    s.port = answered (roundViews wtx ++ sc.views ++ [stop]) ++ ps → s.ticks = roundTicks wtx ++ sc.ticks ++ ts →
      ∃ v e r k, exec i s = .next { s with
        irqs := sc.irqs, status := code, value := v, errinfo := e, rx := r, draws := k, port := ps, ticks := ts,
        clock := sc.clockAfter clock,
        trace := s.trace ++ roundEvents s wtx ++ sc.events s.params x timeout clock ++ [.write .nrtCtrlStop] }

/-- 44 R210, R211; 45 R253: the outer bound of step 6 in every exchange: Timeout, with the no-response timer stopped. -/
def Obligations.ExchangeOuterDeadline : Prop :=
  ∀ (i : Instr) (s : State) (wtx : List BlockScript) (x : Xcv) (timeout : Nat) (sc : XcvScript) (late : Nat)
    (stop : AfeView) (ps : List PortAnswer) (ts : List Nat),
    let clock := wtxClock s.clock wtx
    exchangeOf i s wtx = some (x, timeout) → s.seq = .idle → permitted i s = true →
    sc.fits s.params x timeout clock = true → decided s.params x.kind sc.irqs = false →
    sc.clockRx clock + 500 * s.params.ticksPerMs ≤ sc.clockAfter clock + late →
    s.port = answered (roundViews wtx ++ sc.views ++ [stop]) ++ ps →
    s.ticks = roundTicks wtx ++ sc.ticks ++ late :: ts →
      ∃ v e r k, exec i s = .next { s with
        irqs := sc.irqs, status := 0x02, value := v, errinfo := e, rx := r, draws := k, port := ps, ticks := ts,
        clock := sc.clockAfter clock + late,
        trace := s.trace ++ roundEvents s wtx ++ sc.events s.params x timeout clock ++
          [.time (sc.clockAfter clock + late), .write .nrtCtrlStop] }

/-- 44 R208, R211; 45 R253: when TXE is not seen in time an exchange ends with Timeout from step 5; the no-response
timer is not stopped. -/
def Obligations.TransmissionTimesOutWithoutStop : Prop :=
  ∀ (i : Instr) (s : State) (wtx : List BlockScript) (x : Xcv) (timeout : Nat) (setup drain : List AfeView)
    (send : AfeView) (tick : Nat) (waits : List Round) (last : List AfeView) (late : Nat) (ps : List PortAnswer)
    (ts : List Nat),
    let t0 := wtxClock s.clock wtx + tick
    let clock := loopClock t0 waits
    let irqs := gather (loopIrqs 0 waits) 0 last
    let deadline := t0 + 500 * s.params.ticksPerMs
    exchangeOf i s wtx = some (x, timeout) → s.seq = .idle → permitted i s = true →
    setup.length = (setupEvents s.params x timeout).length → drain.length = nIrq s.params →
    last.length = nIrq s.params →
    loopGoesOn s.params (fun w => irqSet s.params w .txe) deadline t0 0 waits = true →
    irqSet s.params irqs .txe = false → deadline ≤ clock + late →
    s.port = answered (roundViews wtx ++ setup ++ drain ++ [send] ++ loopViews waits ++ last) ++ ps →
    s.ticks = roundTicks wtx ++ tick :: loopTicks waits ++ late :: ts →
      ∃ v e r k, exec i s = .next { s with
        irqs := irqs, status := 0x02, value := v, errinfo := e, rx := r, draws := k, port := ps, ticks := ts,
        clock := clock + late,
        trace := s.trace ++ roundEvents s wtx ++ setupEvents s.params x timeout ++ statusEvents 0 drain ++
          [.cmd (transmitCommand x.kind), .time t0] ++ loopEvents t0 waits ++ statusEvents 0 last ++
          [.time (clock + late)] }

/-- 44 R212; 45 R253: in every exchange `ovr`, `undr`, `np_lb`, tested in this order, end it; neither the count nor the
FIFO is read. -/
def Obligations.FifoFaultsEndTheExchange : Prop :=
  ∀ (i : Instr) (s : State) (wtx : List BlockScript) (x : Xcv) (timeout : Nat) (sc : XcvScript) (stop b : AfeView)
    (code : Byte) (ps : List PortAnswer) (ts : List Nat),
    let clock := wtxClock s.clock wtx
    exchangeOf i s wtx = some (x, timeout) → s.seq = .idle → permitted i s = true →
    sc.fits s.params x timeout clock = true → received s.params x.kind sc.irqs = true →
    some code = (if b.fifoB.ovr then some 0x07 else if b.fifoB.undr then some 0x08
      else if b.fifoB.npLb then some 0x09 else none) →
    s.port = answered (roundViews wtx ++ sc.views ++ [stop, b]) ++ ps → s.ticks = roundTicks wtx ++ sc.ticks ++ ts →
      ∃ v e r k, exec i s = .next { s with
        irqs := sc.irqs, status := code, value := v, errinfo := e, rx := r, draws := k, port := ps, ticks := ts,
        clock := sc.clockAfter clock,
        trace := s.trace ++ roundEvents s wtx ++ sc.events s.params x timeout clock ++
          [.write .nrtCtrlStop, .read (.fifoStatusB b.fifoB)] }

/-- 44 R214 to R216; 45 R240, R253: fewer than 2 bytes of a Standard response are ResponseTooShort, and a decoded length
above the capacity, which is RXCAP for the XCV operations, ATS_CAP for DEP_NEW and DEP_CAP for DEP_XCV, is
ResponseTooLong; the FIFO is not read. -/
def Obligations.ResponseLengthIsChecked : Prop :=
  ∀ (i : Instr) (s : State) (wtx : List BlockScript) (x : Xcv) (timeout : Nat) (sc : XcvScript) (r : RxScript)
    (code : Byte) (ps : List PortAnswer) (ts : List Nat),
    let clock := wtxClock s.clock wtx
    let cap := if i = .depNew then s.params.atsCap else if i = .depXcv then s.params.depCap else s.rxcap
    exchangeOf i s wtx = some (x, timeout) → s.seq = .idle → permitted i s = true →
    sc.fits s.params x timeout clock = true → received s.params x.kind sc.irqs = true → r.clean = true →
    some code = (match x.kind with
      | .standard => if r.count < 2 then some 0x0B else if r.count > cap + 2 then some 0x0C else none
      | .anticoll => if max (x.bits / 8 + r.count) ((x.bits + 7) / 8) > cap then some 0x0C else none
      | .reqA => if r.count > cap then some 0x0C else none
      | .wupA => if r.count > cap then some 0x0C else none) →
    s.port = answered (roundViews wtx ++ sc.views ++ [r.stop, r.fifoB, r.fifoA]) ++ ps →
    s.ticks = roundTicks wtx ++ sc.ticks ++ ts →
      ∃ v e rx k, exec i s = .next { s with
        irqs := sc.irqs, status := code, value := v, errinfo := e, rx := rx, draws := k, port := ps, ticks := ts,
        clock := sc.clockAfter clock,
        trace := s.trace ++ roundEvents s wtx ++ sc.events s.params x timeout clock ++
          [.write .nrtCtrlStop, .read (.fifoStatusB r.fifoB.fifoB), .read (.fifoStatusA r.fifoA.countLo)] }

/-- 45 R240, R242; 30 R101: an answer of fewer than 2 bytes, or a frame-size index of 9 or more, ends DEP_NEW with
Protocol and leaves FSC, SPIN and SESS as they were. -/
def Obligations.DepNewRejectsTheAnswer : Prop :=
  ∀ (s : State) (sc : XcvScript) (r : RxScript) (ps : List PortAnswer) (ts : List Nat),
    s.seq = .idle → permitted .depNew s = true →
    sc.fits s.params (activation s.params) s.params.tRats s.clock = true →
    acceptedStandard s.params s.params.atsCap sc r = true →
    (r.payload.length < 2 ∨ 9 ≤ (r.payload.getD 1 0).toNat % 16) →
    s.port = answered (sc.views ++ r.views) ++ ps → s.ticks = sc.ticks ++ ts →
      ∃ v e rx k, exec .depNew s = .next { s with
        irqs := sc.irqs, status := 0x0F, value := v, errinfo := e, rx := rx, draws := k, port := ps, ticks := ts,
        clock := sc.clockAfter s.clock,
        trace := s.trace ++ sc.events s.params (activation s.params) s.params.tRats s.clock ++
          r.events (r.count - 2) }

/-- 45 R246: `len(tx) + 1 > FSC` raises TxFrameTooBig before any port transaction, whatever is placed at the ports;
IRQS and SPIN are not touched. -/
def Obligations.TxFrameTooBigBeforeAnyTransaction : Prop :=
  ∀ s : State, s.seq = .idle → permitted .depXcv s = true → s.fsc.toNat < s.tx.length + 1 →
    ∃ v e r k, exec .depXcv s = .next { s with status := 0x0D, value := v, errinfo := e, rx := r, draws := k }

/-- 45 R249 to R251: after any number of S(WTX) rounds, an empty response or a header that is not the one sent is
Protocol, and a payload longer than RXCAP is RxFrameTooBig; nothing is sent in reply and SPIN does not flip. -/
def Obligations.DepXcvRejectsTheResponse : Prop :=
  ∀ (s : State) (wtx : List BlockScript) (b : BlockScript) (code : Byte) (ps : List PortAnswer) (ts : List Nat),
    let hdr := headerOf s
    let tx := wtxNext (hdr :: s.tx) wtx
    let clock := wtxClock s.clock wtx
    s.seq = .idle → permitted .depXcv s = true → s.tx.length + 1 ≤ s.fsc.toNat →
    wtxFits s hdr s.clock (hdr :: s.tx) wtx = true →
    b.sc.fits s.params (blockXcv s hdr tx) s.params.tDep clock = true →
    acceptedStandard s.params s.params.depCap b.sc b.r = true → b.isWtx = false →
    some code = (match b.r.payload with
      | [] => some 0x0F
      | h :: payload => if h ≠ hdr then some 0x0F else if payload.length > s.rxcap then some 0x0E else none) →
    s.port = answered (wtx.flatMap BlockScript.views ++ b.views) ++ ps →
    s.ticks = wtx.flatMap (fun q => q.sc.ticks) ++ b.sc.ticks ++ ts →
      ∃ v e r k, exec .depXcv s = .next { s with
        irqs := b.sc.irqs, status := code, value := v, errinfo := e, rx := r, draws := k, port := ps, ticks := ts,
        clock := b.sc.clockAfter clock,
        trace := s.trace ++ wtxEvents s hdr s.clock (hdr :: s.tx) wtx ++ b.events s hdr tx clock }

/-! ## The interrupt micro-operations (60 section 2) -/

/-- 60 R283: IrqWait ends as soon as a refresh shows its bit, and raises Timeout at the first deadline test at or past
`t0 + d` after a refresh that does not; a bit seen in the iteration of the expiry wins. -/
def Obligations.IrqWaitSeesItsBitOrTimesOut : Prop :=
  ∀ (s : State) (op : Instr) (todo : List Micro) (n : IrqName) (d tick : Nat) (waits : List Round)
    (last : List AfeView) (ps : List PortAnswer) (ts : List Nat),
    let t0 := s.clock + tick
    let clock := loopClock t0 waits
    let irqs := gather (loopIrqs s.irqs waits) 0 last
    let events := s.trace ++ [.time t0] ++ loopEvents t0 waits ++ statusEvents 0 last
    s.seq = .busy op (.startTimer (.irqWait n d) :: todo) →
    loopGoesOn s.params (fun w => irqSet s.params w n) (t0 + d) t0 s.irqs waits = true →
    last.length = nIrq s.params → s.port = answered (loopViews waits ++ last) ++ ps →
    s.ticks = tick :: loopTicks waits ++ ts →
      (irqSet s.params irqs n = true →
        runToStop s = runToStop { s with
          seq := .busy op todo, irqs := irqs, clock := clock, port := ps, ticks := ts, trace := events }) ∧
      (irqSet s.params irqs n = false → ∀ late ts', ts = late :: ts' → t0 + d ≤ clock + late →
        runToStop s = runToStop (raiseErr .timeout op todo { s with
          irqs := irqs, clock := clock + late, port := ps, ticks := ts', seq := .busy op todo,
          trace := events ++ [.time (clock + late)] }))

/-- 60 R280, R281: IrqRefresh reads every status register once, in index order, and ors byte `i` into bits
[8i+7 : 8i]; IrqClear reads every one once, discards the bytes, and leaves IRQS 0. -/
def Obligations.RefreshAccumulatesAndClearEmpties : Prop :=
  ∀ (s : State) (op : Instr) (todo : List Micro) (k : Poll) (vs : List AfeView) (ps : List PortAnswer),
    vs.length = nIrq s.params → s.port = answered vs ++ ps →
      (∃ irqs, runToStop { s with seq := .busy op (.refresh 0 k :: todo) } = runToStop { s with
          seq := .busy op (.test k :: todo), port := ps, irqs := irqs, trace := s.trace ++ statusEvents 0 vs } ∧
        ∀ j, j < 32 → irqs.getLsbD j =
          (s.irqs.getLsbD j || ((vs[j / 8]?).elim false fun v => (irqStatusByte v (j / 8)).getLsbD (j % 8)))) ∧
      runToStop { s with seq := .busy op (irqClear s.params ++ todo) } = runToStop { s with
        seq := .busy op todo, port := ps, irqs := 0, trace := s.trace ++ statusEvents 0 vs }

/-! ## Invariants of every step -/

/-- 60 R292, R293: every step keeps the session invariant: while SEQ is Idle, SESS != None implies MODE = On, READY = 1
and FATAL = 0, and while an operation runs its remaining steps lead back there along the edges of MODE only. -/
def Obligations.SessionInvariantKept : Prop :=
  ∀ s t : State, sessionInv s = true → step s = .next t → sessionInv t = true

/-- 10 R22: every step keeps the bits of IRQS at and above 8*N_IRQ at 0. -/
def Obligations.UnusedInterruptBitsStayZero : Prop :=
  ∀ s t : State, irqsInv s = true → step s = .next t → irqsInv t = true

/-- Both invariants hold after reset. -/
def Obligations.InvariantsHoldAtReset : Prop := sessionInv State.reset = true ∧ irqsInv State.reset = true

/-- 60 R292: one step of CTRL leaves MODE or takes one of the seven edges; Off to Wakeup and Wakeup to Wakeup are not
among them. -/
def Obligations.ModeMovesAlongItsEdges : Prop :=
  ∀ s t : State, sessionInv s = true → ctrlStep s = some t →
    t.mode = s.mode ∨ (s.mode, t.mode) ∈
      ([(.off, .on), (.on, .on), (.on, .off), (.off, .off), (.on, .wakeup), (.wakeup, .on), (.wakeup, .off)] :
        List (Mode × Mode))

/-! ## What an operation does not do -/

/-- 10 R31, 20 R61: no operation writes an operand latch, a parameter, or the acts of the host; it only appends to the
trace; the clock does not go back; the IRQ line is sampled by WAIT_FOR_CARD only. -/
def Obligations.OperandLatchesAreReadOnly : Prop :=
  ∀ (i : Instr) (s t : State), exec i s = .next t →
    t.params = s.params ∧ t.opc = s.opc ∧ t.imm = s.imm ∧ t.tx = s.tx ∧ t.rxcap = s.rxcap ∧ t.cfg = s.cfg ∧
      t.host = s.host ∧ (∃ events, t.trace = s.trace ++ events) ∧ s.clock ≤ t.clock ∧
      (i ≠ .waitForCard → t.line = s.line)

/-- 10 R32, 20 R68: the result latches are written when an operation ends and not before; of the operations that end
Ok, only the receiving ones write RX, and never beyond RXCAP. (That another operation leaves RX as it was is log 11.
What RX holds after an error is free, log 10, and nothing is said of it here.) -/
def Obligations.ResultLatchesAreWrittenAtTheEnd : Prop :=
  ∀ (i : Instr) (s t : State), s.seq = .idle → exec i s = .next t →
    (t.seq ≠ .idle → t.status = s.status ∧ t.value = s.value ∧ t.errinfo = s.errinfo ∧ t.rx = s.rx) ∧
    (t.seq = .idle → t.status = 0x00 →
      ((hostExchange i s).isSome ∨ i = .depXcv → t.rx.length ≤ s.rxcap) ∧
      ((hostExchange i s).isNone → i ≠ .depXcv → t.rx = s.rx))

/-- 20 R60, R61; 70 R347: an operation makes exactly one port transaction for each answer it takes and one timer read
for each advance it takes, recorded in the trace as completed or failed. -/
def Obligations.EveryAnswerIsOneEvent : Prop :=
  ∀ (i : Instr) (s t : State), exec i s = .next t →
    ∃ events, t.trace = s.trace ++ events ∧
      (events.filter isTransaction).length + t.port.length = s.port.length ∧
      (events.filter (fun e => match e with | .time _ => true | _ => false)).length + t.ticks.length =
        s.ticks.length

/-- 00 R14, 70 R335: an issued operation ends, or is refused, or stops where it needs an answer that has not come: it
never stops anywhere else. -/
def Obligations.OperationEndsOrAwaitsAnAnswer : Prop :=
  ∀ (i : Instr) (s : State), s.seq = .idle →
    ∃ t, exec i s = .next t ∧ (t.seq = .idle ∨ awaitsAnswer t = true)

/-- 00 R12: what an operation does depends on the answers it gets and not on when they are placed: a run that stops for
want of answers and goes on when more are placed is the run that had them all. -/
def Obligations.AnswersMayComeInPieces : Prop :=
  ∀ (s : State) (port : List PortAnswer) (ticks : List Nat) (line : List Bool),
    runToStop ((runToStop s).feed port ticks line) = runToStop (s.feed port ticks line)

/-- 44 R200: the four XCV operations write no block register but IRQS, whatever ENV answers. -/
def Obligations.ExchangeWritesOnlyInterrupts : Prop :=
  ∀ (i : Instr) (s t : State), (hostExchange i s).isSome → exec i s = .next t →
    t.ready = s.ready ∧ t.fatal = s.fatal ∧ t.mode = s.mode ∧ t.sess = s.sess ∧ t.fsc = s.fsc ∧ t.spin = s.spin

/-- 41 R130, R132, R134, R138, R139: MODE_ON, MODE_OFF, FIELD_ON and FIELD_OFF write no READY, FATAL, SESS, FSC or SPIN;
FIELD_ON and FIELD_OFF do not write MODE; all but FIELD_ON leave IRQS; MODE is what MODE_ON or MODE_OFF says as soon as
the operation is accepted, whatever ENV answers. -/
def Obligations.ModeAndFieldFrame : Prop :=
  ∀ (i : Instr) (s t : State), i ∈ [.modeOn, .modeOff, .fieldOn, .fieldOff] → s.seq = .idle → exec i s = .next t →
    t.ready = s.ready ∧ t.fatal = s.fatal ∧ t.sess = s.sess ∧ t.fsc = s.fsc ∧ t.spin = s.spin ∧
      (i ≠ .fieldOn → t.irqs = s.irqs) ∧
      t.mode = (if permitted i s = true ∧ i = .modeOn then .on else if permitted i s = true ∧ i = .modeOff then .off
        else s.mode)

/-- 40 R120, R125; 42 R151 to R157: INIT writes READY and IRQS only, and READY only when it ends Ok; the measurements
write IRQS only; CAL_CAP writes FATAL only, and only with CalibrationFault. -/
def Obligations.InitAndMeasurementFrame : Prop :=
  ∀ (i : Instr) (s t : State), i ∈ [.init, .measAmp, .measPhase, .measCap, .calCap] → s.seq = .idle →
    exec i s = .next t →
    t.mode = s.mode ∧ t.sess = s.sess ∧ t.fsc = s.fsc ∧ t.spin = s.spin ∧ (i = .calCap → t.irqs = s.irqs) ∧
      t.ready = (if i = .init ∧ t.seq = .idle ∧ t.status = 0x00 then true else s.ready) ∧
      t.fatal = (if i = .calCap ∧ t.seq = .idle ∧ t.status = 0x10 then true else s.fatal)

/-- 43 R170 to R172, R175, R179, R180: WAIT_FOR_CARD writes MODE and IRQS only. Once accepted, running or ended, with
whatever result, it is in Wakeup as soon as S1 is over (MODE was On, or the last write of MODE_ON, that of TX_DRIVER,
has completed) and in On before: an error in S1 leaves On and one from S2 on leaves Wakeup. When it ends Ok, MODE =
Wakeup and IRQS = 0. -/
def Obligations.WaitForCardFrame : Prop :=
  ∀ s t : State, s.seq = .idle → exec .waitForCard s = .next t →
    t.ready = s.ready ∧ t.fatal = s.fatal ∧ t.sess = s.sess ∧ t.fsc = s.fsc ∧ t.spin = s.spin ∧
      (permitted .waitForCard s = true → ∃ events, t.trace = s.trace ++ events ∧
        t.mode = (if s.mode = .on ∨ .write (.txDriver s.params.dResNominal) ∈ events then .wakeup else .on)) ∧
      (t.seq = .idle → t.status = 0x00 → t.mode = .wakeup ∧ t.irqs = 0)

/-- 44 R190, R192, R195, R196: START_A and SESSION_END write no READY, FATAL, FSC or SPIN, and SESSION_END no IRQS. When
an accepted START_A has ended, either it is Ok with MODE = On and SESS = A, or it is an error with MODE = Off and SESS =
None; when an accepted SESSION_END has ended, it is Ok with MODE = Off and SESS = None. -/
def Obligations.SessionBoundariesFrame : Prop :=
  ∀ (i : Instr) (s t : State), i ∈ [.startA, .sessionEnd] → s.seq = .idle → exec i s = .next t →
    t.ready = s.ready ∧ t.fatal = s.fatal ∧ t.fsc = s.fsc ∧ t.spin = s.spin ∧ (i = .sessionEnd → t.irqs = s.irqs) ∧
      (t.seq ≠ .idle → t.sess = s.sess) ∧
      (permitted i s = true → t.seq = .idle → i = .startA →
        (t.status = 0x00 ∧ t.mode = .on ∧ t.sess = .a) ∨ (t.status ≠ 0x00 ∧ t.mode = .off ∧ t.sess = .none)) ∧
      (permitted i s = true → t.seq = .idle → i = .sessionEnd →
        t.status = 0x00 ∧ t.mode = .off ∧ t.sess = .none)

/-- 10 R25, R26; 45 R240, R252: DEP_NEW writes FSC, SPIN and SESS exactly when it ends Ok, and FSC then is one of the
nine sizes; DEP_XCV flips SPIN exactly when it ends Ok and writes neither FSC nor SESS; neither writes READY, FATAL or
MODE. -/
def Obligations.DepFrame : Prop :=
  ∀ (i : Instr) (s t : State), i ∈ [.depNew, .depXcv] → s.seq = .idle → exec i s = .next t →
    t.ready = s.ready ∧ t.fatal = s.fatal ∧ t.mode = s.mode ∧
      (i = .depNew →
        if t.seq = .idle ∧ t.status = 0x00
        then t.fsc.toNat ∈ [16, 24, 32, 40, 48, 64, 96, 128, 256] ∧ t.value.toNat = t.fsc.toNat ∧ t.spin = 0 ∧
          t.sess = .dep
        else t.fsc = s.fsc ∧ t.spin = s.spin ∧ t.sess = s.sess) ∧
      (i = .depXcv → t.fsc = s.fsc ∧ t.sess = s.sess ∧
        t.spin = (if t.seq = .idle ∧ t.status = 0x00 then s.spin + 1 else s.spin))

/-! ## What an operation does not read -/

/-- 10 R25, R26; 70 R321: while SESS is not Dep no operation reads FSC or SPIN: other values of them change nothing
else. (A DEP_NEW that ends Ok writes both, whatever they were.) -/
def Obligations.FrameSizeAndSpinAreReadInDepOnly : Prop :=
  ∀ (i : Instr) (s t : State) (fsc : BitVec 9) (spin : BitVec 1), s.seq = .idle → s.sess ≠ .dep →
    exec i s = .next t →
      exec i { s with fsc := fsc, spin := spin } =
        .next (if t.sess = .dep then t else { t with fsc := fsc, spin := spin })

/-- 44 R203: XCV_REQA and XCV_WUPA ignore the TX latch. -/
def Obligations.RequestsIgnoreTx : Prop :=
  ∀ (i : Instr) (s t : State) (tx : List Byte), i = .xcvReqa ∨ i = .xcvWupa →
    tx.length ≤ s.params.txbufCap → s.tx.length ≤ s.params.txbufCap → exec i s = .next t →
      exec i { s with tx := tx } = .next { t with tx := tx }
end

