-- ==== Sys2Proof/Laws/Decode.lean ====
section
/-! SUPPORT. The two fields of a command word: `encode` puts them where `opcOf` and `immOf` read them, and a word is
nothing but its two fields (30 R80). -/

namespace Sys2Proof

/-- OPC of an encoded instruction. -/
@[simp] theorem opcOf_encode (i : Instr) : opcOf (encode i) = opcodeOf i := by
  simp only [opcOf, encode]
  generalize opcodeOf i = a
  generalize immediateOf i = b
  apply BitVec.eq_of_getLsbD_eq
  intro j hj
  rw [BitVec.getLsbD_extractLsb']
  have := BitVec.getLsbD_append (x := a) (y := b) (i := 32 + j)
  simp [this, hj]

/-- IMM of an encoded instruction. -/
@[simp] theorem immOf_encode (i : Instr) : immOf (encode i) = immediateOf i := by
  simp only [immOf, encode]
  generalize opcodeOf i = a
  generalize immediateOf i = b
  apply BitVec.eq_of_getLsbD_eq
  intro j hj
  rw [BitVec.getLsbD_extractLsb']
  have := BitVec.getLsbD_append (x := a) (y := b) (i := 0 + j)
  simp_all

/-- A command word is OPC above IMM. -/
theorem word_split (w : CmdWord) : w = opcOf w ++ immOf w := by
  simp only [opcOf, immOf]
  apply BitVec.eq_of_getLsbD_eq
  intro j hj
  simp only [BitVec.getLsbD_append, BitVec.getLsbD_extractLsb']
  split
  · simp_all
  · have : j - 32 < 8 := by omega
    have h2 : 32 + (j - 32) = j := by omega
    simp [this, h2]

/-- OPC with a known value. -/
theorem opcOf_eq {w : CmdWord} {n : Nat} (hn : n < 256) (h : (opcOf w).toNat = n) : opcOf w = BitVec.ofNat 8 n := by
  apply BitVec.eq_of_toNat_eq
  simp [h]
  omega

end Sys2Proof
end

