-- ==== Sys2Proof/Laws/State.lean ====
section
/-! SUPPORT. One lemma per field and update of State: what each small update of `Machine/Ops.lean` leaves in each
field. No later proof unfolds a record update. -/

namespace Sys2Proof.Machine

section
variable (s : State) (e : Event)

@[simp] theorem State.emit_params : (s.emit e).params = s.params := rfl
@[simp] theorem State.emit_ready : (s.emit e).ready = s.ready := rfl
@[simp] theorem State.emit_fatal : (s.emit e).fatal = s.fatal := rfl
@[simp] theorem State.emit_mode : (s.emit e).mode = s.mode := rfl
@[simp] theorem State.emit_irqs : (s.emit e).irqs = s.irqs := rfl
@[simp] theorem State.emit_sess : (s.emit e).sess = s.sess := rfl
@[simp] theorem State.emit_fsc : (s.emit e).fsc = s.fsc := rfl
@[simp] theorem State.emit_spin : (s.emit e).spin = s.spin := rfl
@[simp] theorem State.emit_seq : (s.emit e).seq = s.seq := rfl
@[simp] theorem State.emit_opc : (s.emit e).opc = s.opc := rfl
@[simp] theorem State.emit_imm : (s.emit e).imm = s.imm := rfl
@[simp] theorem State.emit_tx : (s.emit e).tx = s.tx := rfl
@[simp] theorem State.emit_rxcap : (s.emit e).rxcap = s.rxcap := rfl
@[simp] theorem State.emit_cfg : (s.emit e).cfg = s.cfg := rfl
@[simp] theorem State.emit_status : (s.emit e).status = s.status := rfl
@[simp] theorem State.emit_value : (s.emit e).value = s.value := rfl
@[simp] theorem State.emit_errinfo : (s.emit e).errinfo = s.errinfo := rfl
@[simp] theorem State.emit_rx : (s.emit e).rx = s.rx := rfl
@[simp] theorem State.emit_trace : (s.emit e).trace = s.trace ++ [e] := rfl
@[simp] theorem State.emit_clock : (s.emit e).clock = s.clock := rfl
@[simp] theorem State.emit_host : (s.emit e).host = s.host := rfl
@[simp] theorem State.emit_port : (s.emit e).port = s.port := rfl
@[simp] theorem State.emit_ticks : (s.emit e).ticks = s.ticks := rfl
@[simp] theorem State.emit_line : (s.emit e).line = s.line := rfl
@[simp] theorem State.emit_draws : (s.emit e).draws = s.draws := rfl

end

section
variable (s : State) (op : Instr) (todo : List Micro)

@[simp] theorem State.goTo_params : (s.goTo op todo).params = s.params := rfl
@[simp] theorem State.goTo_ready : (s.goTo op todo).ready = s.ready := rfl
@[simp] theorem State.goTo_fatal : (s.goTo op todo).fatal = s.fatal := rfl
@[simp] theorem State.goTo_mode : (s.goTo op todo).mode = s.mode := rfl
@[simp] theorem State.goTo_irqs : (s.goTo op todo).irqs = s.irqs := rfl
@[simp] theorem State.goTo_sess : (s.goTo op todo).sess = s.sess := rfl
@[simp] theorem State.goTo_fsc : (s.goTo op todo).fsc = s.fsc := rfl
@[simp] theorem State.goTo_spin : (s.goTo op todo).spin = s.spin := rfl
@[simp] theorem State.goTo_seq : (s.goTo op todo).seq = .busy op todo := rfl
@[simp] theorem State.goTo_opc : (s.goTo op todo).opc = s.opc := rfl
@[simp] theorem State.goTo_imm : (s.goTo op todo).imm = s.imm := rfl
@[simp] theorem State.goTo_tx : (s.goTo op todo).tx = s.tx := rfl
@[simp] theorem State.goTo_rxcap : (s.goTo op todo).rxcap = s.rxcap := rfl
@[simp] theorem State.goTo_cfg : (s.goTo op todo).cfg = s.cfg := rfl
@[simp] theorem State.goTo_status : (s.goTo op todo).status = s.status := rfl
@[simp] theorem State.goTo_value : (s.goTo op todo).value = s.value := rfl
@[simp] theorem State.goTo_errinfo : (s.goTo op todo).errinfo = s.errinfo := rfl
@[simp] theorem State.goTo_rx : (s.goTo op todo).rx = s.rx := rfl
@[simp] theorem State.goTo_trace : (s.goTo op todo).trace = s.trace := rfl
@[simp] theorem State.goTo_clock : (s.goTo op todo).clock = s.clock := rfl
@[simp] theorem State.goTo_host : (s.goTo op todo).host = s.host := rfl
@[simp] theorem State.goTo_port : (s.goTo op todo).port = s.port := rfl
@[simp] theorem State.goTo_ticks : (s.goTo op todo).ticks = s.ticks := rfl
@[simp] theorem State.goTo_line : (s.goTo op todo).line = s.line := rfl
@[simp] theorem State.goTo_draws : (s.goTo op todo).draws = s.draws := rfl

end

section
variable (s : State) (rest : List PortAnswer)

@[simp] theorem State.usePort_params : (s.usePort rest).params = s.params := rfl
@[simp] theorem State.usePort_ready : (s.usePort rest).ready = s.ready := rfl
@[simp] theorem State.usePort_fatal : (s.usePort rest).fatal = s.fatal := rfl
@[simp] theorem State.usePort_mode : (s.usePort rest).mode = s.mode := rfl
@[simp] theorem State.usePort_irqs : (s.usePort rest).irqs = s.irqs := rfl
@[simp] theorem State.usePort_sess : (s.usePort rest).sess = s.sess := rfl
@[simp] theorem State.usePort_fsc : (s.usePort rest).fsc = s.fsc := rfl
@[simp] theorem State.usePort_spin : (s.usePort rest).spin = s.spin := rfl
@[simp] theorem State.usePort_seq : (s.usePort rest).seq = s.seq := rfl
@[simp] theorem State.usePort_opc : (s.usePort rest).opc = s.opc := rfl
@[simp] theorem State.usePort_imm : (s.usePort rest).imm = s.imm := rfl
@[simp] theorem State.usePort_tx : (s.usePort rest).tx = s.tx := rfl
@[simp] theorem State.usePort_rxcap : (s.usePort rest).rxcap = s.rxcap := rfl
@[simp] theorem State.usePort_cfg : (s.usePort rest).cfg = s.cfg := rfl
@[simp] theorem State.usePort_status : (s.usePort rest).status = s.status := rfl
@[simp] theorem State.usePort_value : (s.usePort rest).value = s.value := rfl
@[simp] theorem State.usePort_errinfo : (s.usePort rest).errinfo = s.errinfo := rfl
@[simp] theorem State.usePort_rx : (s.usePort rest).rx = s.rx := rfl
@[simp] theorem State.usePort_trace : (s.usePort rest).trace = s.trace := rfl
@[simp] theorem State.usePort_clock : (s.usePort rest).clock = s.clock := rfl
@[simp] theorem State.usePort_host : (s.usePort rest).host = s.host := rfl
@[simp] theorem State.usePort_port : (s.usePort rest).port = rest := rfl
@[simp] theorem State.usePort_ticks : (s.usePort rest).ticks = s.ticks := rfl
@[simp] theorem State.usePort_line : (s.usePort rest).line = s.line := rfl
@[simp] theorem State.usePort_draws : (s.usePort rest).draws = s.draws := rfl

end

section
variable (s : State) (d : Nat) (rest : List Nat)

@[simp] theorem State.readTime_params : (s.readTime d rest).params = s.params := rfl
@[simp] theorem State.readTime_ready : (s.readTime d rest).ready = s.ready := rfl
@[simp] theorem State.readTime_fatal : (s.readTime d rest).fatal = s.fatal := rfl
@[simp] theorem State.readTime_mode : (s.readTime d rest).mode = s.mode := rfl
@[simp] theorem State.readTime_irqs : (s.readTime d rest).irqs = s.irqs := rfl
@[simp] theorem State.readTime_sess : (s.readTime d rest).sess = s.sess := rfl
@[simp] theorem State.readTime_fsc : (s.readTime d rest).fsc = s.fsc := rfl
@[simp] theorem State.readTime_spin : (s.readTime d rest).spin = s.spin := rfl
@[simp] theorem State.readTime_seq : (s.readTime d rest).seq = s.seq := rfl
@[simp] theorem State.readTime_opc : (s.readTime d rest).opc = s.opc := rfl
@[simp] theorem State.readTime_imm : (s.readTime d rest).imm = s.imm := rfl
@[simp] theorem State.readTime_tx : (s.readTime d rest).tx = s.tx := rfl
@[simp] theorem State.readTime_rxcap : (s.readTime d rest).rxcap = s.rxcap := rfl
@[simp] theorem State.readTime_cfg : (s.readTime d rest).cfg = s.cfg := rfl
@[simp] theorem State.readTime_status : (s.readTime d rest).status = s.status := rfl
@[simp] theorem State.readTime_value : (s.readTime d rest).value = s.value := rfl
@[simp] theorem State.readTime_errinfo : (s.readTime d rest).errinfo = s.errinfo := rfl
@[simp] theorem State.readTime_rx : (s.readTime d rest).rx = s.rx := rfl
@[simp] theorem State.readTime_trace : (s.readTime d rest).trace = s.trace ++ [.time (s.clock + d)] := rfl
@[simp] theorem State.readTime_clock : (s.readTime d rest).clock = s.clock + d := rfl
@[simp] theorem State.readTime_host : (s.readTime d rest).host = s.host := rfl
@[simp] theorem State.readTime_port : (s.readTime d rest).port = s.port := rfl
@[simp] theorem State.readTime_ticks : (s.readTime d rest).ticks = rest := rfl
@[simp] theorem State.readTime_line : (s.readTime d rest).line = s.line := rfl
@[simp] theorem State.readTime_draws : (s.readTime d rest).draws = s.draws := rfl

end

section
variable (s : State) (rest : List Bool)

@[simp] theorem State.useLine_params : (s.useLine rest).params = s.params := rfl
@[simp] theorem State.useLine_ready : (s.useLine rest).ready = s.ready := rfl
@[simp] theorem State.useLine_fatal : (s.useLine rest).fatal = s.fatal := rfl
@[simp] theorem State.useLine_mode : (s.useLine rest).mode = s.mode := rfl
@[simp] theorem State.useLine_irqs : (s.useLine rest).irqs = s.irqs := rfl
@[simp] theorem State.useLine_sess : (s.useLine rest).sess = s.sess := rfl
@[simp] theorem State.useLine_fsc : (s.useLine rest).fsc = s.fsc := rfl
@[simp] theorem State.useLine_spin : (s.useLine rest).spin = s.spin := rfl
@[simp] theorem State.useLine_seq : (s.useLine rest).seq = s.seq := rfl
@[simp] theorem State.useLine_opc : (s.useLine rest).opc = s.opc := rfl
@[simp] theorem State.useLine_imm : (s.useLine rest).imm = s.imm := rfl
@[simp] theorem State.useLine_tx : (s.useLine rest).tx = s.tx := rfl
@[simp] theorem State.useLine_rxcap : (s.useLine rest).rxcap = s.rxcap := rfl
@[simp] theorem State.useLine_cfg : (s.useLine rest).cfg = s.cfg := rfl
@[simp] theorem State.useLine_status : (s.useLine rest).status = s.status := rfl
@[simp] theorem State.useLine_value : (s.useLine rest).value = s.value := rfl
@[simp] theorem State.useLine_errinfo : (s.useLine rest).errinfo = s.errinfo := rfl
@[simp] theorem State.useLine_rx : (s.useLine rest).rx = s.rx := rfl
@[simp] theorem State.useLine_trace : (s.useLine rest).trace = s.trace := rfl
@[simp] theorem State.useLine_clock : (s.useLine rest).clock = s.clock := rfl
@[simp] theorem State.useLine_host : (s.useLine rest).host = s.host := rfl
@[simp] theorem State.useLine_port : (s.useLine rest).port = s.port := rfl
@[simp] theorem State.useLine_ticks : (s.useLine rest).ticks = s.ticks := rfl
@[simp] theorem State.useLine_line : (s.useLine rest).line = rest := rfl
@[simp] theorem State.useLine_draws : (s.useLine rest).draws = s.draws := rfl

end

section
variable (v : Nat) (r : Option (List Byte)) (s : State)

@[simp] theorem endOk_params : (endOk v r s).params = s.params := rfl
@[simp] theorem endOk_ready : (endOk v r s).ready = s.ready := rfl
@[simp] theorem endOk_fatal : (endOk v r s).fatal = s.fatal := rfl
@[simp] theorem endOk_mode : (endOk v r s).mode = s.mode := rfl
@[simp] theorem endOk_irqs : (endOk v r s).irqs = s.irqs := rfl
@[simp] theorem endOk_sess : (endOk v r s).sess = s.sess := rfl
@[simp] theorem endOk_fsc : (endOk v r s).fsc = s.fsc := rfl
@[simp] theorem endOk_spin : (endOk v r s).spin = s.spin := rfl
@[simp] theorem endOk_seq : (endOk v r s).seq = .idle := rfl
@[simp] theorem endOk_opc : (endOk v r s).opc = s.opc := rfl
@[simp] theorem endOk_imm : (endOk v r s).imm = s.imm := rfl
@[simp] theorem endOk_tx : (endOk v r s).tx = s.tx := rfl
@[simp] theorem endOk_rxcap : (endOk v r s).rxcap = s.rxcap := rfl
@[simp] theorem endOk_cfg : (endOk v r s).cfg = s.cfg := rfl
@[simp] theorem endOk_status : (endOk v r s).status = statusOk := rfl
@[simp] theorem endOk_value : (endOk v r s).value = BitVec.ofNat 32 v := rfl
@[simp] theorem endOk_errinfo : (endOk v r s).errinfo = Config.freeErrinfo s.draws := rfl
@[simp] theorem endOk_rx : (endOk v r s).rx = r.getD s.rx := rfl
@[simp] theorem endOk_trace : (endOk v r s).trace = s.trace := rfl
@[simp] theorem endOk_clock : (endOk v r s).clock = s.clock := rfl
@[simp] theorem endOk_host : (endOk v r s).host = s.host := rfl
@[simp] theorem endOk_port : (endOk v r s).port = s.port := rfl
@[simp] theorem endOk_ticks : (endOk v r s).ticks = s.ticks := rfl
@[simp] theorem endOk_line : (endOk v r s).line = s.line := rfl
@[simp] theorem endOk_draws : (endOk v r s).draws = s.draws + 1 := rfl

end

section
variable (e : Err) (s : State)

@[simp] theorem endError_params : (endError e s).params = s.params := rfl
@[simp] theorem endError_ready : (endError e s).ready = s.ready := rfl
@[simp] theorem endError_fatal : (endError e s).fatal = s.fatal := rfl
@[simp] theorem endError_mode : (endError e s).mode = s.mode := rfl
@[simp] theorem endError_irqs : (endError e s).irqs = s.irqs := rfl
@[simp] theorem endError_sess : (endError e s).sess = s.sess := rfl
@[simp] theorem endError_fsc : (endError e s).fsc = s.fsc := rfl
@[simp] theorem endError_spin : (endError e s).spin = s.spin := rfl
@[simp] theorem endError_seq : (endError e s).seq = .idle := rfl
@[simp] theorem endError_opc : (endError e s).opc = s.opc := rfl
@[simp] theorem endError_imm : (endError e s).imm = s.imm := rfl
@[simp] theorem endError_tx : (endError e s).tx = s.tx := rfl
@[simp] theorem endError_rxcap : (endError e s).rxcap = s.rxcap := rfl
@[simp] theorem endError_cfg : (endError e s).cfg = s.cfg := rfl
@[simp] theorem endError_status : (endError e s).status = errCode e := rfl
@[simp] theorem endError_value : (endError e s).value = Config.freeValue s.draws := rfl
@[simp] theorem endError_errinfo : (endError e s).errinfo = errinfoAfter e s.draws := rfl
@[simp] theorem endError_rx : (endError e s).rx = Config.freeRx s.draws := rfl
@[simp] theorem endError_trace : (endError e s).trace = s.trace := rfl
@[simp] theorem endError_clock : (endError e s).clock = s.clock := rfl
@[simp] theorem endError_host : (endError e s).host = s.host := rfl
@[simp] theorem endError_port : (endError e s).port = s.port := rfl
@[simp] theorem endError_ticks : (endError e s).ticks = s.ticks := rfl
@[simp] theorem endError_line : (endError e s).line = s.line := rfl
@[simp] theorem endError_draws : (endError e s).draws = s.draws + 1 := rfl

end

section
variable (s : State)

@[simp] theorem refuse_params : (refuse s).params = s.params := rfl
@[simp] theorem refuse_ready : (refuse s).ready = s.ready := rfl
@[simp] theorem refuse_fatal : (refuse s).fatal = s.fatal := rfl
@[simp] theorem refuse_mode : (refuse s).mode = s.mode := rfl
@[simp] theorem refuse_irqs : (refuse s).irqs = s.irqs := rfl
@[simp] theorem refuse_sess : (refuse s).sess = s.sess := rfl
@[simp] theorem refuse_fsc : (refuse s).fsc = s.fsc := rfl
@[simp] theorem refuse_spin : (refuse s).spin = s.spin := rfl
@[simp] theorem refuse_seq : (refuse s).seq = s.seq := rfl
@[simp] theorem refuse_opc : (refuse s).opc = s.opc := rfl
@[simp] theorem refuse_imm : (refuse s).imm = s.imm := rfl
@[simp] theorem refuse_tx : (refuse s).tx = s.tx := rfl
@[simp] theorem refuse_rxcap : (refuse s).rxcap = s.rxcap := rfl
@[simp] theorem refuse_cfg : (refuse s).cfg = s.cfg := rfl
@[simp] theorem refuse_status : (refuse s).status = statusRefused := rfl
@[simp] theorem refuse_value : (refuse s).value = s.value := rfl
@[simp] theorem refuse_errinfo : (refuse s).errinfo = s.errinfo := rfl
@[simp] theorem refuse_rx : (refuse s).rx = s.rx := rfl
@[simp] theorem refuse_trace : (refuse s).trace = s.trace := rfl
@[simp] theorem refuse_clock : (refuse s).clock = s.clock := rfl
@[simp] theorem refuse_host : (refuse s).host = s.host := rfl
@[simp] theorem refuse_port : (refuse s).port = s.port := rfl
@[simp] theorem refuse_ticks : (refuse s).ticks = s.ticks := rfl
@[simp] theorem refuse_line : (refuse s).line = s.line := rfl
@[simp] theorem refuse_draws : (refuse s).draws = s.draws := rfl

end

end Sys2Proof.Machine
end

