-- ==== Sys2Proof/Laws/Run.lean ====
section
/-! SUPPORT. What the primitives can do, said once, and the run of CTRL: every step lowers `budget`, so `runToStop`
ends where no step is possible, and a chain of steps that ends there is the whole run. -/

namespace Sys2Proof.Machine

/-! ## Inversion of the primitives -/

/-- Everything a port transaction can do (20 R60, R61). -/
theorem transact_eq_some {t : Txn} {op : Instr} {todo : List Micro} {s u : State}
    {k : AfeView → State → State} (h : transact t op todo s k = some u) :
    (∃ e rest, s.port = .fail e :: rest ∧
      u = raiseErr (.interface e) op todo ((s.usePort rest).emit (.fail t e))) ∨
    (∃ v rest, s.port = .done v :: rest ∧ u = k v (s.usePort rest)) := by
  unfold transact at h
  split at h
  · exact absurd h (by simp)
  · exact .inl ⟨_, _, ‹_›, by simpa using h.symm⟩
  · exact .inr ⟨_, _, ‹_›, by simpa using h.symm⟩

/-- Everything a timer read can do. -/
theorem readNow_eq_some {s u : State} {k : Nat → State → State} (h : readNow s k = some u) :
    ∃ d rest, s.ticks = d :: rest ∧ u = k (s.clock + d) (s.readTime d rest) := by
  unfold readNow at h
  split at h
  · exact absurd h (by simp)
  · exact ⟨_, _, ‹_›, by simpa using h.symm⟩

/-- Everything taking an error can do: the operation ends, or it goes on behind an attempted half, or in path F. -/
theorem raiseErr_cases (e : Err) (op : Instr) (todo : List Micro) (s : State) :
    (unwind e todo = .ended ∧ raiseErr e op todo s = endError e s) ∨
    (∃ a c rest, unwind e todo = .attempted a c rest ∧
      raiseErr e op todo s = (s.emit (.log (attemptLog a c))).goTo op rest) ∨
    (∃ rest, unwind e todo = .cleanup rest ∧ raiseErr e op todo s = s.goTo op rest) := by
  unfold raiseErr
  cases h : unwind e todo with
  | ended => exact .inl ⟨rfl, rfl⟩
  | attempted a c rest => exact .inr (.inl ⟨a, c, rest, rfl, rfl⟩)
  | cleanup rest => exact .inr (.inr ⟨rest, rfl, rfl⟩)

/-! ## The weight of the steps that remain -/

/-- The total weight of a step list. -/
def weigh (todo : List Micro) : Nat := (todo.map Micro.weight).sum

@[simp] theorem weigh_nil : weigh [] = 0 := rfl

@[simp] theorem weigh_cons (m : Micro) (l : List Micro) : weigh (m :: l) = m.weight + weigh l := by
  simp [weigh]

@[simp] theorem weigh_append (l r : List Micro) : weigh (l ++ r) = weigh l + weigh r := by
  simp [weigh]

theorem weigh_drains (l : List Nat) : weigh (l.map .drainIrq) = 0 := by
  induction l with
  | nil => rfl
  | cons i l ih => simp [Micro.weight, ih]

theorem weigh_irqClear (p : Params) : weigh (irqClear p) = 1 := by
  simp [irqClear, weigh_drains, Micro.weight]

theorem weigh_exchange (p : Params) (x : Xcv) (timeout : Nat) : weigh (exchange p x timeout) = 1 := by
  have h : weigh (xcvPayload x) = 0 := by
    unfold xcvPayload
    cases x.kind <;> simp [Micro.weight]
  simp [exchange, irqWait, h, weigh_irqClear, Micro.weight]

/-- Taking an error from `todo` leaves less to do than `todo`. -/
theorem unwind_weigh (e : Err) (todo : List Micro) :
    (∀ a c rest, unwind e todo = .attempted a c rest → weigh rest + 1 ≤ weigh todo) ∧
    (∀ rest, unwind e todo = .cleanup rest → weigh rest + 1 ≤ weigh todo) := by
  induction todo with
  | nil => simp [unwind]
  | cons m l ih =>
    cases m with
    | attemptEnd a => cases e <;> simp_all [unwind, Micro.weight] <;> grind
    | startAGuard =>
      refine ⟨fun _ _ _ h => (nomatch h), fun rest h => ?_⟩
      obtain rfl : pathF e = rest := by injection h
      simp only [pathF, weigh_cons, weigh_nil, Micro.weight]
      omega
    | _ => simp_all [unwind, Micro.weight] <;> grind

/-! ## The budget -/

theorem budget_idle {s : State} (h : s.seq = .idle) : budget s = 0 := by simp [budget, h]

theorem budget_busy {s : State} {op : Instr} {todo : List Micro} (h : s.seq = .busy op todo) :
    budget s = 8 * s.answers + weigh todo + 1 := by simp [budget, h, weigh]

/-- Taking an error from `todo` in `s` leaves a smaller budget than `todo` in `s` has. -/
theorem budget_raiseErr (e : Err) (op : Instr) (todo : List Micro) (s : State) :
    budget (raiseErr e op todo s) ≤ 8 * s.answers + weigh todo := by
  rcases raiseErr_cases e op todo s with ⟨-, h⟩ | ⟨a, c, rest, hu, h⟩ | ⟨rest, hu, h⟩
  · rw [h, budget_idle (by simp)]; omega
  · have := (unwind_weigh e todo).1 a c rest hu
    rw [h, budget_busy (s := (s.emit _).goTo op rest) rfl]
    simp only [State.answers, State.goTo_port, State.goTo_ticks, State.goTo_line, State.emit_port,
      State.emit_ticks, State.emit_line]
    omega
  · have := (unwind_weigh e todo).2 rest hu
    rw [h, budget_busy (s := s.goTo op rest) rfl]
    simp only [State.answers, State.goTo_port, State.goTo_ticks, State.goTo_line]
    omega

theorem budget_goTo (op : Instr) (todo : List Micro) (s : State) :
    budget (s.goTo op todo) = 8 * s.answers + weigh todo + 1 := by
  rw [budget_busy (s := s.goTo op todo) rfl]; rfl

theorem budget_endOk (v : Nat) (r : Option (List Byte)) (s : State) : budget (endOk v r s) = 0 := rfl

theorem budget_endError (e : Err) (s : State) : budget (endError e s) = 0 := rfl

/-- A transaction lowers the budget when its continuation leaves at most 7 more than the remaining steps weigh. -/
theorem budget_transact {t : Txn} {op : Instr} {m : Micro} {rest : List Micro} {s u : State}
    {k : AfeView → State → State} (hs : s.seq = .busy op (m :: rest))
    (hk : ∀ v s', s'.answers + 1 = s.answers → budget (k v s') ≤ 8 * s'.answers + weigh rest + 8)
    (h : transact t op rest s k = some u) : budget u < budget s := by
  rw [budget_busy hs, weigh_cons]
  rcases transact_eq_some h with ⟨e, ps, hp, rfl⟩ | ⟨v, ps, hp, rfl⟩
  · have := budget_raiseErr (.interface e) op rest ((s.usePort ps).emit (.fail t e))
    simp only [State.answers, State.emit_port, State.emit_ticks, State.emit_line, State.usePort_port,
      State.usePort_ticks, State.usePort_line] at this ⊢
    rw [hp]
    simp only [List.length_cons]
    omega
  · have h1 : (s.usePort ps).answers + 1 = s.answers := by
      simp only [State.answers, State.usePort_port, State.usePort_ticks, State.usePort_line, hp,
        List.length_cons]
      omega
    have := hk v _ h1
    omega

/-- A timer read lowers the budget under the same condition. -/
theorem budget_readNow {op : Instr} {m : Micro} {rest : List Micro} {s u : State} {k : Nat → State → State}
    (hs : s.seq = .busy op (m :: rest))
    (hk : ∀ t s', s'.answers + 1 = s.answers → budget (k t s') ≤ 8 * s'.answers + weigh rest + 8)
    (h : readNow s k = some u) : budget u < budget s := by
  rw [budget_busy hs, weigh_cons]
  obtain ⟨d, ts, ht, rfl⟩ := readNow_eq_some h
  have h1 : (s.readTime d ts).answers + 1 = s.answers := by
    simp only [State.answers, State.readTime_port, State.readTime_ticks, State.readTime_line, ht,
      List.length_cons]
    omega
  have := hk (s.clock + d) _ h1
  omega

@[simp] theorem State.answers_emit (s : State) (e : Event) : (s.emit e).answers = s.answers := rfl

@[simp] theorem State.answers_goTo (s : State) (op : Instr) (todo : List Micro) :
    (s.goTo op todo).answers = s.answers := rfl

theorem budget_testLoop (op : Instr) (rest : List Micro) (s : State) (k : Poll) :
    budget (testLoop op rest s k) ≤ 8 * s.answers + weigh rest + 3 := by
  have hr := fun e => budget_raiseErr e op rest s
  unfold testLoop
  split
  · split <;> simp [budget_goTo, Micro.weight]
  · split
    · exact Nat.le_trans (hr _) (by omega)
    · split
      · simp [budget_goTo]
      · split <;> simp [budget_goTo, Micro.weight] <;> omega
  · split <;> simp [budget_goTo, Micro.weight] <;> omega

theorem budget_testDeadline (op : Instr) (rest : List Micro) (k : Poll) (now : Nat) (s : State) :
    budget (testDeadline op rest k now s) ≤ 8 * s.answers + weigh rest + 8 := by
  have hr := fun e => budget_raiseErr e op rest s
  unfold testDeadline
  split
  · simp [budget_goTo, Micro.weight] <;> omega
  · split
    · split
      · exact Nat.le_trans (hr _) (by omega)
      · exact Nat.le_trans (hr _) (by omega)
      · simp [budget_goTo, Micro.weight] <;> omega
    · simp [budget_goTo, Micro.weight] <;> omega

theorem budget_decodeChecks (op : Instr) (rest : List Micro) (x : Xcv) (n : Nat) (s : State) :
    budget (decodeChecks op rest x n s) ≤ 8 * s.answers + weigh rest + 8 := by
  have hr := fun e => budget_raiseErr e op rest s
  unfold decodeChecks
  split
  · split
    · exact Nat.le_trans (hr _) (by omega)
    · split
      · exact Nat.le_trans (hr _) (by omega)
      · simp [budget_goTo, Micro.weight] <;> omega
  all_goals
    split
    · exact Nat.le_trans (hr _) (by omega)
    · simp [budget_goTo, Micro.weight] <;> omega

theorem budget_decodeRead (op : Instr) (rest : List Micro) (x : Xcv) (f : List Byte) (s : State) :
    budget (decodeRead op rest x f s) ≤ 8 * s.answers + weigh rest + 8 := by
  unfold decodeRead
  split
  · split <;> simp [budget_goTo, Micro.weight] <;> omega
  all_goals simp [budget_goTo, Micro.weight] <;> omega

theorem budget_calTests (op : Instr) (rest : List Micro) (dl : Nat) (r : CapCalResult) (s : State) :
    budget (calTests op rest dl r s) ≤ 8 * s.answers + weigh rest + 8 := by
  unfold calTests
  split
  · exact Nat.le_trans (budget_raiseErr _ op rest _) (by simp [State.answers] <;> omega)
  · split
    · simp [budget_endOk]
    · simp [budget_goTo, Micro.weight] <;> omega

theorem budget_deliverTo (op : Instr) (rest : List Micro) (x : Xcv) (data : List Byte) (bits : Nat) (s : State) :
    budget (deliverTo op rest x data bits s) ≤ 8 * s.answers + weigh rest + 2 := by
  have hr := fun e => budget_raiseErr e op rest s
  unfold deliverTo
  split
  · simp [budget_endOk]
  · unfold depNewFinish
    split
    · exact Nat.le_trans (hr _) (by omega)
    · split
      · exact Nat.le_trans (hr _) (by omega)
      · simp [budget_endOk]
  · unfold depXcvFinish
    split
    · simp [budget_goTo, weigh_exchange]; omega
    · split
      · exact Nat.le_trans (hr _) (by omega)
      · split
        · exact Nat.le_trans (hr _) (by omega)
        · split
          · exact Nat.le_trans (hr _) (by omega)
          · simp [budget_endOk]

/-- Every step of CTRL lowers the budget. -/
theorem budget_microStep {op : Instr} {m : Micro} {rest : List Micro} {s t : State}
    (hs : s.seq = .busy op (m :: rest)) (h : microStep op m rest s = some t) : budget t < budget s := by
  have hb := budget_busy hs
  rw [weigh_cons] at hb
  cases m <;> simp only [microStep, Option.some.injEq] at h
  case setMode | setReady | setSess | zeroIrqs | yield | attemptEnd | startAGuard =>
    subst h
    rw [hb, budget_goTo]
    simp [Micro.weight, State.answers]
  case raise e =>
    subst h
    have := budget_raiseErr e op rest s
    simp only [hb, Micro.weight]; omega
  case test k =>
    subst h
    have := budget_testLoop op rest s k
    simp only [hb, Micro.weight]; omega
  case deliver x data bits =>
    subst h
    have := budget_deliverTo op rest x data bits s
    simp only [hb, Micro.weight]; omega
  case waitRise last =>
    split at h
    · exact absurd h (by simp)
    · rename_i level ls hl
      split at h <;>
      · simp only [Option.some.injEq] at h
        subst h
        rw [hb, budget_goTo]
        simp [Micro.weight, State.answers, hl] <;> omega
  case startTimer w =>
    refine budget_readNow hs (fun now s' _ => ?_) h
    have : (startTimed s'.params now w).weight = 0 := by cases w <;> rfl
    simp [budget_goTo, this]
  case deadline k => exact budget_readNow hs (fun now s' _ => budget_testDeadline op rest k now s') h
  case calDeadline dl =>
    refine budget_readNow hs (fun now s' _ => ?_) h
    split
    · exact Nat.le_trans (budget_raiseErr _ op rest s') (by omega)
    · simp [budget_goTo, Micro.weight] <;> omega
  case delayUntil u =>
    refine budget_readNow hs (fun now s' _ => ?_) h
    split <;> simp [budget_goTo, Micro.weight] <;> omega
  case readFifoA x hi =>
    refine budget_transact hs (fun v s' _ => ?_) h
    exact budget_decodeChecks op rest x _ (s'.emit _)
  case readFifo x n =>
    refine budget_transact hs (fun v s' _ => ?_) h
    exact budget_decodeRead op rest x _ (s'.emit _)
  case pollCal dl =>
    refine budget_transact hs (fun v s' _ => ?_) h
    exact budget_calTests op rest dl _ (s'.emit _)
  case readFifoB x =>
    refine budget_transact hs (fun v s' _ => ?_) h
    split
    · exact Nat.le_trans (budget_raiseErr _ op rest (s'.emit _)) (by simp only [State.answers_emit]; omega)
    · simp [budget_goTo, Micro.weight]
  case returnAdc =>
    exact budget_transact hs (fun v s' _ => by rw [budget_endOk]; omega) h
  case pollOsc =>
    refine budget_transact hs (fun v s' _ => ?_) h
    rw [budget_goTo]
    split <;> simp [Micro.weight]
  case refresh i k =>
    refine budget_transact hs (fun v s' _ => ?_) h
    rw [budget_goTo]
    split <;> simp [Micro.weight, State.answers] <;> omega
  all_goals
    refine budget_transact hs (fun v s' _ => ?_) h
    rw [budget_goTo]
    simp [Micro.weight] <;> omega

/-- Every step of CTRL lowers the budget (10 R41: a loop goes round only by taking answers). -/
theorem budget_ctrlStep {s t : State} (h : ctrlStep s = some t) : budget t < budget s := by
  unfold ctrlStep at h
  split at h
  · exact absurd h (by simp)
  · rename_i op hs
    simp only [Option.some.injEq] at h
    subst h
    rw [budget_endOk, budget_busy hs]; omega
  · exact budget_microStep ‹_› h

/-! ## Runs -/

/-- A chain of steps of CTRL. -/
inductive Steps : State → State → Prop where
  | refl (s : State) : Steps s s
  | head {s t u : State} (h : ctrlStep s = some t) (r : Steps t u) : Steps s u

theorem Steps.trans {s t u : State} (h : Steps s t) (r : Steps t u) : Steps s u := by
  induction h with
  | refl _ => exact r
  | head h _ ih => exact .head h (ih r)

theorem Steps.single {s t : State} (h : ctrlStep s = some t) : Steps s t := .head h (.refl t)

theorem steps_runCtrl (n : Nat) (s : State) : Steps s (runCtrl n s) := by
  induction n generalizing s with
  | zero => exact .refl s
  | succ n ih =>
    unfold runCtrl
    split
    · exact .refl s
    · exact .head ‹_› (ih _)

theorem runCtrl_of_stopped {s : State} (h : ctrlStep s = none) (n : Nat) : runCtrl n s = s := by
  cases n with
  | zero => rfl
  | succ n => simp [runCtrl, h]

/-- A run with enough steps ends where no step is possible. -/
theorem runCtrl_stopped (n : Nat) (s : State) (h : budget s ≤ n) : ctrlStep (runCtrl n s) = none := by
  induction n generalizing s with
  | zero =>
    cases hc : ctrlStep s with
    | none => simpa [runCtrl] using hc
    | some t => have := budget_ctrlStep hc; omega
  | succ n ih =>
    cases hc : ctrlStep s with
    | none => rw [runCtrl_of_stopped hc]; exact hc
    | some t =>
      have := budget_ctrlStep hc
      simp only [runCtrl, hc]
      exact ih t (by omega)

theorem runToStop_stopped (s : State) : ctrlStep (runToStop s) = none :=
  runCtrl_stopped _ s (Nat.le_refl _)

/-- Two chains from one state that both end where no step is possible end in the same state. -/
theorem Steps.unique {s t u : State} (h : Steps s t) (ht : ctrlStep t = none) (r : Steps s u)
    (hu : ctrlStep u = none) : t = u := by
  induction h with
  | refl s =>
    cases r with
    | refl => rfl
    | head h _ => rw [ht] at h; exact absurd h (by simp)
  | head h _ ih =>
    cases r with
    | refl => rw [hu] at h; exact absurd h (by simp)
    | head h' r' => exact ih ht (by rw [h] at h'; cases h'; exact r')

/-- THE RUN: a chain of steps that ends where no step is possible is what `runToStop` does. -/
theorem runToStop_eq {s t : State} (h : Steps s t) (ht : ctrlStep t = none) : runToStop s = t :=
  (steps_runCtrl _ s).unique (runToStop_stopped s) h ht

/-- A run may be cut after any chain of steps. -/
theorem runToStop_steps {s t : State} (h : Steps s t) : runToStop s = runToStop t :=
  runToStop_eq (h.trans (steps_runCtrl _ t)) (runToStop_stopped t)

/-- A property that every step of CTRL keeps holds at the end of a run. -/
theorem Steps.keeps {P : State → Prop} (hP : ∀ {a b : State}, ctrlStep a = some b → P a → P b) {s t : State}
    (h : Steps s t) (hs : P s) : P t := by
  induction h with
  | refl _ => exact hs
  | head h _ ih => exact ih (hP h hs)

theorem runToStop_keeps {P : State → Prop} (hP : ∀ {a b : State}, ctrlStep a = some b → P a → P b) {s : State}
    (hs : P s) : P (runToStop s) :=
  (steps_runCtrl _ s).keeps hP hs

end Sys2Proof.Machine
end

