-- ==== Sys2Proof/Laws/Effect.lean ====
section
/-! SUPPORT. Everything one step of CTRL can do, said once: which block registers it may write, that it appends one
event for each answer it takes, and how it leaves the sequencer. Frames and invariants follow from `ctrlStep_effect`
with no unfolding of a step. -/

namespace Sys2Proof.Machine

/-- The timer reads among some events. -/
def timeReads (l : List Event) : List Event := l.filter (fun e => match e with | .time _ => true | _ => false)

/-- What the step `m` may write before it moves the sequencer: `u` is `s` with other block registers, fewer answers
and more events. -/
structure Moved (m : Micro) (s u : State) : Prop where
  eq : ∃ ready fatal mode irqs sess fsc spin port ticks line clock trace, u = { s with
    ready := ready, fatal := fatal, mode := mode, irqs := irqs, sess := sess, fsc := fsc, spin := spin, port := port,
    ticks := ticks, line := line, clock := clock, trace := trace }
  ready : m ≠ .setReady → u.ready = s.ready := by first | exact fun _ => rfl | simp
  fatal : (∀ dl, m ≠ .pollCal dl) → u.fatal = s.fatal := by first | exact fun _ => rfl | simp
  mode : (∀ v, m ≠ .setMode v) → u.mode = s.mode := by first | exact fun _ => rfl | simp
  irqs : m ≠ .zeroIrqs → (∀ i k, m ≠ .refresh i k) → u.irqs = s.irqs := by first | exact fun _ _ => rfl | simp
  sess : (∀ v, m ≠ .setSess v) → (∀ x data bits, m ≠ .deliver x data bits) → u.sess = s.sess := by
    first | exact fun _ _ => rfl | simp
  block : (∀ x data bits, m ≠ .deliver x data bits) → u.fsc = s.fsc ∧ u.spin = s.spin := by
    first | exact fun _ => ⟨rfl, rfl⟩ | simp
  line : (∀ l, m ≠ .waitRise l) → u.line = s.line := by first | exact fun _ => rfl | simp
  clock : s.clock ≤ u.clock := by exact Nat.le_refl _
  trace : ∃ events, u.trace = s.trace ++ events ∧
    (events.filter isTransaction).length + u.port.length = s.port.length ∧
    (timeReads events).length + u.ticks.length = s.ticks.length

/-- How a step leaves the sequencer: at other steps (with a LOG event when an attempted half failed), or Idle. -/
def Ended (op : Instr) (u t : State) : Prop :=
  (∃ todo, t = u.goTo op todo) ∨ (∃ msg todo, t = (u.emit (.log msg)).goTo op todo) ∨
    (∃ v r, t = endOk v r u) ∨ ∃ e, t = endError e u

theorem goTo_ended (op : Instr) (todo : List Micro) (u : State) : Ended op u (u.goTo op todo) := .inl ⟨_, rfl⟩

theorem endOk_ended (op : Instr) (v : Nat) (r : Option (List Byte)) (u : State) : Ended op u (endOk v r u) :=
  .inr (.inr (.inl ⟨_, _, rfl⟩))

theorem raiseErr_ended (e : Err) (op : Instr) (todo : List Micro) (u : State) : Ended op u (raiseErr e op todo u) := by
  rcases raiseErr_cases e op todo u with ⟨-, h⟩ | ⟨a, c, rest, -, h⟩ | ⟨rest, -, h⟩
  · exact .inr (.inr (.inr ⟨e, h⟩))
  · exact .inr (.inl ⟨_, _, h⟩)
  · exact .inl ⟨_, h⟩

theorem testLoop_ended (op : Instr) (rest : List Micro) (u : State) (k : Poll) :
    Ended op u (testLoop op rest u k) := by
  unfold testLoop
  repeat' split
  all_goals first | exact goTo_ended _ _ _ | exact raiseErr_ended _ _ _ _

theorem testDeadline_ended (op : Instr) (rest : List Micro) (k : Poll) (now : Nat) (u : State) :
    Ended op u (testDeadline op rest k now u) := by
  unfold testDeadline
  repeat' split
  all_goals first | exact goTo_ended _ _ _ | exact raiseErr_ended _ _ _ _

theorem decodeChecks_ended (op : Instr) (rest : List Micro) (x : Xcv) (n : Nat) (u : State) :
    Ended op u (decodeChecks op rest x n u) := by
  unfold decodeChecks
  repeat' split
  all_goals first | exact goTo_ended _ _ _ | exact raiseErr_ended _ _ _ _

theorem decodeRead_ended (op : Instr) (rest : List Micro) (x : Xcv) (f : List Byte) (u : State) :
    Ended op u (decodeRead op rest x f u) := by
  unfold decodeRead
  dsimp only
  repeat' split
  all_goals exact goTo_ended _ _ _

/-- A step that takes no answer and writes no block register. -/
theorem Moved.nothing (m : Micro) (s : State) : Moved m s s :=
  { eq := ⟨_, _, _, _, _, _, _, _, _, _, _, _, rfl⟩, trace := ⟨[], by simp [timeReads]⟩ }

/-- A step that takes one answer of ENV and writes no block register. -/
theorem Moved.transaction (m : Micro) {s : State} (e : Event) (logs : List Event) {a : PortAnswer}
    {ps : List PortAnswer} (hp : s.port = a :: ps) (he : isTransaction e = true)
    (hl : logs.filter isTransaction = []) (ht : timeReads (e :: logs) = []) :
    Moved m s { s with port := ps, trace := s.trace ++ e :: logs } :=
  { eq := ⟨_, _, _, _, _, _, _, _, _, _, _, _, rfl⟩
    trace := ⟨e :: logs, rfl, by simp [he, hl, hp]; omega, by simp [ht]⟩ }

theorem transact_ended {t : Txn} {op : Instr} {m : Micro} {rest : List Micro} {s u : State}
    {k : AfeView → State → State}
    (hk : ∀ v ps, s.port = .done v :: ps → ∃ w, Moved m s w ∧ Ended op w (k v (s.usePort ps)))
    (h : transact t op rest s k = some u) : ∃ w, Moved m s w ∧ Ended op w u := by
  rcases transact_eq_some h with ⟨e, ps, hp, rfl⟩ | ⟨v, ps, hp, rfl⟩
  · exact ⟨_, .transaction m (.fail t e) [] hp rfl rfl rfl, raiseErr_ended _ _ _ _⟩
  · exact hk v ps hp

theorem readNow_ended {op : Instr} {m : Micro} {s u : State} {k : Nat → State → State}
    (hk : ∀ t w, Ended op w (k t w)) (h : readNow s k = some u) : ∃ w, Moved m s w ∧ Ended op w u := by
  obtain ⟨d, ts, ht, rfl⟩ := readNow_eq_some h
  refine ⟨s.readTime d ts, ?_, hk _ _⟩
  exact { eq := ⟨_, _, _, _, _, _, _, _, _, _, _, _, rfl⟩
          clock := by simp
          trace := ⟨[.time (s.clock + d)], rfl, by simp [isTransaction], by simp [timeReads, ht]; omega⟩ }

/-- What the delivery of a response can do: DEP_NEW writes FSC, SPIN and SESS, DEP_XCV flips SPIN, each when it ends
Ok. -/
theorem deliverTo_ended (op : Instr) (rest : List Micro) (x : Xcv) (data : List Byte) (bits : Nat) (s : State) :
    ∃ u, Moved (.deliver x data bits) s u ∧ Ended op u (deliverTo op rest x data bits s) := by
  have hr := fun e => raiseErr_ended e op rest s
  unfold deliverTo
  split
  · exact ⟨s, .nothing _ _, endOk_ended _ _ _ _⟩
  · unfold depNewFinish
    split
    · exact ⟨s, .nothing _ _, hr _⟩
    · split
      · exact ⟨s, .nothing _ _, hr _⟩
      · exact ⟨{ s with fsc := BitVec.ofNat 9 _, spin := 0, sess := .dep },
          { eq := ⟨_, _, _, _, _, _, _, _, _, _, _, _, rfl⟩, trace := ⟨[], by simp [timeReads]⟩ },
          endOk_ended _ _ _ _⟩
  · unfold depXcvFinish
    split
    · exact ⟨s, .nothing _ _, goTo_ended _ _ _⟩
    · split
      · exact ⟨s, .nothing _ _, hr _⟩
      · split
        · exact ⟨s, .nothing _ _, hr _⟩
        · split
          · exact ⟨s, .nothing _ _, hr _⟩
          · exact ⟨{ s with spin := flipSpin s.spin },
              { eq := ⟨_, _, _, _, _, _, _, _, _, _, _, _, rfl⟩, trace := ⟨[], by simp [timeReads]⟩ },
              endOk_ended _ _ _ _⟩

/-- Everything the step `m` can do. -/
theorem microStep_effect {op : Instr} {m : Micro} {rest : List Micro} {s t : State}
    (h : microStep op m rest s = some t) : ∃ u, Moved m s u ∧ Ended op u t := by
  cases m <;> simp only [microStep, Option.some.injEq] at h
  case setMode v =>
    exact ⟨{ s with mode := v }, { eq := ⟨_, _, _, _, _, _, _, _, _, _, _, _, rfl⟩, trace := ⟨[], by simp [timeReads]⟩ },
      h ▸ goTo_ended _ _ _⟩
  case setReady =>
    exact ⟨{ s with ready := true },
      { eq := ⟨_, _, _, _, _, _, _, _, _, _, _, _, rfl⟩, trace := ⟨[], by simp [timeReads]⟩ }, h ▸ goTo_ended _ _ _⟩
  case setSess v =>
    exact ⟨{ s with sess := v }, { eq := ⟨_, _, _, _, _, _, _, _, _, _, _, _, rfl⟩, trace := ⟨[], by simp [timeReads]⟩ },
      h ▸ goTo_ended _ _ _⟩
  case zeroIrqs =>
    exact ⟨{ s with irqs := 0 }, { eq := ⟨_, _, _, _, _, _, _, _, _, _, _, _, rfl⟩, trace := ⟨[], by simp [timeReads]⟩ },
      h ▸ goTo_ended _ _ _⟩
  case yield =>
    exact ⟨s.emit .yield, { eq := ⟨_, _, _, _, _, _, _, _, _, _, _, _, rfl⟩
                            trace := ⟨[.yield], rfl, by simp [isTransaction], by simp [timeReads]⟩ },
      h ▸ goTo_ended _ _ _⟩
  case attemptEnd a => exact ⟨s, .nothing _ _, h ▸ goTo_ended _ _ _⟩
  case startAGuard => exact ⟨s, .nothing _ _, h ▸ goTo_ended _ _ _⟩
  case raise e => exact ⟨s, .nothing _ _, h ▸ raiseErr_ended _ _ _ _⟩
  case test k => exact ⟨s, .nothing _ _, h ▸ testLoop_ended _ _ _ _⟩
  case deliver x data bits => exact h ▸ deliverTo_ended _ _ _ _ _ _
  case waitRise last =>
    split at h
    · simp at h
    · rename_i level ls hl
      split at h <;> simp only [Option.some.injEq] at h <;> subst h
      · exact ⟨(s.useLine ls).emit .edge,
          { eq := ⟨_, _, _, _, _, _, _, _, _, _, _, _, rfl⟩
            trace := ⟨[.edge], rfl, by simp [isTransaction], by simp [timeReads]⟩ }, goTo_ended _ _ _⟩
      · exact ⟨s.useLine ls, { eq := ⟨_, _, _, _, _, _, _, _, _, _, _, _, rfl⟩, trace := ⟨[], by simp [timeReads]⟩ },
          goTo_ended _ _ _⟩
  case startTimer w => exact readNow_ended (fun _ _ => goTo_ended _ _ _) h
  case deadline k => exact readNow_ended (fun _ _ => testDeadline_ended _ _ _ _ _) h
  case calDeadline dl =>
    exact readNow_ended (fun _ _ => by split <;> first | exact raiseErr_ended _ _ _ _ | exact goTo_ended _ _ _) h
  case delayUntil u => exact readNow_ended (fun _ _ => goTo_ended _ _ _) h
  case refresh i k =>
    refine transact_ended (fun v ps hp => ?_) h
    refine ⟨{ s with
        port := ps, irqs := orStatus s.irqs i (irqStatusByte v i)
        trace := s.trace ++ [.read (.irqStatus i (irqStatusByte v i))] }, ?_, .inl ⟨_, rfl⟩⟩
    exact { eq := ⟨_, _, _, _, _, _, _, _, _, _, _, _, rfl⟩
            trace := ⟨[.read (.irqStatus i (irqStatusByte v i))], rfl, by rw [hp]; exact Nat.add_comm 1 _,
              by simp [timeReads]⟩ }
  case pollCal dl =>
    refine transact_ended (fun v ps hp => ?_) h
    have hm := Moved.transaction (.pollCal dl) (.read (.capCalResult v.capCal)) [] hp rfl rfl rfl
    unfold calTests
    split
    · refine ⟨{ s with port := ps, fatal := true, trace := s.trace ++ [.read (.capCalResult v.capCal)] }, ?_,
        raiseErr_ended _ _ _ _⟩
      exact { eq := ⟨_, _, _, _, _, _, _, _, _, _, _, _, rfl⟩
              trace := ⟨[.read (.capCalResult v.capCal)], rfl, by rw [hp]; exact Nat.add_comm 1 _,
                by simp [timeReads]⟩ }
    · split
      · exact ⟨_, hm, endOk_ended _ _ _ _⟩
      · exact ⟨_, hm, goTo_ended _ _ _⟩
  case readIdentity =>
    refine transact_ended (fun v ps hp => ⟨_, .transaction _ (.read (.identity v.identity))
      [.log (.identity v.identity)] hp rfl rfl rfl, .inl ⟨rest, ?_⟩⟩) h
    simp [State.emit, State.usePort, State.goTo]
  case readVdd =>
    refine transact_ended (fun v ps hp => ⟨_, .transaction _ (.read (.adcResult v.adcResult))
      [.log (.vddMv (vddMv v.adcResult))] hp rfl rfl rfl,
      .inl ⟨.write (.afeSupply (sup3v v.adcResult)) :: rest, ?_⟩⟩) h
    simp [State.emit, State.usePort, State.goTo]
  case readFifoB x =>
    refine transact_ended (fun v ps hp => ⟨_, .transaction _ (.read (.fifoStatusB v.fifoB)) [] hp rfl rfl rfl, ?_⟩) h
    split
    · exact raiseErr_ended _ _ _ _
    · exact goTo_ended _ _ _
  case readFifoA x hi =>
    exact transact_ended (fun v ps hp => ⟨_, .transaction _ (.read (.fifoStatusA v.countLo)) [] hp rfl rfl rfl,
      decodeChecks_ended _ _ _ _ _⟩) h
  case readFifo x n =>
    exact transact_ended (fun v ps hp => ⟨_, .transaction _ (.fifoRead n (fifoBytes v n)) [] hp rfl rfl rfl,
      decodeRead_ended _ _ _ _ _⟩) h
  case returnAdc =>
    exact transact_ended (fun v ps hp => ⟨_, .transaction _ (.read (.adcResult v.adcResult)) [] hp rfl rfl rfl,
      endOk_ended _ _ _ _⟩) h
  all_goals exact transact_ended (fun v ps hp => ⟨_, .transaction _ _ [] hp rfl rfl rfl, goTo_ended _ _ _⟩) h

/-- Everything one step of CTRL can do. -/
theorem ctrlStep_effect {s t : State} (h : ctrlStep s = some t) :
    (∃ op, s.seq = .busy op [] ∧ t = endOk 0 none s) ∨
    ∃ op m rest u, s.seq = .busy op (m :: rest) ∧ Moved m s u ∧ Ended op u t := by
  unfold ctrlStep at h
  split at h
  · simp at h
  · exact .inl ⟨_, ‹_›, by simpa using h.symm⟩
  · obtain ⟨u, h1, h2⟩ := microStep_effect h
    exact .inr ⟨_, _, _, u, ‹_›, h1, h2⟩

end Sys2Proof.Machine
end

