-- ==== Sys2Proof/Laws/Sequences.lean ====
section
/-! SUPPORT. What the shared step lists do, each said once as a chain of steps: a proof about an operation joins these
and ends with `runToStop_eq`. -/

namespace Sys2Proof.Machine

/-! ## Single steps -/

/-- An operation is a chain of steps that ends Idle. -/
theorem runToStop_idle {s t : State} (h : Steps s t) (ht : t.seq = .idle) : runToStop s = t :=
  runToStop_eq h (by simp [ctrlStep, ht])

/-- The step of a busy state. -/
theorem ctrlStep_busy {s : State} {op : Instr} {m : Micro} {rest : List Micro} (h : s.seq = .busy op (m :: rest)) :
    ctrlStep s = microStep op m rest s := by simp [ctrlStep, h]

/-- A state whose sequencer is at `todo` is itself, moved there. -/
theorem State.goTo_self {s : State} {op : Instr} {todo : List Micro} (h : s.seq = .busy op todo) :
    s.goTo op todo = s := by
  cases s
  simp only [State.goTo] at *
  rw [h]

/-- What `transact` does with a completed answer. -/
theorem transact_done {t : Txn} {op : Instr} {todo : List Micro} {s : State} {k : AfeView → State → State}
    {v : AfeView} {ps : List PortAnswer} (h : s.port = .done v :: ps) :
    transact t op todo s k = some (k v (s.usePort ps)) := by simp [transact, h]

/-- What `transact` does with a failure (20 R60). -/
theorem transact_fail {t : Txn} {op : Instr} {todo : List Micro} {s : State} {k : AfeView → State → State}
    {e : BusErr} {ps : List PortAnswer} (h : s.port = .fail e :: ps) :
    transact t op todo s k = some (raiseErr (.interface e) op todo ((s.usePort ps).emit (.fail t e))) := by
  simp [transact, h]

/-- What `readNow` does. -/
theorem readNow_tick {s : State} {k : Nat → State → State} {d : Nat} {ts : List Nat} (h : s.ticks = d :: ts) :
    readNow s k = some (k (s.clock + d) (s.readTime d ts)) := by simp [readNow, h]

/-! ## A running operation -/

/-- `s` while operation `op` runs: the steps that remain, the answers that are placed, the clock, IRQS, and the
events since `s`. -/
def State.running (s : State) (op : Instr) (todo : List Micro) (port : List PortAnswer) (ticks : List Nat)
    (clock : Nat) (irqs : Word32) (evs : List Event) : State :=
  { s with
    seq := .busy op todo
    port := port
    ticks := ticks
    clock := clock
    irqs := irqs
    trace := s.trace ++ evs }

section
variable {s : State} {op : Instr} {rest : List Micro} {ps : List PortAnswer} {ts : List Nat} {clk : Nat}
  {irqs : Word32} {evs : List Event}

/-- An operation at issue is a running operation. -/
theorem goTo_eq_running (h : s.port = ps) (ht : s.ticks = ts) :
    s.goTo op rest = s.running op rest ps ts s.clock s.irqs [] := by
  subst h ht; simp [State.running, State.goTo]

theorem steps_setMode (m : Mode) :
    Steps (s.running op (.setMode m :: rest) ps ts clk irqs evs)
      ({ s with mode := m }.running op rest ps ts clk irqs evs) := .single rfl

theorem steps_setReady :
    Steps (s.running op (.setReady :: rest) ps ts clk irqs evs)
      ({ s with ready := true }.running op rest ps ts clk irqs evs) := .single rfl

theorem steps_setSess (v : Sess) :
    Steps (s.running op (.setSess v :: rest) ps ts clk irqs evs)
      ({ s with sess := v }.running op rest ps ts clk irqs evs) := .single rfl

theorem steps_attemptEnd (a : Attempt) :
    Steps (s.running op (.attemptEnd a :: rest) ps ts clk irqs evs) (s.running op rest ps ts clk irqs evs) :=
  .single rfl

theorem steps_startAGuard :
    Steps (s.running op (.startAGuard :: rest) ps ts clk irqs evs) (s.running op rest ps ts clk irqs evs) :=
  .single rfl

theorem steps_zeroIrqs :
    Steps (s.running op (.zeroIrqs :: rest) ps ts clk irqs evs) (s.running op rest ps ts clk 0 evs) := .single rfl

theorem steps_yield :
    Steps (s.running op (.yield :: rest) ps ts clk irqs evs)
      (s.running op rest ps ts clk irqs (evs ++ [.yield])) :=
  .single (by simp [ctrlStep, State.running, microStep, State.emit, State.goTo])

theorem steps_cmd (c : AfeCmd) (v : AfeView) :
    Steps (s.running op (.cmd c :: rest) (.done v :: ps) ts clk irqs evs)
      (s.running op rest ps ts clk irqs (evs ++ [.cmd c])) :=
  .single (by simp [ctrlStep, State.running, microStep, transact, State.usePort, State.emit, State.goTo])

theorem steps_write (w : AfeWrite) (v : AfeView) :
    Steps (s.running op (.write w :: rest) (.done v :: ps) ts clk irqs evs)
      (s.running op rest ps ts clk irqs (evs ++ [.write w])) :=
  .single (by simp [ctrlStep, State.running, microStep, transact, State.usePort, State.emit, State.goTo])

theorem steps_fifoWrite (b : List Byte) (v : AfeView) :
    Steps (s.running op (.fifoWrite b :: rest) (.done v :: ps) ts clk irqs evs)
      (s.running op rest ps ts clk irqs (evs ++ [.fifoWrite b])) :=
  .single (by simp [ctrlStep, State.running, microStep, transact, State.usePort, State.emit, State.goTo])

/-- A step that makes the port transaction `t` and has no clean-up behind it: its failure ends the operation. -/
theorem steps_raise (e : Err) :
    Steps (s.running op (.raise e :: rest) ps ts clk irqs evs)
      (raiseErr e op rest (s.running op (.raise e :: rest) ps ts clk irqs evs)) := .single rfl

/-- RegModify of OP_CONTROL: two transactions (20 R57). -/
theorem steps_modify (u : OpcUpdate) (v w : AfeView) :
    Steps (s.running op (.modifyOpControl u :: rest) (.done v :: .done w :: ps) ts clk irqs evs)
      (s.running op rest ps ts clk irqs
        (evs ++ [.read (.opControl v.opControl), .write (.opControl (applyUpdate u v.opControl))])) := by
  refine .head rfl (.single ?_)
  simp [ctrlStep, State.running, microStep, transact, State.usePort, State.emit, State.goTo]

/-- A poll of the oscillator that is not ready. -/
theorem steps_pollOsc_wait (v : AfeView) (h : v.oscOk = false) :
    Steps (s.running op (.pollOsc :: rest) (.done v :: ps) ts clk irqs evs)
      (s.running op (.pollOsc :: rest) ps ts clk irqs (evs ++ [.read (.oscStatus false)])) :=
  .single (by simp [ctrlStep, State.running, microStep, transact, State.usePort, State.emit, State.goTo, h])

/-- A poll of the oscillator that is ready. -/
theorem steps_pollOsc_ready (v : AfeView) (h : v.oscOk = true) :
    Steps (s.running op (.pollOsc :: rest) (.done v :: ps) ts clk irqs evs)
      (s.running op rest ps ts clk irqs (evs ++ [.read (.oscStatus true)])) :=
  .single (by simp [ctrlStep, State.running, microStep, transact, State.usePort, State.emit, State.goTo, h])

/-- EnableOsc for any number of polls (40 R122). -/
theorem steps_pollOsc (polls : List AfeView) (o : AfeView) (hp : ∀ v ∈ polls, v.oscOk = false)
    (ho : o.oscOk = true) :
    Steps (s.running op (.pollOsc :: rest) (answered (polls ++ [o]) ++ ps) ts clk irqs evs)
      (s.running op rest ps ts clk irqs
        (evs ++ (polls.map (fun _ => .read (.oscStatus false)) ++ [.read (.oscStatus true)]))) := by
  induction polls generalizing evs with
  | nil => simpa [answered] using steps_pollOsc_ready o ho
  | cons v l ih =>
    have h1 := hp v (by simp)
    have h2 := ih (evs := evs ++ [.read (.oscStatus false)]) (fun q hq => hp q (by simp [hq]))
    refine (steps_pollOsc_wait v h1).trans ?_
    simpa [answered] using h2

/-- The reads of an IrqClear. -/
theorem steps_drains (vs : List AfeView) (i : Nat) :
    Steps (s.running op ((List.range' i vs.length).map .drainIrq ++ rest) (answered vs ++ ps) ts clk irqs evs)
      (s.running op rest ps ts clk irqs (evs ++ statusEvents i vs)) := by
  induction vs generalizing i evs with
  | nil => simpa [answered, statusEvents] using Steps.refl _
  | cons v l ih =>
    refine Steps.trans (Steps.single (t := s.running op ((List.range' (i + 1) l.length).map .drainIrq ++ rest)
      (answered l ++ ps) ts clk irqs (evs ++ [.read (.irqStatus i (irqStatusByte v i))])) ?_) ?_
    · simp [ctrlStep, State.running, microStep, transact, State.usePort, State.emit, State.goTo, answered,
        List.range'_succ]
    · have := ih (i + 1) (evs := evs ++ [.read (.irqStatus i (irqStatusByte v i))])
      simpa [statusEvents] using this

/-- IrqClear (60 R281). -/
theorem steps_irqClear (vs : List AfeView) (h : vs.length = nIrq s.params) :
    Steps (s.running op (irqClear s.params ++ rest) (answered vs ++ ps) ts clk irqs evs)
      (s.running op rest ps ts clk 0 (evs ++ statusEvents 0 vs)) := by
  have := steps_drains (s := s) (op := op) (rest := .zeroIrqs :: rest) (ps := ps) (ts := ts) (clk := clk)
    (irqs := irqs) (evs := evs) vs 0
  refine Steps.trans ?_ (steps_zeroIrqs (irqs := irqs))
  simpa [irqClear, List.range_eq_range', ← h] using this

/-- `t0 <- Now()`. -/
theorem steps_startTimer (w : Timed) (d : Nat) :
    Steps (s.running op (.startTimer w :: rest) ps (d :: ts) clk irqs evs)
      (s.running op (startTimed s.params (clk + d) w :: rest) ps ts (clk + d) irqs (evs ++ [.time (clk + d)])) :=
  .single (by simp [ctrlStep, State.running, microStep, readNow, State.readTime, State.goTo])

/-- IrqRefresh from register `i` on (60 R280). -/
theorem steps_refresh (vs : List AfeView) (i : Nat) (k : Poll) (hi : i + vs.length = nIrq s.params)
    (hv : vs ≠ []) :
    Steps (s.running op (.refresh i k :: rest) (answered vs ++ ps) ts clk irqs evs)
      (s.running op (.test k :: rest) ps ts clk (gather irqs i vs) (evs ++ statusEvents i vs)) := by
  induction vs generalizing i evs irqs with
  | nil => exact absurd rfl hv
  | cons v l ih =>
    cases l with
    | nil =>
      refine .single ?_
      simp only [List.length_cons, List.length_nil] at hi
      have : ¬ i + 1 < nIrq s.params := by omega
      simp [ctrlStep, State.running, microStep, transact, State.usePort, State.emit, State.goTo, answered,
        statusEvents, gather, this]
    | cons v' l' =>
      simp only [List.length_cons] at hi
      have hlt : i + 1 < nIrq s.params := by omega
      refine Steps.trans (Steps.single (t := s.running op (.refresh (i + 1) k :: rest)
        (answered (v' :: l') ++ ps) ts clk (orStatus irqs i (irqStatusByte v i))
        (evs ++ [.read (.irqStatus i (irqStatusByte v i))])) ?_) ?_
      · simp [ctrlStep, State.running, microStep, transact, State.usePort, State.emit, State.goTo, answered, hlt]
      · have := ih (i + 1) (evs := evs ++ [.read (.irqStatus i (irqStatusByte v i))])
          (irqs := orStatus irqs i (irqStatusByte v i)) (by simp only [List.length_cons]; omega) (by simp)
        rw [gather]
        simpa [statusEvents] using this

/-- A whole IrqRefresh. -/
theorem steps_refreshAll (vs : List AfeView) (k : Poll) (h : vs.length = nIrq s.params) :
    Steps (s.running op (.refresh 0 k :: rest) (answered vs ++ ps) ts clk irqs evs)
      (s.running op (.test k :: rest) ps ts clk (gather irqs 0 vs) (evs ++ statusEvents 0 vs)) := by
  refine steps_refresh vs 0 k (by omega) ?_
  rintro rfl
  cases hn : s.params.nIrq <;> simp [nIrq, hn, IrqCount.toNat] at h

/-- A loop with a deadline: any rounds that go on, then one more refresh (60 R283). `go` says what a round of the
loop does after its refresh. -/
theorem steps_loop (k : Poll) (ends : Word32 → Bool) (dl : Nat) (waits : List Round) (last : List AfeView)
    (go : ∀ {ps ts clk irqs evs} (d : Nat), ends irqs = false → clk + d < dl →
      Steps (s.running op (.test k :: rest) ps (d :: ts) clk irqs evs)
        (s.running op (.refresh 0 k :: rest) ps ts (clk + d) irqs (evs ++ [.time (clk + d), .yield])))
    (h : loopGoesOn s.params ends dl clk irqs waits = true) (hl : last.length = nIrq s.params) :
    Steps (s.running op (.refresh 0 k :: rest) (answered (loopViews waits ++ last) ++ ps) (loopTicks waits ++ ts)
        clk irqs evs)
      (s.running op (.test k :: rest) ps ts (loopClock clk waits) (gather (loopIrqs irqs waits) 0 last)
        (evs ++ (loopEvents clk waits ++ statusEvents 0 last))) := by
  induction waits generalizing clk irqs evs with
  | nil => simpa [loopViews, loopTicks, loopClock, loopIrqs, loopEvents] using steps_refreshAll last k hl
  | cons r l ih =>
    simp only [loopGoesOn, Bool.and_eq_true, beq_iff_eq, decide_eq_true_eq, Bool.not_eq_true'] at h
    obtain ⟨⟨⟨h1, h2⟩, h3⟩, h4⟩ := h
    have e : answered (loopViews (r :: l) ++ last) ++ ps = answered r.views ++ (answered (loopViews l ++ last) ++ ps) := by
      simp [answered, loopViews]
    have e2 : loopTicks (r :: l) ++ ts = r.tick :: (loopTicks l ++ ts) := by simp [loopTicks]
    rw [e, e2]
    refine (steps_refreshAll r.views k h1).trans ((go r.tick h2 h3).trans ?_)
    have := ih (evs := evs ++ statusEvents 0 r.views ++ [.time (clk + r.tick), .yield]) h4
    simpa [loopClock, loopIrqs, loopEvents] using this

/-- A round of IrqWait. -/
theorem steps_irqRound (n : IrqName) (dl d : Nat) (h : irqSet s.params irqs n = false) (hd : clk + d < dl) :
    Steps (s.running op (.test (.irq n dl) :: rest) ps (d :: ts) clk irqs evs)
      (s.running op (.refresh 0 (.irq n dl) :: rest) ps ts (clk + d) irqs (evs ++ [.time (clk + d), .yield])) := by
  refine .head (t := s.running op (.deadline (.irq n dl) :: rest) ps (d :: ts) clk irqs evs) ?_ ?_
  · simp [ctrlStep, State.running, microStep, testLoop, State.goTo, h]
  refine .head (t := s.running op (.yield :: .refresh 0 (.irq n dl) :: rest) ps ts (clk + d) irqs
    (evs ++ [.time (clk + d)])) ?_ ?_
  · have : ¬ clk + d ≥ dl := by omega
    simp [ctrlStep, State.running, microStep, readNow, testDeadline, pollDeadline, State.readTime, State.goTo, this]
  · rw [show evs ++ [.time (clk + d), .yield] = evs ++ [.time (clk + d)] ++ [.yield] by simp]
    exact steps_yield

/-- `decided` is a verdict other than "pending". -/
theorem decided_false_iff {p : Params} {kind : FrameKind} {w : Word32} :
    decided p kind w = false ↔ xcvVerdict p kind w = .pending := by
  simp only [decided, Bool.or_eq_false_iff, Bool.and_eq_false_iff, bne_eq_false_iff_eq]
  unfold xcvVerdict
  split <;> rename_i h1
  · simp [h1]
  split <;> rename_i h2
  · simp [h2]
  split <;> rename_i h3
  · simp [h3]
  split <;> rename_i h4
  · simp [h4]
  split <;> rename_i h5
  · simp [h5]
  split <;> rename_i h6
  · simp [h6]
  · simp only [not_and] at h5
    simp only [Bool.not_eq_true] at h1 h2 h3 h4 h5 h6
    by_cases hk : kind = .anticoll <;> simp [*]

/-- The transmit commands the statements write out are those of the meanings (44 R202). -/
theorem transmitCommand_eq (k : FrameKind) : transmitCommand k = txCommand k := by cases k <;> rfl

/-- A round of exchange step S6. -/
theorem steps_xcvRound (x : Xcv) (dl d : Nat) (h : decided s.params x.kind irqs = false) (hd : clk + d < dl) :
    Steps (s.running op (.test (.xcv x dl) :: rest) ps (d :: ts) clk irqs evs)
      (s.running op (.refresh 0 (.xcv x dl) :: rest) ps ts (clk + d) irqs (evs ++ [.time (clk + d), .yield])) := by
  have hv : xcvVerdict s.params x.kind irqs = .pending := decided_false_iff.mp h
  refine .head (t := s.running op (.deadline (.xcv x dl) :: rest) ps (d :: ts) clk irqs evs) ?_ ?_
  · simp [ctrlStep, State.running, microStep, testLoop, State.goTo, hv]
  refine .head (t := s.running op (.yield :: .refresh 0 (.xcv x dl) :: rest) ps ts (clk + d) irqs
    (evs ++ [.time (clk + d)])) ?_ ?_
  · have : ¬ clk + d ≥ dl := by omega
    simp [ctrlStep, State.running, microStep, readNow, testDeadline, pollDeadline, State.readTime, State.goTo, this]
  · rw [show evs ++ [.time (clk + d), .yield] = evs ++ [.time (clk + d)] ++ [.yield] by simp]
    exact steps_yield

/-- A round of FIELD_ON's loop with a deadline. -/
theorem steps_fieldRound (dl d : Nat) (h : fieldSeen s.params irqs = false) (hd : clk + d < dl) :
    Steps (s.running op (.test (.field (some dl)) :: rest) ps (d :: ts) clk irqs evs)
      (s.running op (.refresh 0 (.field (some dl)) :: rest) ps ts (clk + d) irqs
        (evs ++ [.time (clk + d), .yield])) := by
  simp only [fieldSeen, Bool.or_eq_false_iff] at h
  refine .head (t := s.running op (.deadline (.field (some dl)) :: rest) ps (d :: ts) clk irqs evs) ?_ ?_
  · simp [ctrlStep, State.running, microStep, testLoop, State.goTo, h]
  refine .head (t := s.running op (.yield :: .refresh 0 (.field (some dl)) :: rest) ps ts (clk + d) irqs
    (evs ++ [.time (clk + d)])) ?_ ?_
  · have : ¬ clk + d ≥ dl := by omega
    simp [ctrlStep, State.running, microStep, readNow, testDeadline, pollDeadline, State.readTime, State.goTo, this]
  · rw [show evs ++ [.time (clk + d), .yield] = evs ++ [.time (clk + d)] ++ [.yield] by simp]
    exact steps_yield

/-- FIELD_ON's loop when T_FIELD_ON is unset. -/
theorem steps_freeLoop (waits : List Round) (last : List AfeView)
    (h : freeLoopGoesOn s.params (fieldSeen s.params) irqs waits = true) (hl : last.length = nIrq s.params) :
    Steps (s.running op (.refresh 0 (.field none) :: rest) (answered (loopViews waits ++ last) ++ ps) ts clk irqs evs)
      (s.running op (.test (.field none) :: rest) ps ts clk (gather (loopIrqs irqs waits) 0 last)
        (evs ++ (freeLoopEvents waits ++ statusEvents 0 last))) := by
  induction waits generalizing irqs evs with
  | nil => simpa [loopViews, loopIrqs, freeLoopEvents] using steps_refreshAll last (.field none) hl
  | cons r l ih =>
    simp only [freeLoopGoesOn, Bool.and_eq_true, beq_iff_eq, Bool.not_eq_true', fieldSeen,
      Bool.or_eq_false_iff] at h
    obtain ⟨⟨h1, h2⟩, h4⟩ := h
    have e : answered (loopViews (r :: l) ++ last) ++ ps = answered r.views ++ (answered (loopViews l ++ last) ++ ps) := by
      simp [answered, loopViews]
    rw [e]
    refine (steps_refreshAll r.views _ h1).trans ?_
    refine .head (t := s.running op (.yield :: .refresh 0 (.field none) :: rest) (answered (loopViews l ++ last) ++ ps)
      ts clk (gather irqs 0 r.views) (evs ++ statusEvents 0 r.views)) ?_ (steps_yield.trans ?_)
    · simp [ctrlStep, State.running, microStep, testLoop, State.goTo, h2]
    have := ih (evs := evs ++ statusEvents 0 r.views ++ [.yield]) h4
    simpa [loopIrqs, freeLoopEvents] using this

/-- IrqWait(n, T_DEFAULT) that sees its bit in time (60 R283). -/
theorem steps_irqWait (n : IrqName) (d : Nat) (waits : List Round) (last : List AfeView)
    (h : loopGoesOn s.params (fun w => irqSet s.params w n) (clk + d + tDefault s.params) (clk + d) irqs waits = true)
    (hl : last.length = nIrq s.params)
    (hb : irqSet s.params (gather (loopIrqs irqs waits) 0 last) n = true) :
    Steps (s.running op (irqWait s.params n ++ rest) (answered (loopViews waits ++ last) ++ ps)
        (d :: (loopTicks waits ++ ts)) clk irqs evs)
      (s.running op rest ps ts (loopClock (clk + d) waits) (gather (loopIrqs irqs waits) 0 last)
        (evs ++ ([.time (clk + d)] ++ loopEvents (clk + d) waits ++ statusEvents 0 last))) := by
  refine (steps_startTimer _ d).trans ?_
  have := steps_loop (s := s) (op := op) (rest := rest) (ps := ps) (ts := ts) (clk := clk + d) (irqs := irqs)
    (evs := evs ++ [.time (clk + d)]) (.irq n (clk + d + tDefault s.params)) (fun w => irqSet s.params w n)
    (clk + d + tDefault s.params) waits last (fun d' h1 h2 => steps_irqRound n _ d' h1 h2) h hl
  refine this.trans (.single ?_)
  simp [ctrlStep, State.running, microStep, testLoop, State.goTo, hb]

/-- CmdWait(c) that sees DCT in time (60 R284). -/
theorem steps_cmdWait (c : AfeCmd) (m : CmdScript) (h : m.fits s.params clk = true) :
    Steps (s.running op (cmdWait s.params c ++ rest) (answered m.views ++ ps) (m.ticks ++ ts) clk irqs evs)
      (s.running op rest ps ts (m.clockAfter clk) m.irqs (evs ++ m.events c clk)) := by
  simp only [CmdScript.fits, Bool.and_eq_true, beq_iff_eq] at h
  obtain ⟨⟨⟨h1, h2⟩, h3⟩, h4⟩ := h
  have e1 : cmdWait s.params c ++ rest = irqClear s.params ++ (.cmd c :: (irqWait s.params .dct ++ rest)) := by
    simp [cmdWait]
  have e2 : answered m.views ++ ps =
      answered m.drain ++ (.done m.send :: (answered (loopViews m.waits ++ m.last) ++ ps)) := by
    simp [answered, CmdScript.views]
  rw [e1, e2]
  refine (steps_irqClear m.drain h1).trans ((steps_cmd c m.send).trans ?_)
  have := steps_irqWait (s := s) (op := op) (rest := rest) (ps := ps) (ts := ts) (clk := clk) (irqs := 0)
    (evs := evs ++ statusEvents 0 m.drain ++ [.cmd c]) .dct m.tick m.waits m.last h3 h2 h4
  simpa [CmdScript.ticks, CmdScript.events, CmdScript.clockAfter, CmdScript.irqs] using this

/-! ## The exchange (44 R200) -/

/-- The event of a step that is one plain transaction. -/
def Micro.plainEvent : Micro → Option Event
  | .cmd c => some (.cmd c)
  | .write w => some (.write w)
  | .fifoWrite b => some (.fifoWrite b)
  | _ => none

/-- Plain transactions, one answer each (20 R61). -/
theorem steps_plain (ms : List Micro) (es : List Event) (vs : List AfeView)
    (he : ms.map Micro.plainEvent = es.map some) (hv : vs.length = es.length) :
    Steps (s.running op (ms ++ rest) (answered vs ++ ps) ts clk irqs evs)
      (s.running op rest ps ts clk irqs (evs ++ es)) := by
  induction ms generalizing es vs evs with
  | nil =>
    cases es with
    | nil => cases vs with
      | nil => simpa [answered] using Steps.refl _
      | cons v vs => simp at hv
    | cons e es => simp at he
  | cons m ms ih =>
    cases es with
    | nil => simp at he
    | cons e es =>
      cases vs with
      | nil => simp at hv
      | cons v vs =>
        simp only [List.map_cons, List.cons.injEq] at he
        obtain ⟨hm, hms⟩ := he
        have h2 := ih (evs := evs ++ [e]) es vs hms (by simpa using hv)
        refine Steps.trans (t := s.running op (ms ++ rest) (answered vs ++ ps) ts clk irqs (evs ++ [e])) ?_
          (by simpa using h2)
        cases m <;> simp only [Micro.plainEvent, reduceCtorEq, Option.some.injEq] at hm
        · subst hm; exact steps_cmd _ v
        · subst hm; exact steps_write _ v
        · subst hm; exact steps_fifoWrite _ v

/-- Exchange steps S1 to S4 (44 R201 to R207). -/
def setupSteps (p : Params) (x : Xcv) (timeout : Nat) : List Micro :=
  [.cmd .stop, .cmd .resetRxGain, .write (.frameConf (x.kind != .standard) (x.kind == .anticoll))] ++
    xcvPayload x ++ [.write (.rxConf (!(x.kind == .anticoll)) (!(x.kind == .anticoll))),
      .write (.nrt (nrtDeadline p timeout))]

/-- The steps S1 to S4 of an exchange are plain transactions. -/
theorem setup_plain (p : Params) (x : Xcv) (timeout : Nat) :
    (setupSteps p x timeout).map Micro.plainEvent = (setupEvents p x timeout).map some := by
  cases h : x.kind <;> simp [setupSteps, setupEvents, xcvPayload, Micro.plainEvent, nrtDeadline, ceil8, h] <;> decide

/-- An exchange is its setup, the clear, the transmit command, the wait for TXE, and step S6. -/
theorem exchange_eq (p : Params) (x : Xcv) (timeout : Nat) (rest : List Micro) :
    exchange p x timeout ++ rest = setupSteps p x timeout ++
      (irqClear p ++ (.cmd (txCommand x.kind) :: (irqWait p .txe ++ (.startTimer (.xcv x) :: rest)))) := by
  simp [exchange, setupSteps]

/-- Exchange steps S1 to S6 up to the tests that end S6 (44 R201 to R209). -/
theorem steps_exchange (x : Xcv) (timeout : Nat) (sc : XcvScript) (h : sc.fits s.params x timeout clk = true) :
    Steps (s.running op (exchange s.params x timeout ++ rest) (answered sc.views ++ ps) (sc.ticks ++ ts) clk irqs evs)
      (s.running op (.test (.xcv x (sc.clockRx clk + tDefault s.params)) :: rest) ps ts (sc.clockAfter clk) sc.irqs
        (evs ++ sc.events s.params x timeout clk)) := by
  simp only [XcvScript.fits, Bool.and_eq_true, beq_iff_eq] at h
  obtain ⟨⟨⟨⟨⟨⟨h1, h2⟩, h3⟩, h4⟩, h5⟩, h6⟩, h7⟩ := h
  have e2 : answered sc.views ++ ps = answered sc.setup ++ (answered sc.drain ++ (.done sc.send ::
      (answered (loopViews sc.txWaits ++ sc.txLast) ++ (answered (loopViews sc.rxWaits ++ sc.rxLast) ++ ps)))) := by
    simp [answered, XcvScript.views]
  have e3 : sc.ticks ++ ts = sc.tick0 :: (loopTicks sc.txWaits ++ (sc.tick1 :: (loopTicks sc.rxWaits ++ ts))) := by
    simp [XcvScript.ticks]
  rw [exchange_eq, e2, e3]
  refine (steps_plain _ _ sc.setup (setup_plain s.params x timeout) h1).trans ?_
  refine (steps_irqClear sc.drain h2).trans ((steps_cmd (txCommand x.kind) sc.send).trans ?_)
  refine (steps_irqWait .txe sc.tick0 sc.txWaits sc.txLast h5 h3 h6).trans ?_
  refine (steps_startTimer _ sc.tick1).trans ?_
  have := steps_loop (s := s) (op := op) (rest := rest) (ps := ps) (ts := ts) (clk := sc.clockRx clk)
    (irqs := sc.txIrqs) (evs := evs ++ (setupEvents s.params x timeout ++ statusEvents 0 sc.drain ++
      [.cmd (txCommand x.kind), .time (sc.clockTx clk)] ++ loopEvents (sc.clockTx clk) sc.txWaits ++
      statusEvents 0 sc.txLast ++ [.time (sc.clockRx clk)]))
    (.xcv x (sc.clockRx clk + tDefault s.params)) (decided s.params x.kind)
    (sc.clockRx clk + tDefault s.params) sc.rxWaits sc.rxLast (fun d' h1 h2 => steps_xcvRound x _ d' h1 h2) h7 h4
  simpa [startTimed, XcvScript.irqs, XcvScript.events, XcvScript.txIrqs, XcvScript.clockTx, XcvScript.clockRx,
    XcvScript.clockAfter, transmitCommand_eq] using this

/-- `received` is the success of S6. -/
theorem received_verdict {p : Params} {kind : FrameKind} {w : Word32} (h : received p kind w = true) :
    xcvVerdict p kind w = .success := by
  simp only [received, Bool.and_eq_true, Bool.not_eq_true', Bool.or_eq_true, beq_iff_eq] at h
  obtain ⟨⟨⟨⟨⟨h1, h2⟩, h3⟩, h4⟩, h5⟩, h6⟩ := h
  rcases h6 with h6 | h6 <;> simp [xcvVerdict, *]

/-- `clean` is the absence of a FIFO fault. -/
theorem clean_fifoFault {r : RxScript} (h : r.clean = true) : fifoFault r.fifoB.fifoB = none := by
  simp only [RxScript.clean, Bool.and_eq_true, Bool.not_eq_true'] at h
  simp [fifoFault, h]

/-- Exchange steps S7 to S10 of an accepted response, up to its FifoRead of `n` bytes. -/
theorem steps_receive (x : Xcv) (dl : Nat) (r : RxScript) (n : Nat)
    (hv : xcvVerdict s.params x.kind irqs = .success) (hf : fifoFault r.fifoB.fifoB = none)
    (hd : ∀ u : State, decodeChecks op rest x r.count u = u.goTo op (.readFifo x n :: rest)) :
    Steps (s.running op (.test (.xcv x dl) :: rest) (answered r.views ++ ps) ts clk irqs evs)
      (decodeRead op rest x (fifoBytes r.fifo n)
        (s.running op (.readFifo x n :: rest) ps ts clk irqs (evs ++ r.events n))) := by
  have e2 : answered r.views ++ ps =
      .done r.stop :: .done r.fifoB :: .done r.fifoA :: .done r.fifo :: ps := by
    simp [answered, RxScript.views]
  rw [e2]
  have hd' : ∀ u : State, decodeChecks op rest x (receivedBytes r.fifoA.countLo r.fifoB.fifoB.countHi) u =
      u.goTo op (.readFifo x n :: rest) := hd
  refine .head (t := s.running op (.write .nrtCtrlStop :: .readFifoB x :: rest)
    (.done r.stop :: .done r.fifoB :: .done r.fifoA :: .done r.fifo :: ps) ts clk irqs evs) ?_ ?_
  · simp [ctrlStep, State.running, microStep, testLoop, hv, State.goTo]
  refine (steps_write .nrtCtrlStop r.stop).trans ?_
  refine .head (t := s.running op (.readFifoA x r.fifoB.fifoB.countHi :: rest)
    (.done r.fifoA :: .done r.fifo :: ps) ts clk irqs
    (evs ++ [.write .nrtCtrlStop] ++ [.read (.fifoStatusB r.fifoB.fifoB)])) ?_ ?_
  · simp [ctrlStep, State.running, microStep, transact, State.usePort, State.emit, State.goTo, hf]
  refine .head (t := s.running op (.readFifo x n :: rest) (.done r.fifo :: ps) ts clk irqs
    (evs ++ [.write .nrtCtrlStop] ++ [.read (.fifoStatusB r.fifoB.fifoB)] ++
      [.read (.fifoStatusA r.fifoA.countLo)])) ?_ (.single ?_)
  · simp [ctrlStep, State.running, microStep, transact, State.usePort, State.emit, hd', State.goTo]
  · simp [ctrlStep, State.running, microStep, transact, State.usePort, State.emit, RxScript.events]

end

end Sys2Proof.Machine
end

