-- ==== Sys2Proof/Laws/Issue.lean ====
section
/-! SUPPORT. Everything the issue of an operation can do, said once for all eighteen. -/

namespace Sys2Proof.Machine

/-- The step list of each operation. -/
def stepsOf (i : Instr) (s : State) : List Micro :=
  match i with
  | .init => initSteps s.params
  | .modeOn => modeOnSteps s.params
  | .modeOff => modeOffSteps
  | .fieldOn => fieldOnSteps s.params
  | .fieldOff => fieldOffSteps
  | .measAmp => measureSteps s.params .measAmp
  | .measPhase => measureSteps s.params .measPhase
  | .measCap => measureSteps s.params .measCap
  | .calCap => calCapSteps
  | .waitForCard => waitForCardSteps s.params s.mode s.cfg
  | .startA => startASteps s.params
  | .sessionEnd => sessionEndSteps
  | .xcvReqa => exchange s.params (reqaXcv s) s.params.tShort
  | .xcvWupa => exchange s.params (wupaXcv s) s.params.tShort
  | .xcvAnticoll b => exchange s.params (anticollXcv b s) s.params.tShort
  | .xcvStandard t => exchange s.params (standardXcv s) t.toNat
  | .depNew => depNewSteps s.params
  | .depXcv => depXcvSteps s

/-- The entry of a method as the statements spell it, read by the fields of the meanings (30 R95). -/
theorem entryOf_methodCfg (cfg : List Byte) (m : Method) :
    (methodCfg cfg m).enabled = (entryOf cfg m).enabled ∧
      (methodCfg cfg m).refKind = refKindOf (BitVec.ofNat 2 (entryOf cfg m).refKind) ∧
      (methodCfg cfg m).includeIrq = (entryOf cfg m).includeIrq ∧ (methodCfg cfg m).delta = (entryOf cfg m).delta ∧
      (methodCfg cfg m).manualRef = (entryOf cfg m).manualRef ∧ (methodCfg cfg m).weight = (entryOf cfg m).weight := by
  have h : ∀ b : Byte, b.extractLsb' 1 2 = BitVec.ofNat 2 (b.toNat / 2 % 4) := by decide
  cases m <;>
    simp [methodCfg, entryOf, MethodEntry.enabled, MethodEntry.refKind, MethodEntry.includeIrq, methodIndex, cfgByte, h]

/-- A method's entry is well formed in both spellings. -/
theorem methodWellFormed_eq (cfg : List Byte) (m : Method) :
    methodWellFormed (methodCfg cfg m) = (entryOf cfg m).wellFormed := by
  have h : ∀ b : Byte, ((b.extractLsb' 4 4 == 0) && !(b.getLsbD 0 && refKindOf (b.extractLsb' 1 2) == .reserved)) =
      (decide (b.toNat < 16) && !(b.getLsbD 0 && b.toNat / 2 % 4 == 3)) := by decide
  cases m <;> exact h _

/-- The image is well formed in both spellings (30 R95, R102). -/
theorem imageWellFormed_eq (p : Params) (cfg : List Byte) : imageWellFormed p cfg = cfgWellFormed p cfg := by
  have h1 : ∀ b : Byte, (b.extractLsb' 5 3 == 0) = decide (b.toNat < 32) := by decide
  have h2 : ∀ b : Byte, (b.extractLsb' 0 4).toNat = b.toNat % 16 := by decide
  simp only [imageWellFormed, cfgWellFormed, cfgTopBits, allMethods, List.all_cons, List.all_nil, methodWellFormed_eq,
    periodKnown, cfgIndex, cfgSlow, cfgByte, h1, h2, Bool.and_true, Bool.and_assoc]

/-- The legality of a meaning is the matrix of 60 R290. -/
theorem legal_eq_permitted (i : Instr) (s : State) : legal i s = permitted i s := by
  cases i <;>
    simp only [legal, permitted, matrixRow, imageWellFormed_eq, noCondition, anyMode, outsideSession, outsideSessionOn, inSessionA,
      inSessionDep, latchesFit, ceil8] <;>
    cases s.sess <;> cases s.mode <;> cases s.ready <;> cases s.fatal <;> simp [List.contains, List.elem] <;> grind

/-- Every meaning is the issue of its step list. -/
theorem exec_eq_issue (i : Instr) (s : State) : exec i s = issue i (stepsOf i s) s := by cases i <;> rfl

/-- Everything `exec` can do while SEQ is Idle. -/
theorem exec_idle {i : Instr} {s : State} (hs : s.seq = .idle) :
    exec i s = .next (if permitted i s then runToStop (s.goTo i (stepsOf i s)) else refuse s) := by
  rw [exec_eq_issue, issue, hs, legal_eq_permitted]

/-- `exec` of a permitted operation. -/
theorem exec_permitted {i : Instr} {s : State} (hs : s.seq = .idle) (hp : permitted i s = true) :
    exec i s = .next (runToStop (s.goTo i (stepsOf i s))) := by simp [exec_idle hs, hp]

/-- `exec` of a permitted operation, from a chain of its steps that ends Idle. -/
theorem exec_of_steps {s t : State} {i : Instr} (hs : s.seq = .idle) (hp : permitted i s = true)
    (h : Steps (s.goTo i (stepsOf i s)) t) (ht : t.seq = .idle) : exec i s = .next t := by
  rw [exec_permitted hs hp, runToStop_idle h ht]

/-- The exchange of each XCV operation is all its steps. -/
theorem stepsOf_hostExchange {i : Instr} {s : State} {x : Xcv} {timeout : Nat}
    (h : hostExchange i s = some (x, timeout)) :
    stepsOf i s = exchange s.params x timeout ++ [] ∧ x.dest = .host ∧ x.cap = s.rxcap := by
  cases i <;> simp only [hostExchange, Option.some.injEq, Prod.mk.injEq, reduceCtorEq] at h <;>
    obtain ⟨rfl, rfl⟩ := h <;> simp [stepsOf, reqaXcv, wupaXcv, anticollXcv, standardXcv]

end Sys2Proof.Machine
end

