-- ==== Sys2Proof/Laws/Operations.lean ====
section
/-! SUPPORT. What the step lists of the operations do with the answers a script names, each said once as a chain of
steps. -/

namespace Sys2Proof.Machine

section
variable {s : State} {op : Instr} {rest : List Micro} {ps : List PortAnswer} {ts : List Nat} {clk : Nat}
  {irqs : Word32} {evs : List Event}

/-- An operation with no step left returns 0. -/
theorem steps_end : Steps (s.running op [] ps ts clk irqs evs) (endOk 0 none (s.running op [] ps ts clk irqs evs)) :=
  .single rfl

/-- MODE_ON steps S1 to S4 (41 R130). -/
theorem steps_modeOn (m : ModeOnScript) (h : m.fits = true) :
    Steps (s.running op (modeOnSteps s.params ++ rest) (answered m.views ++ ps) ts clk irqs evs)
      ({ s with mode := .on }.running op rest ps ts clk irqs (evs ++ m.events s.params)) := by
  simp only [ModeOnScript.fits, Bool.and_eq_true, List.all_eq_true, Bool.not_eq_true'] at h
  have e : answered m.views ++ ps = .done m.enWrite :: (answered (m.polls ++ [m.ready]) ++
      (.done m.opcRead :: .done m.opcWrite :: .done m.driver :: ps)) := by simp [answered, ModeOnScript.views]
  rw [e]
  simp only [modeOnSteps, enableOsc, List.cons_append, List.nil_append]
  refine (steps_setMode _).trans ((steps_write _ _).trans ((steps_pollOsc _ _ h.1 h.2).trans
    ((steps_modify _ _ _).trans ?_)))
  have := steps_write (s := { s with mode := .on }) (op := op) (rest := rest) (ps := ps) (ts := ts) (clk := clk)
    (irqs := irqs)
    (evs := evs ++ [.write (.opControl { en := true })] ++
      (m.polls.map (fun _ => .read (.oscStatus false)) ++ [.read (.oscStatus true)]) ++
      [.read (.opControl m.opcRead.opControl), .write (.opControl (applyUpdate .efdAuto m.opcRead.opControl))])
    (.txDriver s.params.dResNominal) m.driver
  simpa [ModeOnScript.events, applyUpdate] using this

/-- MODE_OFF steps S1 to S3 (41 R132). -/
theorem steps_modeOff (v w : AfeView) :
    Steps (s.running op (modeOffSteps ++ rest) (answered [v, w] ++ ps) ts clk irqs evs)
      (State.running { s with mode := .off } op rest ps ts clk irqs
        (evs ++ ([.cmd .stop, .write (.opControl {})] : List Event))) := by
  refine (steps_setMode _).trans ((steps_cmd _ v).trans ?_)
  have := steps_write (s := { s with mode := .off }) (op := op) (rest := rest) (ps := ps) (ts := ts) (clk := clk)
    (irqs := irqs) (evs := evs ++ [.cmd .stop]) (.opControl {}) w
  simpa using this

/-- FIELD_ON is its steps S1 to S6, its loop, and S8. -/
theorem fieldOnSteps_append (p : Params) (rest : List Micro) :
    fieldOnSteps p ++ rest = [.write (.modulationOok p.amDepth), .write .bitRate106, .write (.swGuard 0)] ++
      irqClear p ++ [.cmd .initialRfCa] ++ fieldLoop p ++ (.modifyOpControl .txRxOn :: rest) := by
  simp [fieldOnSteps]

/-- FIELD_ON up to the tests after its last refresh (41 R134). -/
theorem steps_fieldOn (f : FieldOnScript) (h : f.fits s.params clk = true) :
    Steps (s.running op ([.write (.modulationOok s.params.amDepth), .write .bitRate106, .write (.swGuard 0)] ++
        irqClear s.params ++ [.cmd .initialRfCa] ++ fieldLoop s.params ++ rest) (answered f.views ++ ps)
        (f.ticks s.params ++ ts) clk irqs evs)
      (s.running op (.test (.field (s.params.tFieldOn.map (clk + f.tick + ·))) :: rest) ps ts
        (f.clockAfter s.params clk) f.irqs (evs ++ f.events s.params clk)) := by
  simp only [FieldOnScript.fits, Bool.and_eq_true, beq_iff_eq] at h
  obtain ⟨⟨⟨h1, h2⟩, h3⟩, h4⟩ := h
  have e : answered f.views ++ ps = answered f.setup ++ (answered f.drain ++ (.done f.send ::
      (answered (loopViews f.waits ++ f.last) ++ ps))) := by simp [answered, FieldOnScript.views]
  rw [e]
  simp only [List.append_assoc]
  refine (steps_plain _ [.write (.modulationOok s.params.amDepth), .write .bitRate106, .write (.swGuard 0)] f.setup
    rfl (by simp [h1])).trans ?_
  refine (steps_irqClear f.drain h2).trans ((steps_cmd _ f.send).trans ?_)
  cases ht : s.params.tFieldOn with
  | none =>
    simp only [ht] at h4
    have := steps_freeLoop (s := s) (op := op) (rest := rest) (ps := ps) (ts := ts) (clk := clk) (irqs := 0)
      (evs := evs ++ [.write (.modulationOok s.params.amDepth), .write .bitRate106, .write (.swGuard 0)] ++
        statusEvents 0 f.drain ++ [.cmd .initialRfCa]) f.waits f.last h4 h3
    simpa [fieldLoop, ht, FieldOnScript.ticks, FieldOnScript.clockAfter, FieldOnScript.events,
      FieldOnScript.irqs] using this
  | some d =>
    simp only [ht] at h4
    simp only [fieldLoop, ht, FieldOnScript.ticks, List.cons_append, List.nil_append]
    refine (steps_startTimer _ f.tick).trans ?_
    have := steps_loop (s := s) (op := op) (rest := rest) (ps := ps) (ts := ts) (clk := clk + f.tick) (irqs := 0)
      (evs := evs ++ [.write (.modulationOok s.params.amDepth), .write .bitRate106, .write (.swGuard 0)] ++
        statusEvents 0 f.drain ++ [.cmd .initialRfCa] ++ [.time (clk + f.tick)])
      (.field (some (clk + f.tick + d))) (fieldSeen s.params) (clk + f.tick + d) f.waits f.last
      (fun d' a b => steps_fieldRound _ d' a b) h4 h3
    simpa [startTimed, ht, FieldOnScript.ticks, FieldOnScript.clockAfter, FieldOnScript.events,
      FieldOnScript.irqs] using this

/-- FIELD_ON step S8, when the last refresh shows CAT and not CAC. -/
theorem steps_fieldDone (dl : Option Nat) (v w : AfeView) (h1 : irqSet s.params irqs .cac = false)
    (h2 : irqSet s.params irqs .cat = true) :
    Steps (s.running op (.test (.field dl) :: .modifyOpControl .txRxOn :: rest) (answered [v, w] ++ ps) ts clk irqs
        evs)
      (s.running op rest ps ts clk irqs
        (evs ++ [.read (.opControl v.opControl), .write (fieldOnWrite v)])) := by
  refine .head (t := s.running op (.modifyOpControl .txRxOn :: rest) (answered [v, w] ++ ps) ts clk irqs evs) ?_
    (steps_modify _ v w)
  simp [ctrlStep, State.running, microStep, testLoop, State.goTo, h1, h2]

/-- `Delay` with any number of early timer reads (60 R285). -/
theorem steps_delay (early : List Nat) (dl late : Nat) (h : delayGoesOn dl clk early = true)
    (h2 : dl ≤ delayClock clk early + late) :
    Steps (s.running op (.delayUntil dl :: rest) ps (early ++ late :: ts) clk irqs evs)
      (s.running op rest ps ts (delayClock clk early + late) irqs
        (evs ++ delayEvents clk early ++ [.time (delayClock clk early + late)])) := by
  induction early generalizing clk evs with
  | nil =>
    simp only [delayClock] at h2
    refine .single ?_
    simp [ctrlStep, State.running, microStep, readNow, State.readTime, State.goTo, delayClock, delayEvents, h2]
  | cons d l ih =>
    simp only [delayGoesOn, Bool.and_eq_true, decide_eq_true_eq] at h
    have hn : ¬ dl ≤ clk + d := by omega
    refine .head (t := s.running op (.yield :: .delayUntil dl :: rest) ps (l ++ late :: ts) (clk + d) irqs
      (evs ++ [.time (clk + d)])) ?_ (steps_yield.trans ?_)
    · simp [ctrlStep, State.running, microStep, readNow, State.readTime, State.goTo, hn]
    have := ih (clk := clk + d) (evs := evs ++ [.time (clk + d)] ++ [.yield]) h.2 h2
    simpa [delayClock, delayEvents] using this

/-- The first half of SESSION_END, however it goes (44 R196). -/
theorem steps_fieldOffHalf (a : FieldOffHalf) :
    Steps (s.running op (fieldOffSteps ++ [.attemptEnd .fieldOff] ++ rest) (a.answers ++ ps) ts clk irqs evs)
      (s.running op rest ps ts clk irqs (evs ++ a.events)) := by
  cases a with
  | readFails e =>
    refine .single ?_
    simp [ctrlStep, State.running, fieldOffSteps, microStep, transact, FieldOffHalf.answers, FieldOffHalf.events,
      raiseErr, unwind, attemptLog, State.goTo, State.emit, State.usePort]
  | writeFails v e =>
    refine .head rfl (.single ?_)
    simp [ctrlStep, State.running, microStep, transact, FieldOffHalf.events, raiseErr, unwind, attemptLog,
      State.goTo, State.emit, State.usePort, applyUpdate, fieldOffWrite]
  | completes v w => exact (steps_modify _ v w).trans (steps_attemptEnd _)

/-- The second half of SESSION_END and path F of START_A, however they go (44 R192, R196). -/
theorem steps_modeOffHalf (b : ModeOffHalf) :
    Steps (s.running op (modeOffSteps ++ [.attemptEnd .modeOff] ++ rest) (b.answers ++ ps) ts clk irqs evs)
      (State.running { s with mode := .off } op rest ps ts clk irqs (evs ++ b.events)) := by
  cases b with
  | stopFails e =>
    refine (steps_setMode _).trans (.single ?_)
    simp [ctrlStep, State.running, microStep, transact, ModeOffHalf.answers, ModeOffHalf.events, raiseErr, unwind,
      attemptLog, State.goTo, State.emit, State.usePort]
  | writeFails v e =>
    refine (steps_setMode _).trans ((steps_cmd _ v).trans (.single ?_))
    simp [ctrlStep, State.running, microStep, transact, ModeOffHalf.events, raiseErr, unwind, attemptLog, State.goTo,
      State.emit, State.usePort]
  | completes v w =>
    have := (steps_modeOff (s := s) (op := op) (rest := .attemptEnd .modeOff :: rest) (ps := ps) (ts := ts)
      (clk := clk) (irqs := irqs) (evs := evs) v w).trans (steps_attemptEnd _)
    simpa [ModeOffHalf.answers, ModeOffHalf.events, answered] using this

/-- The pending rounds of CAL_CAP step S4 (42 R156). -/
theorem steps_calRounds (rounds : List CalRound) (dl : Nat) (h : calGoesOn dl clk rounds = true) :
    Steps (s.running op (.pollCal dl :: rest) (answered (rounds.map CalRound.view) ++ ps)
        (rounds.map CalRound.tick ++ ts) clk irqs evs)
      (s.running op (.pollCal dl :: rest) ps ts (calClock clk rounds) irqs (evs ++ calEvents clk rounds)) := by
  induction rounds generalizing clk evs with
  | nil => simpa [answered, calClock, calEvents] using Steps.refl _
  | cons r l ih =>
    simp only [calGoesOn, Bool.and_eq_true, Bool.not_eq_true', decide_eq_true_eq] at h
    obtain ⟨⟨⟨a, b⟩, c⟩, d⟩ := h
    have hn : ¬ clk + r.tick ≥ dl := by omega
    refine .head (t := s.running op (.calDeadline dl :: rest) (answered (l.map CalRound.view) ++ ps)
      (r.tick :: (l.map CalRound.tick ++ ts)) clk irqs (evs ++ [.read (.capCalResult r.view.capCal)])) ?_ ?_
    · simp [ctrlStep, State.running, microStep, transact, State.usePort, State.emit, answered, calTests, a, b,
        State.goTo]
    refine .head (t := s.running op (.yield :: .pollCal dl :: rest) (answered (l.map CalRound.view) ++ ps)
      (l.map CalRound.tick ++ ts) (clk + r.tick) irqs
      (evs ++ [.read (.capCalResult r.view.capCal)] ++ [.time (clk + r.tick)])) ?_ ?_
    · simp [ctrlStep, State.running, microStep, readNow, State.readTime, State.goTo, hn]
    refine steps_yield.trans ?_
    have := ih (evs := evs ++ [.read (.capCalResult r.view.capCal)] ++ [.time (clk + r.tick)] ++ [.yield]) d
    simpa [calClock, calEvents] using this

/-- An exchange whose response passes the length checks, up to its decode (44 R200 to R216). -/
theorem steps_exchange_receive (x : Xcv) (timeout : Nat) (sc : XcvScript) (r : RxScript) (n : Nat)
    (h : sc.fits s.params x timeout clk = true) (hv : received s.params x.kind sc.irqs = true) (hf : r.clean = true)
    (hd : ∀ u : State, decodeChecks op rest x r.count u = u.goTo op (.readFifo x n :: rest)) :
    Steps (s.running op (exchange s.params x timeout ++ rest) (answered (sc.views ++ r.views) ++ ps) (sc.ticks ++ ts)
        clk irqs evs)
      (decodeRead op rest x (fifoBytes r.fifo n)
        (s.running op (.readFifo x n :: rest) ps ts (sc.clockAfter clk) sc.irqs
          (evs ++ sc.events s.params x timeout clk ++ r.events n))) := by
  have e : answered (sc.views ++ r.views) ++ ps = answered sc.views ++ (answered r.views ++ ps) := by simp [answered]
  rw [e]
  exact (steps_exchange x timeout sc h).trans (steps_receive x _ r n (received_verdict hv) (clean_fifoFault hf) hd)

/-- A Standard exchange whose response is accepted, up to its delivery (44 R214). -/
theorem steps_exchange_standard (x : Xcv) (timeout : Nat) (sc : XcvScript) (r : RxScript) (hk : x.kind = .standard)
    (h : sc.fits s.params x timeout clk = true) (ha : acceptedStandard s.params x.cap sc r = true) :
    Steps (s.running op (exchange s.params x timeout ++ rest) (answered (sc.views ++ r.views) ++ ps) (sc.ticks ++ ts)
        clk irqs evs)
      (deliverTo op rest x r.payload (8 * (r.count - 2))
        (s.running op (.deliver x r.payload (8 * (r.count - 2)) :: rest) ps ts (sc.clockAfter clk) sc.irqs
          (evs ++ sc.events s.params x timeout clk ++ r.events (r.count - 2)))) := by
  simp only [acceptedStandard, Bool.and_eq_true, decide_eq_true_eq] at ha
  obtain ⟨⟨⟨hv, hc⟩, hl1⟩, hl2⟩ := ha
  have hlen : (fifoBytes r.fifo (r.count - 2)).length = r.count - 2 := by simp [fifoBytes]
  refine (steps_exchange_receive x timeout sc r (r.count - 2) h (by rw [hk]; exact hv) hc ?_).trans ?_
  · intro u
    have h1 : ¬ r.count < 2 := by omega
    have h2 : ¬ r.count - 2 > x.cap := by omega
    simp [decodeChecks, hk, h1, h2]
  · refine .single ?_
    simp [ctrlStep, State.running, microStep, decodeRead, hk, State.goTo, hlen, RxScript.payload]

/-- The S(WTX) rounds of DEP_XCV (45 R247, R248). -/
theorem steps_wtx (hdr : Byte) (wtx : List BlockScript) (tx : List Byte) (h : wtxFits s hdr clk tx wtx = true) :
    ∃ irqs', Steps (s.running op (exchange s.params (blockXcv s hdr tx) s.params.tDep ++ [])
        (answered (wtx.flatMap BlockScript.views) ++ ps) (wtx.flatMap (fun q => q.sc.ticks) ++ ts) clk irqs evs)
      (s.running op (exchange s.params (blockXcv s hdr (wtxNext tx wtx)) s.params.tDep ++ []) ps ts
        (wtxClock clk wtx) irqs' (evs ++ wtxEvents s hdr clk tx wtx)) := by
  induction wtx generalizing clk tx irqs evs with
  | nil => exact ⟨irqs, by simpa [answered, wtxNext, wtxClock, wtxEvents] using Steps.refl _⟩
  | cons b l ih =>
    simp only [wtxFits, Bool.and_eq_true] at h
    obtain ⟨⟨⟨h1, h2⟩, h3⟩, h4⟩ := h
    obtain ⟨q, ih⟩ := ih (irqs := b.sc.irqs) (evs := evs ++ b.events s hdr tx clk) _ h4
    refine ⟨q, ?_⟩
    have e : answered (List.flatMap BlockScript.views (b :: l)) ++ ps =
        answered (b.sc.views ++ b.r.views) ++ (answered (l.flatMap BlockScript.views) ++ ps) := by
      simp [answered, BlockScript.views]
    have e2 : List.flatMap (fun q => q.sc.ticks) (b :: l) ++ ts =
        b.sc.ticks ++ (l.flatMap (fun q => q.sc.ticks) ++ ts) := by simp
    rw [e, e2]
    refine (steps_exchange_standard (blockXcv s hdr tx) s.params.tDep b.sc b.r rfl h1 h2).trans ?_
    have hw : isWtx b.r.payload = true := h3
    refine Steps.trans (t := s.running op (exchange s.params (blockXcv s hdr b.reply) s.params.tDep ++ [])
      (answered (l.flatMap BlockScript.views) ++ ps) (l.flatMap (fun q => q.sc.ticks) ++ ts) (b.sc.clockAfter clk)
      b.sc.irqs (evs ++ b.events s hdr tx clk)) ?_ (by simpa [wtxNext, wtxClock, wtxEvents] using ih)
    simp only [deliverTo, blockXcv, depXcvFinish, hw, if_true]
    simp [State.running, State.goTo, depExchange, BlockScript.reply, wtxReply, BlockScript.events, blockXcv]
    exact .refl _

/-- The header of the meanings is that of the statements (30 R87). -/
theorem iBlockHeader_eq (s : State) : iBlockHeader s.spin = headerOf s := by
  unfold iBlockHeader headerOf
  generalize s.spin = q
  revert q; decide

/-- What the exchange of an operation is bounded by: RXCAP, ATS_CAP or DEP_CAP. -/
theorem exchangeOf_cap {i : Instr} {wtx : List BlockScript} {x : Xcv} {timeout : Nat}
    (h : exchangeOf i s wtx = some (x, timeout)) :
    x.cap = if i = .depNew then s.params.atsCap else if i = .depXcv then s.params.depCap else s.rxcap := by
  cases i <;> simp only [exchangeOf, hostExchange] at h <;>
    first | (split at h <;> simp at h) | skip
  all_goals obtain ⟨rfl, rfl⟩ := h; simp [activation, blockXcv]

/-- An operation up to an exchange of its own, those inside DEP_NEW and DEP_XCV among them. -/
theorem steps_exchangeOf {i : Instr} {wtx : List BlockScript} {x : Xcv} {timeout : Nat}
    (h : exchangeOf i s wtx = some (x, timeout)) (hp : s.port = answered (roundViews wtx) ++ ps)
    (ht : s.ticks = roundTicks wtx ++ ts) :
    ∃ irqs', Steps (s.goTo i (stepsOf i s))
      (s.running i (exchange s.params x timeout ++ []) ps ts (wtxClock s.clock wtx) irqs' (roundEvents s wtx)) := by
  have host : ∀ {j : Instr}, stepsOf j s = exchange s.params x timeout ++ [] → wtx = [] →
      ∃ irqs', Steps (s.goTo j (stepsOf j s))
        (s.running j (exchange s.params x timeout ++ []) ps ts (wtxClock s.clock wtx) irqs' (roundEvents s wtx)) := by
    rintro j hj rfl
    rw [hj]
    refine ⟨s.irqs, ?_⟩
    rw [goTo_eq_running (ps := ps) (ts := ts) (by simpa [answered, roundViews] using hp)
      (by simpa [roundTicks] using ht)]
    exact .refl _
  cases i
  case depXcv =>
    simp only [exchangeOf, Bool.and_eq_true, decide_eq_true_eq, Option.ite_none_right_eq_some, Option.some.injEq,
      Prod.mk.injEq] at h
    obtain ⟨⟨hl, hw⟩, rfl, rfl⟩ := h
    have hn : ¬ s.tx.length + 1 > s.fsc.toNat := by omega
    have e : stepsOf .depXcv s =
        exchange s.params (blockXcv s (headerOf s) (headerOf s :: s.tx)) s.params.tDep ++ [] := by
      simp only [stepsOf, depXcvSteps, hn, if_false, depXcvExchange, depExchange, blockXcv, iBlockHeader_eq,
        List.append_nil]
    rw [e, goTo_eq_running hp ht]
    simpa [roundEvents, roundViews, roundTicks] using steps_wtx (irqs := s.irqs) (evs := []) (headerOf s) wtx (headerOf s :: s.tx) hw
  case depNew =>
    simp only [exchangeOf, List.isEmpty_iff, Option.ite_none_right_eq_some, Option.some.injEq, Prod.mk.injEq] at h
    obtain ⟨hw, rfl, rfl⟩ := h
    exact host (by simp [stepsOf, depNewSteps, activation, depExchange]) hw
  all_goals
    simp only [exchangeOf, List.isEmpty_iff, Option.ite_none_right_eq_some] at h
    exact host (stepsOf_hostExchange h.2).1 h.1

/-- The measurement command the statements write out is that of the meanings. -/
theorem measuredBy_eq (k : Method) : measuredBy k = measCmd k := by cases k <;> rfl

/-- One sensing method of WAIT_FOR_CARD (43 R174), for an entry that is well formed. -/
theorem steps_method (k : Method) (cfg : List Byte) (m : MethodScript)
    (hf : m.fits s.params (entryOf cfg k) clk = true) (hr : (entryOf cfg k).wellFormed = true) :
    ∃ irqs', Steps (s.running op (methodSteps s.params cfg k ++ rest)
        (answered (m.views (entryOf cfg k)) ++ ps) (m.ticks (entryOf cfg k) ++ ts) clk irqs evs)
      (s.running op rest ps ts (m.clockAfter (entryOf cfg k) clk) irqs' (evs ++ m.events (entryOf cfg k) k clk)) := by
  obtain ⟨h1, h2, h3, h4, h5, h6⟩ := entryOf_methodCfg cfg k
  unfold methodSteps
  generalize methodCfg cfg k = c at *
  generalize entryOf cfg k = q at *
  cases he : q.enabled with
  | false =>
    rw [he] at h1
    simp [h1, he, MethodScript.views, MethodScript.ticks, measured, MethodScript.clockAfter, MethodScript.events,
      answered]
    exact ⟨irqs, .refl _⟩
  | true =>
    have hlt : q.refKind < 4 := by unfold MethodEntry.refKind; omega
    have hmeas : c.refKind = refKindOf (BitVec.ofNat 2 q.refKind) → measured q = true →
        wuConfOf c = (if q.refKind = 2 then
            { delta := q.delta, aaEn := true, aaIncludeIrq := q.includeIrq, aaWeight := q.weight }
          else { delta := q.delta, aaEn := false, aaIncludeIrq := false, aaWeight := 0 }) →
        Steps (s.running op (cmdWait s.params (measCmd k) ++ [.readRef k] ++ (.write (.wuConf k (wuConfOf c)) :: rest))
          (answered (m.views q) ++ ps) (m.ticks q ++ ts) clk irqs evs)
        (s.running op rest ps ts (m.clockAfter q clk) m.cmd.irqs (evs ++ m.events q k clk)) := by
      intro _ hm ew
      have hf' : m.cmd.fits s.params clk = true := by simpa [MethodScript.fits, hm] using hf
      have e : answered (m.views q) ++ ps =
          answered m.cmd.views ++ (.done m.adc :: .done m.refWrite :: .done m.confWrite :: ps) := by
        simp [answered, MethodScript.views, he, hm]
      rw [e]
      simp only [MethodScript.ticks, hm, if_true, List.append_assoc]
      refine (steps_cmdWait _ m.cmd hf').trans ?_
      refine .head (t := s.running op (.write (.wuRef k m.adc.adcResult) :: .write (.wuConf k (wuConfOf c)) :: rest)
        (.done m.refWrite :: .done m.confWrite :: ps) ts (m.cmd.clockAfter clk) m.cmd.irqs
        (evs ++ m.cmd.events (measCmd k) clk ++ [.read (.adcResult m.adc.adcResult)])) ?_ ?_
      · simp [ctrlStep, State.running, microStep, transact, State.usePort, State.emit, State.goTo]
      refine (steps_write _ _).trans ?_
      have := steps_write (s := s) (op := op) (rest := rest) (ps := ps) (ts := ts) (clk := m.cmd.clockAfter clk)
        (irqs := m.cmd.irqs) (evs := evs ++ m.cmd.events (measCmd k) clk ++ [.read (.adcResult m.adc.adcResult)] ++
          [.write (.wuRef k m.adc.adcResult)]) (.wuConf k (wuConfOf c)) m.confWrite
      simpa [MethodScript.events, MethodScript.clockAfter, he, hm, ew, measuredBy_eq] using this
    have hc : c.enabled = true := by rw [h1, he]
    simp only [hc, if_true]
    have hcase : q.refKind = 0 ∨ q.refKind = 1 ∨ q.refKind = 2 ∨ q.refKind = 3 := by omega
    rcases hcase with h | h | h | h <;> rw [h] at h2
    · refine ⟨irqs, ?_⟩
      have hk : c.refKind = .manual := h2
      have hm : measured q = false := by simp [measured, h]
      have e : answered (m.views q) ++ ps = (.done m.refWrite :: .done m.confWrite :: ps) := by
        simp [answered, MethodScript.views, he, hm]
      rw [e]
      simp only [referenceSteps, hk, MethodScript.ticks, hm]
      refine (steps_write _ _).trans ?_
      have := steps_write (s := s) (op := op) (rest := rest) (ps := ps) (ts := ts) (clk := clk) (irqs := irqs)
        (evs := evs ++ [.write (.wuRef k c.manualRef)]) (.wuConf k (wuConfOf c)) m.confWrite
      simpa [MethodScript.events, MethodScript.clockAfter, he, hm, h, hk, wuConfOf, h4, h5,
        show (RefKind.manual == RefKind.autoAverage) = false from rfl] using this
    · have hk : c.refKind = .automatic := h2
      refine ⟨m.cmd.irqs, ?_⟩
      have := hmeas (by rw [h2, h]) (by simp [measured, he, h])
        (by simp [wuConfOf, hk, h, h4, show (RefKind.automatic == RefKind.autoAverage) = false from rfl])
      simpa [referenceSteps, hk] using this
    · have hk : c.refKind = .autoAverage := h2
      refine ⟨m.cmd.irqs, ?_⟩
      have := hmeas (by rw [h2, h]) (by simp [measured, he, h])
        (by simp [wuConfOf, hk, h, h3, h4, h6])
      simpa [referenceSteps, hk] using this
    · simp [MethodEntry.wellFormed, he, h] at hr

/-- The sleep of WAIT_FOR_CARD: a line that is high when the wait begins does not end it (43 R178). -/
theorem steps_waitRise (high low : Nat) (ls : List Bool)
    (h : s.line = List.replicate high true ++ List.replicate (low + 1) false ++ true :: ls) :
    Steps (s.running op (.waitRise none :: rest) ps ts clk irqs evs)
      ({ s with line := ls }.running op rest ps ts clk irqs (evs ++ ([.edge] : List Event))) := by
  have highs : ∀ (n : Nat) (l : List Bool) (last : Option Bool), last ≠ some false → ∃ last', Steps
      ({ s with line := List.replicate n true ++ l }.running op (.waitRise last :: rest) ps ts clk irqs evs)
      ({ s with line := l }.running op (.waitRise last' :: rest) ps ts clk irqs evs) := by
    intro n l
    induction n with
    | zero => exact fun last _ => ⟨last, by simpa using Steps.refl _⟩
    | succ n ih =>
      intro last hl
      obtain ⟨last', h2⟩ := ih (some true) (by simp)
      refine ⟨last', .head ?_ h2⟩
      simp [ctrlStep, State.running, microStep, List.replicate_succ, State.useLine, State.goTo, hl]
  have lows : ∀ (n : Nat) (l : List Bool) (last : Option Bool), Steps
      ({ s with line := List.replicate (n + 1) false ++ l }.running op (.waitRise last :: rest) ps ts clk irqs evs)
      ({ s with line := l }.running op (.waitRise (some false) :: rest) ps ts clk irqs evs) := by
    intro n l
    induction n with
    | zero => exact fun last => .single (by simp [ctrlStep, State.running, microStep, State.useLine, State.goTo])
    | succ n ih =>
      refine fun last => .head ?_ (ih (some false))
      simp [ctrlStep, State.running, microStep, List.replicate_succ, State.useLine, State.goTo]
  obtain ⟨last, h2⟩ := highs high (List.replicate (low + 1) false ++ true :: ls) none (by simp)
  have e : s.running op (.waitRise none :: rest) ps ts clk irqs evs =
      { s with line := List.replicate high true ++ (List.replicate (low + 1) false ++ true :: ls) }.running op
        (.waitRise none :: rest) ps ts clk irqs evs := by simp [State.running, h]
  rw [e]
  refine h2.trans ((lows low _ last).trans (.single ?_))
  simp [ctrlStep, State.running, microStep, State.useLine, State.goTo, State.emit]

end

end Sys2Proof.Machine
end

