-- ==== Sys2Proof/Laws/PerInstr.lean ====
section
/-! SUPPORT. A statement per instruction: its encoding, read as a row of the opcode table, is the instruction. -/

namespace Sys2Proof.Laws

/-- A table row's word keeps its value: 40 bits are all the bits a command word has. -/
theorem decodeTableWord_40 (w : CmdWord) : decodeTableWord 40 w.toNat = (decode w).toOption := by
  have : BitVec.ofNat 40 (w.toNat % 2 ^ 40) = w := by
    apply BitVec.eq_of_toNat_eq
    simpa using w.isLt
  unfold decodeTableWord
  rw [this]
  rfl

namespace TableWord

/-- The 40-bit word of `i`, numbered as the opcode table numbers it, decodes to `i` (30 R80 to R83). -/
def Statement (i : Instr) : Prop := decodeTableWord 40 (encode i).toNat = some i

theorem init : Statement .init := rfl
theorem modeOn : Statement .modeOn := rfl
theorem modeOff : Statement .modeOff := rfl
theorem fieldOn : Statement .fieldOn := rfl
theorem fieldOff : Statement .fieldOff := rfl
theorem measAmp : Statement .measAmp := rfl
theorem measPhase : Statement .measPhase := rfl
theorem measCap : Statement .measCap := rfl
theorem calCap : Statement .calCap := rfl
theorem waitForCard : Statement .waitForCard := rfl
theorem startA : Statement .startA := rfl
theorem sessionEnd : Statement .sessionEnd := rfl
theorem xcvReqa : Statement .xcvReqa := rfl
theorem xcvWupa : Statement .xcvWupa := rfl
theorem depNew : Statement .depNew := rfl
theorem depXcv : Statement .depXcv := rfl

theorem xcvAnticoll (bitCount : Word32) : Statement (.xcvAnticoll bitCount) := by
  unfold Statement
  rw [decodeTableWord_40, decode, opcOf_encode, immOf_encode]
  rfl

theorem xcvStandard (timeout : Word32) : Statement (.xcvStandard timeout) := by
  unfold Statement
  rw [decodeTableWord_40, decode, opcOf_encode, immOf_encode]
  rfl

end TableWord

end Sys2Proof.Laws
end

