-- ==== Sys2Proof/WellFormed.lean ====
section
/-! DEFINITION. Which instructions and which parameters are well formed. -/

namespace Sys2Proof

/-- The one range that can be checked on the command word alone: XCV_ANTICOLL has `1 <= bit_count`
(30 R85). An ill-formed word still decodes, and its operation is refused at issue (95 2.1, last row). -/
def Instr.wellFormed : Instr → Bool
  | .xcvAnticoll bitCount => bitCount != 0
  | .init => true
  | .modeOn => true
  | .modeOff => true
  | .fieldOn => true
  | .fieldOff => true
  | .measAmp => true
  | .measPhase => true
  | .measCap => true
  | .calCap => true
  | .waitForCard => true
  | .startA => true
  | .sessionEnd => true
  | .xcvReqa => true
  | .xcvWupa => true
  | .xcvStandard _ => true
  | .depNew => true
  | .depXcv => true

/-- `IRQ_BIT` is an injective map into 0..(8*N_IRQ - 1) (00 R9, 10 R23). -/
def Params.irqBitOk (p : Params) : Bool :=
  p.irqBit.all.all (fun b => b < 8 * p.nIrq.toNat) && decide p.irqBit.all.Nodup

/-- The size constraints of 93 section 1 that the protocol needs to work at all, and TICKS_PER_MS >= 1 (00 R9). -/
def Params.sizesOk (p : Params) : Bool :=
  1 ≤ p.ticksPerMs && 2 ≤ p.atsCap && 1 ≤ p.depCap && 2 ≤ p.fifoDepth

/-- The members of PERIODS fit the bits of 30 R96: a 4-bit index, and the slow bit set exactly below 100 ms. -/
def Params.periodsOk (p : Params) : Bool :=
  p.periods.all (fun q => q.index < 16 && (q.slow == decide (q.ms < 100)))

/-- `AfeMap` gives every location, every command and every field of 10 R35 and R36 its place (00 R9). -/
def Params.afeMapOk (p : Params) : Bool :=
  (AfeLocation.all p.nIrq.toNat).all (fun l => (p.afeMap.addressOf l).isSome) &&
    AfeCmd.all.all (fun c => (p.afeMap.opcodeOf c).isSome) && AfeField.all.all (fun f => (p.afeMap.placeOf f).isSome)

/-- `T_UNIT` is a length of time: neither number of its fraction is 0. -/
def Params.tUnitOk (p : Params) : Bool := 1 ≤ p.tUnit.num && 1 ≤ p.tUnit.den

/-- Parameters as the spec constrains them. No meaning depends on it; statements take it as a premise where
they need it. -/
def Params.wellFormed (p : Params) : Bool :=
  p.irqBitOk && p.sizesOk && p.periodsOk && p.afeMapOk && p.tUnitOk

end Sys2Proof
end

