-- ==== Sys2Proof/Tests/Slice0.lean ====
section
/-! SUPPORT. Tests. Expected results come from the vectors of `spec/95_test_vectors.md`, named in each docstring; they
use the reference instantiation of its section 0 and not the model's own answers. -/

namespace Sys2Proof.Tests

open Sys2Proof.Machine

/-! ## Helpers -/

/-- The next state, if the outcome is one. -/
def nextOf : Host.Outcome State Fault Refusal → Option State
  | .next t => some t
  | .fault _ => none
  | .refused _ => none

/-- What `f` shows of the state after operation `i`. -/
def after {α : Type} (i : Instr) (s : State) (f : State → α) : Option α := (nextOf (exec i s)).map f

/-- A view with the interrupt status registers `w`. -/
def stat (w : Word32) : AfeView := { irqStatus := w }

/-- The two reads `S=(a,b)` of 95 section 0, with the bytes of `w`. -/
def both (w : Word32) : List AfeView := [stat w, stat w]

/-- A view with nothing set. -/
def blank : AfeView := {}

/-- OP_CONTROL read with the crystal on and automatic detection. -/
def opcOn : AfeView := { opControl := { en := true, efd := .auto } }

/-- OP_CONTROL read with the field on. -/
def opcField : AfeView := { opControl := { en := true, efd := .auto, txEn := true, rxEn := true } }

/-- After INIT, MODE Off. -/
def offState : State := { State.reset with ready := true }

/-- After MODE_ON. -/
def onState : State := { offState with mode := .on }

/-- With a session of ISO 14443A, RXCAP 8. -/
def sessState : State := { onState with sess := .a, rxcap := 8 }

/-- With an ISO-DEP session of frame size 16. -/
def depState : State := { sessState with sess := .dep, fsc := 16 }

/-- `s` with answers placed. -/
def placed (s : State) (views : List AfeView) (ticks : List Nat) : State :=
  { s with port := answered views, ticks := ticks }

/-- STATUS and VALUE. -/
def result (t : State) : Byte × Word32 := (t.status, t.value)

/-! ## WellFormed -/

/-- 30 R85: an anticollision frame of no bits is ill formed. -/
theorem test_wf_anticoll_zero : Instr.wellFormed (.xcvAnticoll 0) = false := by decide

/-- 10 R23: two interrupts on one bit are refused. -/
theorem test_wf_irq_bit_injective :
    Params.irqBitOk { Config.reference with irqBit := { Config.reference.irqBit with cac := 0 } } = false := by decide

/-- 10 R23: a bit at or above 8*N_IRQ is refused. -/
theorem test_wf_irq_bit_range :
    Params.irqBitOk { Config.reference with irqBit := { Config.reference.irqBit with cac := 16 } } = false := by decide

/-- 93 section 1: an ATS buffer of one byte is refused. -/
theorem test_wf_sizes : Params.sizesOk { Config.reference with atsCap := 1 } = false := by decide

/-- 30 R96: a period of 100 ms with the slow bit is refused. -/
theorem test_wf_periods :
    Params.periodsOk { Config.reference with periods := [{ ms := 100, index := 9, slow := true }] } = false := by decide

/-- 00 R9: an `AfeMap` that gives a command no opcode is refused. -/
theorem test_wf_afe_map :
    Params.afeMapOk { Config.reference with afeMap := { Config.reference.afeMap with opcode := [] } } = false := by decide

/-- 00 R9: a `T_UNIT` that is no length of time is refused. -/
theorem test_wf_t_unit : Params.tUnitOk { Config.reference with tUnit := { num := 1, den := 0 } } = false := by decide

/-- The reference parameters are well formed. -/
theorem test_wf_reference : Params.wellFormed Config.reference = true := by decide

/-! ## Decoding (95 section 2.1) -/

theorem test_decode_init : decode 0x0000000000 = .ok .init := rfl
theorem test_decode_mode_on : decode 0x0100000000 = .ok .modeOn := rfl
theorem test_decode_mode_off : decode 0x0200000000 = .ok .modeOff := rfl
theorem test_decode_field_on : decode 0x0300000000 = .ok .fieldOn := rfl
theorem test_decode_field_off : decode 0x0400000000 = .ok .fieldOff := rfl
theorem test_decode_meas_amp : decode 0x0800000000 = .ok .measAmp := rfl
theorem test_decode_meas_phase : decode 0x0900000000 = .ok .measPhase := rfl
theorem test_decode_meas_cap : decode 0x0A00000000 = .ok .measCap := rfl
theorem test_decode_cal_cap : decode 0x0B00000000 = .ok .calCap := rfl
theorem test_decode_wait_for_card : decode 0x1000000000 = .ok .waitForCard := rfl
theorem test_decode_start_a : decode 0x2000000000 = .ok .startA := rfl
theorem test_decode_session_end : decode 0x2100000000 = .ok .sessionEnd := rfl
theorem test_decode_xcv_reqa : decode 0x2400000000 = .ok .xcvReqa := rfl
theorem test_decode_xcv_wupa : decode 0x2500000000 = .ok .xcvWupa := rfl
theorem test_decode_xcv_anticoll : decode 0x2600000010 = .ok (.xcvAnticoll 16) := rfl
theorem test_decode_xcv_standard : decode 0x2700000400 = .ok (.xcvStandard 1024) := rfl
theorem test_decode_dep_new : decode 0x3000000000 = .ok .depNew := rfl
theorem test_decode_dep_xcv : decode 0x3100000000 = .ok .depXcv := rfl
theorem test_decode_reserved : decode 0xFF00000000 = .error .reservedOpcode := rfl
theorem test_decode_illegal : decode 0x0100000001 = .error .immNotZero := rfl

/-! ## One step of each operation -/

/-- The answers of MODE_ON, V41-1. -/
def modeOnAnswers : ModeOnScript where
  enWrite := blank
  polls := []
  ready := { oscOk := true }
  opcRead := { opControl := { en := true } }
  opcWrite := blank
  driver := blank

/-- The answers of P1. -/
def p1 : InitScript where
  setDefault := blank
  fuse := blank
  identity := { identity := 0x2A }
  enWrite := blank
  polls := []
  ready := { oscOk := true }
  vdd := { drain := both 0, send := blank, tick := 100, waits := [], last := both 1 }
  adc := { adcResult := 141 }
  supply := blank
  auxClk := blank
  opcRead := { opControl := { en := true } }
  opcWrite := blank
  start1 := blank
  start0 := blank
  adjust := { drain := both 0, send := blank, tick := 1, waits := [], last := both 1 }

/-- The reset state with the answers of P1 placed. -/
def p1State : State := placed State.reset (p1.views Config.reference) p1.ticks

/-- P1, its end. -/
theorem test_init_p1 :
    after .init p1State (fun t => (result t, t.ready, t.irqs, t.clock)) = some ((0x00, 0), true, 1, 101) := by decide

/-- P1, its trace. -/
theorem test_init_p1_trace : after .init p1State State.trace = some
    [.cmd .setDefault, .read (.identity 0x2A), .log (.identity 0x2A), .write (.opControl { en := true }),
      .read (.oscStatus true), .read (.irqStatus 0 0), .read (.irqStatus 1 0), .cmd .measVdd, .time 100,
      .read (.irqStatus 0 1), .read (.irqStatus 1 0), .read (.adcResult 141), .log (.vddMv 3299),
      .write (.afeSupply true), .write .auxClkDisabled, .read (.opControl { en := true }),
      .write (.opControl { en := true, efd := .auto }), .write (.regAdjust true), .write (.regAdjust false),
      .read (.irqStatus 0 0), .read (.irqStatus 1 0), .cmd .adjustReg, .time 101, .read (.irqStatus 0 1),
      .read (.irqStatus 1 0)] := by decide

/-- V41-1. -/
theorem test_mode_on : after .modeOn (placed offState modeOnAnswers.views []) (fun t => (t.mode, t.trace)) =
    some (.on, [.write (.opControl { en := true }), .read (.oscStatus true), .read (.opControl { en := true }),
      .write (.opControl { en := true, efd := .auto }), .write (.txDriver 0)]) := by decide

/-- V41-5: the stop command fails. -/
theorem test_mode_off_fails :
    after .modeOff { onState with port := [.fail 7] } (fun t => (t.status, t.errinfo, t.mode, t.trace)) =
      some (0x01, 7, .off, [.fail (.cmd .stop) 7]) := by decide

/-- V41-4. -/
theorem test_mode_off : after .modeOff (placed onState [blank, blank] []) (fun t => (result t, t.mode, t.trace)) =
    some ((0x00, 0), .off, [.cmd .stop, .write (.opControl {})]) := by decide

/-- The answers of FIELD_ON, with what the second refresh shows. -/
def fieldOnAnswers (w : Word32) : FieldOnScript where
  setup := [blank, blank, blank]
  drain := both 0
  send := blank
  tick := 0
  waits := [{ views := both 0, tick := 0 }]
  last := both w

/-- E6. -/
theorem test_field_on_collision :
    after .fieldOn (placed onState (fieldOnAnswers 2).views []) (fun t => (t.status, t.irqs, t.mode, t.trace)) =
      some (0x0A, 2, .on, [.write (.modulationOok 0), .write .bitRate106, .write (.swGuard 0), .read (.irqStatus 0 0),
        .read (.irqStatus 1 0), .cmd .initialRfCa, .read (.irqStatus 0 0), .read (.irqStatus 1 0), .yield,
        .read (.irqStatus 0 2), .read (.irqStatus 1 0)]) := by decide

/-- V41-6, its last two events and IRQS. -/
theorem test_field_on :
    after .fieldOn (placed onState ((fieldOnAnswers 4).views ++ [opcOn, blank]) [])
      (fun t => (result t, t.irqs, t.trace.drop 11)) =
      some ((0x00, 0), 4, [.read (.opControl { en := true, efd := .auto }),
        .write (.opControl { en := true, efd := .auto, txEn := true, rxEn := true })]) := by decide

/-- V41-8. -/
theorem test_field_off : after .fieldOff (placed onState [opcField, blank] []) (fun t => (t.status, t.trace)) =
    some (0x00, [.read (.opControl { en := true, efd := .auto, txEn := true, rxEn := true }),
      .write (.opControl { en := true, efd := .auto })]) := by decide

/-- The answers of a measurement that sees DCT at once. -/
def measAnswers : CmdScript where
  drain := both 4
  send := blank
  tick := 10
  waits := []
  last := both 1

/-- V42-1. -/
theorem test_meas_amp :
    after .measAmp (placed { onState with irqs := 4 } (measAnswers.views ++ [{ adcResult := 0x5C }]) measAnswers.ticks)
      (fun t => (result t, t.irqs, t.trace.getD 2 .yield)) = some ((0x00, 92), 1, .cmd .measAmp) := by decide

/-- V42-2. -/
theorem test_meas_phase :
    after .measPhase (placed onState (measAnswers.views ++ [blank]) measAnswers.ticks)
      (fun t => (result t, t.trace.getD 2 .yield)) = some ((0x00, 0), .cmd .measPhase) := by decide

/-- V42-3. -/
theorem test_meas_cap :
    after .measCap (placed onState (measAnswers.views ++ [{ adcResult := 255 }]) measAnswers.ticks)
      (fun t => (result t, t.trace.getD 2 .yield)) = some ((0x00, 255), .cmd .measCap) := by decide

/-- V42-4. -/
theorem test_cal_cap :
    after .calCap (placed onState [blank, blank, blank, blank, { capCal := { calEnd := true, value := 0x11 } }] [0, 1, 1])
      (fun t => (result t, t.fatal, t.trace.length)) = some ((0x00, 17), false, 10) := by decide

/-- E7 (c): both flags in one read. -/
theorem test_cal_cap_error :
    after .calCap (placed onState [blank, blank, { capCal := { calEnd := true, calErr := true } }] [1000])
      (fun t => (t.status, t.fatal)) = some (0x10, true) := by decide

/-- The image of V43-1. -/
def image : List Byte := [0x12, 0x03, 0x03, 0, 0, 0, 0, 0, 0, 0x01, 0x02, 0x40, 0]

/-- The answers for a sensing method; the phase method takes none in V43-1. -/
def methodAnswers : MethodScript where
  cmd := { drain := both 1, send := blank, tick := 50, waits := [], last := both 1 }
  adc := { adcResult := 0x5C }
  refWrite := blank
  confWrite := blank

/-- The answers of V43-1. -/
def wakeAnswers : WakeScript where
  modeOn := modeOnAnswers
  stop := blank
  opcZero := blank
  opMode := blank
  amp := methodAnswers
  phase := methodAnswers
  cap := methodAnswers
  drain := both 1
  timer := blank
  wake := blank
  masks := [blank, blank]

/-- The start of V43-1, with the levels the IRQ line shows. -/
def wakeState (levels : List Bool) : State :=
  { placed { onState with irqs := 1, cfg := image } (wakeAnswers.views .on image) (wakeAnswers.ticks image) with
    line := levels }

/-- V43-1. -/
theorem test_wait_for_card :
    after .waitForCard (wakeState [true, false, true]) (fun t => (result t, t.mode, t.irqs, t.trace)) =
      some ((0x00, 0), .wakeup, 0, [.cmd .stop, .write (.opControl {}), .write .opModeIso14443aInitiator,
        .read (.irqStatus 0 1), .read (.irqStatus 1 0), .cmd .measAmp, .time 50, .read (.irqStatus 0 1),
        .read (.irqStatus 1 0), .read (.adcResult 0x5C), .write (.wuRef .amp 0x5C),
        .write (.wuConf .amp { delta := 3, aaEn := false, aaIncludeIrq := false, aaWeight := 0 }),
        .write (.wuRef .cap 0x40),
        .write (.wuConf .cap { delta := 2, aaEn := false, aaIncludeIrq := false, aaWeight := 0 }),
        .read (.irqStatus 0 1), .read (.irqStatus 1 0),
        .write (.wuTimerControl { index := 2, slow := true, enAmp := true, enPhase := false, enCap := true }),
        .write (.opControl { wu := true }), .write (.irqMask 0 0xFF), .write (.irqMask 1 0xD7), .edge]) := by decide

/-- The image of V43-2: the phase method alone, AutoAverage. -/
def phaseImage : List Byte := [0x12, 0, 0, 0, 0, 0x0D, 4, 0, 8, 0, 0, 0, 0]

/-- V43-2: the events of the method, and the mask bytes. -/
theorem test_wait_for_card_phase :
    let w : WakeScript := { wakeAnswers with phase := { methodAnswers with adc := { adcResult := 0x80 } } }
    after .waitForCard (placed { onState with cfg := phaseImage } (w.views .on phaseImage) (w.ticks phaseImage))
      (fun t => [t.trace.getD 5 .yield] ++ (t.trace.drop 9).take 3 ++ t.trace.drop 16) =
      some [.cmd .measPhase, .read (.adcResult 0x80), .write (.wuRef .phase 0x80),
        .write (.wuConf .phase { delta := 4, aaEn := true, aaIncludeIrq := true, aaWeight := 8 }),
        .write (.irqMask 0 0xFF), .write (.irqMask 1 0xEF)] := by decide

/-- V43-4: a reserved bit, a reserved reference kind, a period that is not in PERIODS. -/
theorem test_wait_for_card_malformed :
    ∀ q ∈ ([(0, 0x20), (1, 0x07), (0, 0x18)] : List (Nat × Byte)),
      after .waitForCard { wakeState [true, false, true] with cfg := image.set q.1 q.2 }
        (fun t => (t.status, t.trace)) = some (0xFF, []) := by decide

/-- V43-3: the state asleep, and CANCEL. -/
theorem test_wait_for_card_cancelled :
    (after .waitForCard (wakeState []) id).bind (fun t =>
      (nextOf (step { t with host := [.cancel] })).map (fun u => (u.status, u.mode, u.trace == t.trace))) =
      some (0x11, .wakeup, true) := by decide

/-- P2: START_A, with the guard interval. -/
theorem test_start_a :
    after .startA (placed offState (modeOnAnswers.views ++ (fieldOnAnswers 4).views ++ [opcOn, blank]) [200, 0, 3, 3])
      (fun t => (result t, t.mode, t.sess, t.irqs, t.trace.drop 18)) =
      some ((0x00, 0), .on, .a, 4, [.time 200, .time 200, .yield, .time 203, .yield, .time 206]) := by decide

/-- P4: the field collision and its clean-up. -/
theorem test_start_a_collision :
    after .startA (placed offState (modeOnAnswers.views ++ ((fieldOnAnswers 2).views ++ [blank, blank])) [])
      (fun t => (t.status, t.mode, t.sess, t.irqs, t.trace.drop 16)) =
      some (0x0A, .off, .none, 2, [.cmd .stop, .write (.opControl {})]) := by decide

/-- P5. -/
theorem test_session_end_port_failing :
    after .sessionEnd { sessState with port := [.fail 1, .fail 2] } (fun t => (result t, t.mode, t.sess, t.trace)) =
      some ((0x00, 0), .off, .none, [.fail (.read .opControl) 1, .log (.fieldOffFailed 1), .fail (.cmd .stop) 2,
        .log (.modeOffFailed 2)]) := by decide

/-- P3, its last operation. -/
theorem test_session_end :
    after .sessionEnd (placed depState [opcField, blank, blank, blank] []) (fun t => (t.mode, t.sess, t.trace)) =
      some (.off, .none, [.read (.opControl { en := true, efd := .auto, txEn := true, rxEn := true }),
        .write (.opControl { en := true, efd := .auto }), .cmd .stop, .write (.opControl {})]) := by decide

/-- The answers of exchange steps S1 to S6: `setup` transactions, and what step 6 sees. -/
def xcvAnswers (setup : Nat) (w : Word32) : XcvScript where
  setup := List.replicate setup blank
  drain := both 0
  send := blank
  tick0 := 300
  txWaits := []
  txLast := both 8
  tick1 := 1
  rxWaits := []
  rxLast := both w

/-- The answers of exchange steps S7 to S10 with these bytes in the FIFO. -/
def rxAnswers (count : Nat) (bytes : List Byte) : RxScript where
  stop := blank
  fifoB := blank
  fifoA := { countLo := BitVec.ofNat 8 count }
  fifo := { fifo := bytes }

/-- The answers of a whole exchange. -/
def xcvViews (setup : Nat) (w : Word32) (r : RxScript) (more : List AfeView) : List AfeView :=
  (xcvAnswers setup w).views ++ r.views ++ more

/-- P2: XCV_REQA. -/
theorem test_xcv_reqa :
    after .xcvReqa (placed { sessState with rxcap := 2 } (xcvViews 5 0x10 (rxAnswers 2 [0x04, 0x00]) []) [300, 1])
      (fun t => (result t, t.rx, t.irqs, t.trace)) = some ((0x00, 16), [0x04, 0x00], 0x18,
        [.cmd .stop, .cmd .resetRxGain, .write (.frameConf true false), .write (.rxConf true true), .write (.nrt 1600),
          .read (.irqStatus 0 0), .read (.irqStatus 1 0), .cmd .txReqa, .time 300, .read (.irqStatus 0 8),
          .read (.irqStatus 1 0), .time 301, .read (.irqStatus 0 0x10), .read (.irqStatus 1 0), .write .nrtCtrlStop,
          .read (.fifoStatusB {}), .read (.fifoStatusA 2), .fifoRead 2 [0x04, 0x00]]) := by decide

/-- V44-1. -/
theorem test_xcv_wupa_no_response :
    after .xcvWupa (placed { sessState with rxcap := 2 } ((xcvAnswers 5 0x20).views ++ [blank]) [300, 1])
      (fun t => (t.status, t.trace.drop 14, t.trace.getD 7 .yield)) =
      some (0x02, [.write .nrtCtrlStop], .cmd .txWupa) := by decide

/-- E5. -/
theorem test_xcv_anticoll_collision :
    after (.xcvAnticoll 12) (placed { sessState with tx := [0x93, 0x2A] }
        (xcvViews 7 0x50 (rxAnswers 1 [0x50]) [{ collision := { cByte := 1, cBit := 3 } }]) [300, 1])
      (fun t => (result t, t.rx, (t.trace.drop 2).take 3, t.trace.getD 9 .yield)) = some ((0x00, 11), [0x93, 0x5A],
        [.write (.frameConf true true), .write (.txLength 12), .fifoWrite [0x93, 0x2A]], .cmd .txWithoutCrc) := by
  decide

/-- V44-22: a split byte for which nothing came. -/
theorem test_xcv_anticoll_empty :
    after (.xcvAnticoll 12) (placed { sessState with tx := [0x93, 0x2A] } (xcvViews 7 0x10 (rxAnswers 0 []) []) [300, 1])
      (fun t => (result t, t.rx)) = some ((0x00, 8), [0x93, 0x0A]) := by decide

/-- V44-17. -/
theorem test_xcv_standard :
    after (.xcvStandard 1024) (placed { sessState with tx := [0x26] }
        (xcvViews 7 0x10 (rxAnswers 10 [1, 2, 3, 4, 5, 6, 7, 8]) []) [300, 1])
      (fun t => (result t, t.rx, (t.trace.drop 2).take 5, t.trace.getD 9 .yield)) =
      some ((0x00, 64), [1, 2, 3, 4, 5, 6, 7, 8], [.write (.frameConf false false), .write (.txLength 8),
        .fifoWrite [0x26], .write (.rxConf true true), .write (.nrt 1600)], .cmd .txWithCrc) := by decide

/-- V44-4: parity before CRC. -/
theorem test_xcv_standard_parity :
    after (.xcvStandard 1024) (placed sessState ((xcvAnswers 7 0x0610).views ++ [blank]) [300, 1]) State.status =
      some 0x04 := by decide

/-- P3: DEP_NEW. -/
theorem test_dep_new :
    after .depNew (placed sessState (xcvViews 7 0x10 (rxAnswers 7 [0x05, 0x78, 0x80, 0x70, 0x02]) []) [300, 1])
      (fun t => (result t, t.fsc, t.spin, t.sess, t.trace.getD 4 .yield, t.trace.getD 9 .yield)) =
      some ((0x00, 256), 256, 0, .dep, .fifoWrite [0xE0, 0x80], .cmd .txWithCrc) := by decide

/-- E2: frame-size index 9. -/
theorem test_dep_new_index_nine :
    after .depNew (placed sessState (xcvViews 7 0x10 (rxAnswers 4 [0x02, 0x79]) []) [300, 1])
      (fun t => (t.status, t.sess)) = some (0x0F, .a) := by decide

/-- E4: one S(WTX) before the response. -/
theorem test_dep_xcv_wtx :
    after .depXcv (placed { depState with tx := [0xAA], rxcap := 4 }
        (xcvViews 7 0x10 (rxAnswers 4 [0xF2, 0xC5]) (xcvViews 7 0x10 (rxAnswers 4 [0x02, 0xBB]) [])) [300, 1, 300, 1])
      (fun t => (result t, t.rx, t.spin, [4, 9, 24, 29].map (fun j => t.trace.getD j .yield))) =
      some ((0x00, 1), [0xBB], 1, [.fifoWrite [0x02, 0xAA], .cmd .txWithCrc, .fifoWrite [0xF2, 0x05],
        .cmd .txWithCrc]) := by decide

/-- V45-9: a repeated header. -/
theorem test_dep_xcv_header :
    after .depXcv (placed { depState with tx := [0xAA], spin := 1 } (xcvViews 7 0x10 (rxAnswers 4 [0x02, 0xBB]) [])
      [300, 1]) (fun t => (t.status, t.spin)) = some (0x0F, 1) := by decide

/-! ## Witnesses: the hypotheses of each statement can be met together -/

/-- An operation that gives a next state with `f`. -/
theorem exists_of_after {i : Instr} {s : State} {f : State → Bool} (h : after i s f = some true) :
    ∃ t, exec i s = .next t ∧ f t = true := by
  unfold after at h
  cases hx : exec i s with
  | next t => rw [hx] at h; exact ⟨t, rfl, by simpa [nextOf] using h⟩
  | fault r => cases r
  | refused r => rw [hx] at h; simp [nextOf] at h

/-- A step that gives a next state with `f`. -/
theorem exists_of_step {s : State} {f : State → Bool} (h : (nextOf (step s)).map f = some true) :
    ∃ t, step s = .next t ∧ f t = true := by
  cases hx : step s with
  | next t => rw [hx] at h; exact ⟨t, rfl, by simpa [nextOf] using h⟩
  | fault r => cases r
  | refused r => rw [hx] at h; simp [nextOf] at h

/-- The operation has ended Ok. -/
def endedOk (t : State) : Bool := t.seq == .idle && t.status == 0x00

/-- The operation has ended with an error or has been refused. -/
def endedBad (t : State) : Bool := t.seq == .idle && t.status != 0x00

/-- The operation runs. -/
def running (t : State) : Bool := t.seq != .idle

/-- A state whose host acts are `acts`. -/
def acting (s : State) (acts : List HostAct) : State := { s with host := acts }

/-- A state in which MODE_ON has just begun. -/
def busyState : State := { offState with seq := .busy .modeOn (modeOnSteps Config.reference) }

/-- A state in which WAIT_FOR_CARD sleeps. -/
def asleep : State := { onState with mode := .wakeup, seq := .busy .waitForCard [.waitRise none] }

theorem witness_IllegalWordIsRefused :
    (acting State.reset [.issue 0x0500000000]).seq = .idle ∧
      (acting State.reset [.issue 0x0500000000]).host = .issue 0x0500000000 :: [] ∧
      opcOf 0x0500000000 ∉ ([0x00, 0x01, 0x02, 0x03, 0x04, 0x08, 0x09, 0x0A, 0x0B, 0x10, 0x20, 0x21, 0x24, 0x25,
        0x26, 0x27, 0x30, 0x31] : List Byte) ∧
      opcOf 0x0100000001 ≠ 0x26 ∧ opcOf 0x0100000001 ≠ 0x27 ∧ immOf 0x0100000001 ≠ 0 := by decide

theorem witness_StepRunsTheDecodedInstruction :
    (acting State.reset [.issue 0x0100000000]).seq = .idle ∧
      (acting State.reset [.issue 0x0100000000]).host = .issue 0x0100000000 :: [] ∧
      decode 0x0100000000 = .ok .modeOn := ⟨rfl, rfl, rfl⟩

theorem witness_CancelEndsOnlyTheSleep :
    (acting asleep [.cancel]).seq = .busy .waitForCard [.waitRise none] ∧
      (acting asleep [.cancel]).host = [.cancel] ∧
      (acting busyState [.cancel]).host = [.cancel] ∧
      ∀ op last todo, (acting busyState [.cancel]).seq ≠ .busy op (.waitRise last :: todo) :=
  ⟨rfl, rfl, rfl, fun _ _ _ h => by cases h⟩

theorem witness_HardwareResetRestoresTheRegisters : (acting busyState [.reset]).host = .reset :: [] := rfl

/-- Nothing to do, each latch write, a word that waits while MODE_ON runs, and an operation issued all the same. -/
theorem witness_HostActsOnlyWhileIdle :
    (onState.seq = .idle ∧ onState.host = []) ∧
      (∀ a ∈ ([.writeTx [1], .writeRxcap 9, .writeCfg [1]] : List HostAct), (acting onState [a]).host = a :: []) ∧
      (∀ a ∈ ([.writeTx [1], .issue 0x0200000000] : List HostAct), (acting busyState [a]).host = a :: [] ∧
        a ≠ .reset ∧ a ≠ .cancel ∧
        ∃ t, step { acting busyState [a] with host := [] } = .next t ∧ (t.mode == .on) = true) ∧
      busyState.seq = .busy .modeOn (modeOnSteps Config.reference) := by
  refine ⟨⟨rfl, rfl⟩, by decide, ?_, rfl⟩
  intro a ha
  simp only [List.mem_cons, List.not_mem_nil, or_false] at ha
  rcases ha with rfl | rfl <;>
    exact ⟨rfl, by simp, by simp, exists_of_step (by decide)⟩

theorem witness_MatrixRefusalChangesOnlyStatus :
    State.reset.seq = .idle ∧ permitted .modeOn State.reset = false ∧
      ∀ q ∈ ([(0, 0x20), (1, 0x07), (0, 0x18)] : List (Nat × Byte)),
        permitted .waitForCard { onState with cfg := image.set q.1 q.2 } = false := by decide

theorem witness_EndedOperationHasATableCode :
    (∃ t, exec .modeOn State.reset = .next t ∧ endedBad t = true) ∧
      ∃ t, exec .modeOff (placed onState [blank, blank] []) = .next t ∧ endedOk t = true :=
  ⟨exists_of_after (by decide), exists_of_after (by decide)⟩

theorem witness_InitIsNotRepeatable :
    (offState.seq = .idle ∧ offState.ready = true) ∧
      ∃ t, step (acting offState [.reset]) = .next t ∧ (!t.ready) = true :=
  ⟨by decide, exists_of_step (by decide)⟩

theorem witness_FatalRefusesUntilReset :
    ({ onState with fatal := true } : State).seq = .idle ∧
      ∃ t, step (acting { onState with fatal := true } [.reset]) = .next t ∧ (!t.fatal) = true :=
  ⟨rfl, exists_of_step (by decide)⟩

theorem witness_InitCompletes :
    p1State.seq = .idle ∧ permitted .init p1State = true ∧ p1.fits p1State.params p1State.clock = true ∧
      p1State.port = answered (p1.views p1State.params) ++ [] ∧ p1State.ticks = p1.ticks ++ [] := by decide

/-- The oscillator answers at the third poll. -/
theorem witness_ModeOnCompletes :
    let m := { modeOnAnswers with polls := [blank, blank] }
    let s := placed offState m.views []
    s.seq = .idle ∧ permitted .modeOn s = true ∧ m.fits = true ∧ s.port = answered m.views ++ [] := by decide

theorem witness_ModeOffCompletes :
    let s := placed onState [blank, blank] []
    s.seq = .idle ∧ permitted .modeOff s = true ∧ s.port = answered [blank, blank] ++ [] := by decide

/-- Without and with T_FIELD_ON. -/
theorem witness_FieldOnCompletes :
    ∀ d ∈ [none, some 5],
      let f := fieldOnAnswers 4
      let s := placed { onState with params := { Config.reference with tFieldOn := d } } (f.views ++ [opcOn, blank])
        [0, 0]
      s.seq = .idle ∧ permitted .fieldOn s = true ∧ f.fits s.params s.clock = true ∧
        irqSet s.params f.irqs .cac = false ∧ irqSet s.params f.irqs .cat = true ∧
        s.port = answered (f.views ++ [opcOn, blank]) ++ [] ∧
        s.ticks = f.ticks s.params ++ (if d = none then [0, 0] else []) := by decide

theorem witness_FieldOffCompletes :
    let s := placed onState [opcField, blank] []
    s.seq = .idle ∧ permitted .fieldOff s = true ∧ s.port = answered [opcField, blank] ++ [] := by decide

theorem witness_MeasurementsComplete :
    let c := { measAnswers with waits := [{ views := both 2, tick := 499 }] }
    let s := placed onState (c.views ++ [{ adcResult := 92 }]) c.ticks
    s.seq = .idle ∧ (∀ i ∈ [Instr.measAmp, .measPhase, .measCap], permitted i s = true) ∧
      c.fits s.params s.clock = true ∧ s.port = answered (c.views ++ [{ adcResult := 92 }]) ++ [] ∧
      s.ticks = c.ticks ++ [] := by decide

/-- The answers of a CAL_CAP with one pending round, whose last read is `last`. -/
def calState (tick : Nat) (last : AfeView) (ts : List Nat) : State :=
  placed onState ([blank, blank] ++ [({ view := blank, tick := tick } : CalRound)].map CalRound.view ++ [last])
    ([0, tick] ++ ts)

theorem witness_CalCapCompletes :
    let last : AfeView := { capCal := { calEnd := true, value := 17 } }
    let s := calState 499 last []
    s.seq = .idle ∧ permitted .calCap s = true ∧
      calGoesOn (s.clock + 0 + 500 * s.params.ticksPerMs) (s.clock + 0) [{ view := blank, tick := 499 }] = true ∧
      last.capCal.calErr = false ∧ last.capCal.calEnd = true ∧
      s.port = answered ([blank, blank] ++ [({ view := blank, tick := 499 } : CalRound)].map CalRound.view ++ [last]) ++
        [] ∧
      s.ticks = 0 :: [({ view := blank, tick := 499 } : CalRound)].map CalRound.tick ++ [] := by decide

theorem witness_WaitForCardCompletes :
    let s := wakeState [true, false, true]
    s.seq = .idle ∧ permitted .waitForCard s = true ∧ wakeAnswers.fits s.params s.mode s.cfg s.clock = true ∧
      s.port = answered (wakeAnswers.views s.mode s.cfg) ++ [] ∧ s.ticks = wakeAnswers.ticks s.cfg ++ [] ∧
      s.line = List.replicate 1 true ++ List.replicate (0 + 1) false ++ true :: [] := by decide

/-- The guard interval of 5 ticks: a timer read at 4, and one at 5. -/
theorem witness_StartACompletes :
    let m := modeOnAnswers
    let f := fieldOnAnswers 4
    let s := placed offState (m.views ++ f.views ++ [opcOn, blank]) [200, 4, 1]
    let t0 := f.clockAfter s.params s.clock + 200
    s.seq = .idle ∧ permitted .startA s = true ∧ m.fits = true ∧ f.fits s.params s.clock = true ∧
      irqSet s.params f.irqs .cac = false ∧ irqSet s.params f.irqs .cat = true ∧
      delayGoesOn (t0 + s.params.tGuard) t0 [4] = true ∧ t0 + s.params.tGuard ≤ delayClock t0 [4] + 1 ∧
      s.port = answered (m.views ++ f.views ++ [opcOn, blank]) ++ [] ∧
      s.ticks = f.ticks s.params ++ 200 :: [4] ++ 1 :: [] := by decide

/-- P5, from a 14443A and from an ISO-DEP session. -/
theorem witness_SessionEndCompletes :
    ∀ s ∈ [sessState, depState],
      let t : State := { s with port := (FieldOffHalf.readFails 1).answers ++ (ModeOffHalf.stopFails 2).answers }
      t.seq = .idle ∧ permitted .sessionEnd t = true ∧ 
        t.port = (FieldOffHalf.readFails 1).answers ++ (ModeOffHalf.stopFails 2).answers ++ [] := by decide

theorem witness_RequestsComplete :
    let x : Xcv := { kind := .reqA, bits := 0, tx := [], cap := 8, dest := .host }
    let sc := xcvAnswers 5 0x10
    let r := rxAnswers 8 []
    let s := placed sessState (sc.views ++ r.views) sc.ticks
    hostExchange .xcvReqa s = some (x, 1024) ∧ hostExchange .xcvWupa s = some ({ x with kind := .wupA }, 1024) ∧
      s.seq = .idle ∧ permitted .xcvReqa s = true ∧ permitted .xcvWupa s = true ∧
      sc.fits s.params x 1024 s.clock = true ∧ sc.fits s.params { x with kind := .wupA } 1024 s.clock = true ∧
      received s.params .reqA sc.irqs = true ∧ received s.params .wupA sc.irqs = true ∧ r.clean = true ∧
      r.count ≤ s.rxcap ∧ s.port = answered (sc.views ++ r.views) ++ [] ∧ s.ticks = sc.ticks ++ [] := by decide

/-- The answers of an anticollision exchange of 12 bits that fill RX to RXCAP, without and with a collision. -/
def anticollMore (w : Word32) : List AfeView :=
  if irqSet Config.reference w .col then [{ collision := { cByte := 1, cBit := 3 } }] else []

theorem witness_AnticollCompletes :
    ∀ q ∈ ([(0x10, false), (0x50, true)] : List (Nat × Bool)),
      let x : Xcv := { kind := .anticoll, bits := 12, tx := [0x93, 0x2A], cap := 8, dest := .host }
      let sc := xcvAnswers 7 (BitVec.ofNat 32 q.1)
      let r := rxAnswers 7 []
      let s := placed { sessState with tx := [0x93, 0x2A] } (sc.views ++ r.views ++ anticollMore sc.irqs) sc.ticks
      hostExchange (.xcvAnticoll 12) s = some (x, 1024) ∧ s.seq = .idle ∧ permitted (.xcvAnticoll 12) s = true ∧
        sc.fits s.params x 1024 s.clock = true ∧ received s.params .anticoll sc.irqs = true ∧ r.clean = true ∧
        max (12 / 8 + r.count) ((12 + 7) / 8) ≤ s.rxcap ∧ irqSet s.params sc.irqs .col = q.2 ∧
        s.port = answered (sc.views ++ r.views ++ anticollMore sc.irqs) ++ [] ∧ s.ticks = sc.ticks ++ [] := by decide

/-- Counts of 2 and of RXCAP + 2. -/
theorem witness_StandardCompletes :
    ∀ n ∈ [2, 10],
      let x : Xcv := { kind := .standard, bits := 0, tx := [], cap := 8, dest := .host }
      let sc := xcvAnswers 7 0x10
      let r := rxAnswers n []
      let s := placed sessState (sc.views ++ r.views) sc.ticks
      hostExchange (.xcvStandard 0) s = some (x, 0) ∧ s.seq = .idle ∧ permitted (.xcvStandard 0) s = true ∧
        sc.fits s.params x 0 s.clock = true ∧ acceptedStandard s.params s.rxcap sc r = true ∧
        s.port = answered (sc.views ++ r.views) ++ [] ∧ s.ticks = sc.ticks ++ [] := by decide

/-- Frame-size indices 0 and 8. -/
theorem witness_DepNewCompletes :
    ∀ q ∈ ([(0x70, 16), (0x78, 256)] : List (Byte × Nat)),
      let sc := xcvAnswers 7 0x10
      let r := rxAnswers 4 [0x02, q.1]
      let s := placed sessState (sc.views ++ r.views) sc.ticks
      s.seq = .idle ∧ permitted .depNew s = true ∧
        sc.fits s.params (activation s.params) s.params.tRats s.clock = true ∧
        acceptedStandard s.params s.params.atsCap sc r = true ∧ 2 ≤ r.payload.length ∧
        ((r.payload.getD 1 0).toNat % 16, q.2) ∈
          [(0, 16), (1, 24), (2, 32), (3, 40), (4, 48), (5, 64), (6, 96), (7, 128), (8, 256)] ∧
        s.port = answered (sc.views ++ r.views) ++ [] ∧ s.ticks = sc.ticks ++ [] := by decide

/-- A completed exchange inside DEP_XCV with this payload. -/
def block (payload : List Byte) : BlockScript where
  sc := xcvAnswers 7 0x10
  r := rxAnswers (payload.length + 2) payload

/-- DEP_XCV with the answers of these exchanges placed. -/
def blocksState (tx : List Byte) (rxcap : Nat) (l : List BlockScript) : State :=
  placed { depState with tx := tx, rxcap := rxcap } (l.flatMap BlockScript.views) (l.flatMap (fun q => q.sc.ticks))

/-- One S(WTX) request, then a payload of RXCAP bytes; the frame has FSC bytes. -/
theorem witness_DepXcvCompletes :
    let wtx := [block [0xF2, 0xC5]]
    let b := block [0x02, 0xBB]
    let s := blocksState (List.replicate 15 0xAA) 1 (wtx ++ [b])
    let tx := wtxNext (headerOf s :: s.tx) wtx
    let clock := wtxClock s.clock wtx
    s.seq = .idle ∧ permitted .depXcv s = true ∧ s.tx.length + 1 ≤ s.fsc.toNat ∧
      wtxFits s (headerOf s) s.clock (headerOf s :: s.tx) wtx = true ∧
      b.sc.fits s.params (blockXcv s (headerOf s) tx) s.params.tDep clock = true ∧
      acceptedStandard s.params s.params.depCap b.sc b.r = true ∧ b.r.payload = headerOf s :: [0xBB] ∧
      [(0xBB : Byte)].length ≤ s.rxcap ∧
      s.port = answered (wtx.flatMap BlockScript.views ++ b.views) ++ [] ∧
      s.ticks = wtx.flatMap (fun q => q.sc.ticks) ++ b.sc.ticks ++ [] := by decide

theorem witness_PortFaultEndsTheOperation :
    let s : State := { busyState with seq := .busy .modeOn [.cmd .stop, .setMode .on], port := [.fail 7] }
    s.seq = .busy .modeOn (.cmd .stop :: [.setMode .on]) ∧ transactionOf (.cmd .stop) = some (.cmd .stop) ∧
      s.port = .fail 7 :: [] ∧ s.host = [] ∧
      ∀ q ∈ ([.setMode .on] : List Micro), q ≠ .startAGuard ∧ ∀ a, q ≠ .attemptEnd a :=
  ⟨rfl, rfl, rfl, rfl, by simp⟩

/-- The collision alone, and beside avoidance-complete (V41-7). -/
theorem witness_FieldCollisionLeavesTheFieldOff :
    ∀ q ∈ ([(0x02, false), (0x06, true)] : List (Nat × Bool)),
      let f := fieldOnAnswers (BitVec.ofNat 32 q.1)
      let s := placed onState f.views []
      s.seq = .idle ∧ permitted .fieldOn s = true ∧ f.fits s.params s.clock = true ∧
        irqSet s.params f.irqs .cac = true ∧ irqSet s.params f.irqs .cat = q.2 ∧
        s.port = answered f.views ++ [] ∧ s.ticks = f.ticks s.params ++ [] := by decide

/-- The timer reads exactly the deadline. -/
theorem witness_FieldOnTimesOut :
    let f := fieldOnAnswers 0
    let s := placed { onState with params := { Config.reference with tFieldOn := some 5 } } f.views [0, 0, 5]
    s.seq = .idle ∧ permitted .fieldOn s = true ∧ s.params.tFieldOn = some 5 ∧ f.fits s.params s.clock = true ∧
      irqSet s.params f.irqs .cac = false ∧ irqSet s.params f.irqs .cat = false ∧
      s.clock + f.tick + 5 ≤ f.clockAfter s.params s.clock + 5 ∧ s.port = answered f.views ++ [] ∧
      s.ticks = f.ticks s.params ++ 5 :: [] := by decide

/-- The answers of MODE_ON and FIELD_ON with nothing behind them, then these. -/
def startFails (d : Option Nat) (w : Word32) (b : ModeOffHalf) (ts : List Nat) : State :=
  { offState with
    params := { Config.reference with tFieldOn := d }
    port := answered (modeOnAnswers.views ++ (fieldOnAnswers w).views) ++ b.answers
    ticks := ts }

/-- A port fault in MODE_ON, and one in path F. -/
def faultInModeOn : State := { offState with port := .fail 9 :: (ModeOffHalf.stopFails 3).answers }

/-- A port fault in FIELD_ON, and one in path F. -/
def faultInFieldOn : State :=
  { offState with port := answered modeOnAnswers.views ++ .fail 9 :: (ModeOffHalf.stopFails 3).answers }

/-- A port fault in MODE_ON, and one in FIELD_ON (the first two parts), each with path F failing at its first
transaction; a collision, and a timeout at exactly the deadline (the third part). -/
theorem witness_StartAFailureTurnsOff :
    (faultInModeOn.seq = .idle ∧ permitted .startA faultInModeOn = true ∧
      ∃ t, exec .modeOn faultInModeOn = .next t ∧
        (endedBad t && t.port == (ModeOffHalf.stopFails 3).answers ++ []) = true) ∧
    (faultInFieldOn.seq = .idle ∧ permitted .startA faultInFieldOn = true ∧
      ∃ t, exec .modeOn faultInFieldOn = .next t ∧
        (endedOk t && (after .fieldOn t (fun u =>
          endedBad u && u.port == (ModeOffHalf.stopFails 3).answers ++ [])).getD false) = true) ∧
    ∀ q ∈ ([(none, 2, []), (some 5, 0, [0, 0, 5])] : List (Option Nat × Nat × List Nat)),
      let f := fieldOnAnswers (BitVec.ofNat 32 q.2.1)
      let b := ModeOffHalf.writeFails blank 3
      let s := startFails q.1 (BitVec.ofNat 32 q.2.1) b q.2.2
      s.seq = .idle ∧ permitted .startA s = true ∧ modeOnAnswers.fits = true ∧ f.fits s.params s.clock = true ∧
        s.port = answered (modeOnAnswers.views ++ f.views) ++ b.answers ++ [] ∧
        s.ticks = f.ticks s.params ++ (if q.1 = none then [] else [5]) ∧
        irqSet s.params f.irqs .cac = q.1.isNone ∧ irqSet s.params f.irqs .cat = false ∧
        (q.1 = some 5 → s.clock + f.tick + 5 ≤ f.clockAfter s.params s.clock + 5) :=
  ⟨⟨rfl, by decide, exists_of_after (by decide)⟩, ⟨rfl, by decide, exists_of_after (by decide)⟩, by decide⟩

/-- V60-1: refreshes at 499 and at 500 ticks. -/
theorem witness_MeasurementTimesOut :
    let c : CmdScript := { measAnswers with waits := [{ views := both 0, tick := 499 }], last := both 0 }
    let s := placed onState c.views (c.ticks ++ [1])
    let deadline := s.clock + c.tick + 500 * s.params.ticksPerMs
    s.seq = .idle ∧ (∀ i ∈ [Instr.measAmp, .measPhase, .measCap], permitted i s = true) ∧
      c.drain.length = nIrq s.params ∧ c.last.length = nIrq s.params ∧
      loopGoesOn s.params (fun w => irqSet s.params w .dct) deadline (s.clock + c.tick) 0 c.waits = true ∧
      irqSet s.params c.irqs .dct = false ∧ deadline ≤ c.clockAfter s.clock + 1 ∧
      s.port = answered c.views ++ [] ∧ s.ticks = c.ticks ++ 1 :: [] := by decide

/-- E7 (c), and E7 (a) at exactly the deadline. -/
theorem witness_CalCapFaultsAndTimesOut :
    (∀ q ∈ ([({ capCal := { calErr := true, calEnd := true } }, []), (blank, [1])] : List (AfeView × List Nat)),
      let s := calState 499 q.1 q.2
      s.seq = .idle ∧ permitted .calCap s = true ∧
        calGoesOn (s.clock + 0 + 500 * s.params.ticksPerMs) (s.clock + 0) [{ view := blank, tick := 499 }] = true ∧
        s.port = answered ([blank, blank] ++ [({ view := blank, tick := 499 } : CalRound)].map CalRound.view ++ [q.1]) ++
          [] ∧
        s.ticks = 0 :: [({ view := blank, tick := 499 } : CalRound)].map CalRound.tick ++ q.2) ∧
      500 ≤ calClock 0 [{ view := blank, tick := 499 }] + 1 := by decide

/-- An exchange of each kind of operation: XCV_STANDARD, DEP_NEW, and DEP_XCV after one S(WTX) request. -/
inductive Inner where
  | standard | activation | reply
  deriving DecidableEq, Repr

/-- The operation. -/
def Inner.op : Inner → Instr
  | .standard => .xcvStandard 0
  | .activation => .depNew
  | .reply => .depXcv

/-- The exchanges answered with S(WTX) before it. -/
def Inner.wtx : Inner → List BlockScript
  | .reply => [block [0xF2, 0xC5]]
  | _ => []

/-- The exchange. -/
def Inner.xcv : Inner → Xcv
  | .standard => { kind := .standard, bits := 0, tx := [], cap := 8, dest := .host }
  | .activation => { kind := .standard, bits := 0, tx := [0xE0, 0x80], cap := 32, dest := .depNew }
  | .reply => { kind := .standard, bits := 0, tx := [0xF2, 0x05], cap := 256, dest := .depXcv 0x02 8 }

/-- Its requested timeout. -/
def Inner.timeout : Inner → Nat
  | .standard => 0
  | _ => 100000

/-- The state in which the operation is issued, with these answers behind those of the rounds before. -/
def Inner.state (k : Inner) (views : List AfeView) (ticks : List Nat) : State :=
  placed (if k = .reply then depState else sessState) (roundViews k.wtx ++ views) (roundTicks k.wtx ++ ticks)

/-- The three. -/
def inners : List Inner := [.standard, .activation, .reply]

/-- V44-1 to V44-6: each error with the ones it comes before. -/
theorem witness_ExchangeErrorsInPriorityOrder :
    ∀ k ∈ inners, ∀ q ∈ ([(0x0770, 0x02), (0x0750, 0x03), (0x0650, 0x04), (0x0450, 0x05), (0x0050, 0x06)] :
        List (Nat × Byte)),
      let sc := xcvAnswers 7 (BitVec.ofNat 32 q.1)
      let s := k.state (sc.views ++ [blank]) sc.ticks
      exchangeOf k.op s k.wtx = some (k.xcv, k.timeout) ∧ s.seq = .idle ∧ permitted k.op s = true ∧
        sc.fits s.params k.xcv k.timeout (wtxClock s.clock k.wtx) = true ∧
        some q.2 = (if irqSet s.params sc.irqs .nre then some 0x02 else if irqSet s.params sc.irqs .errFrame
          then some 0x03 else if irqSet s.params sc.irqs .errPar then some 0x04
          else if irqSet s.params sc.irqs .errCrc then some 0x05
          else if irqSet s.params sc.irqs .col ∧ k.xcv.kind ≠ .anticoll then some 0x06 else none) ∧
        s.port = answered (roundViews k.wtx ++ sc.views ++ [blank]) ++ [] ∧
        s.ticks = roundTicks k.wtx ++ sc.ticks ++ [] := by decide

/-- V44-9, at exactly the deadline. -/
theorem witness_ExchangeOuterDeadline :
    ∀ k ∈ inners,
      let sc := xcvAnswers 7 0
      let s := k.state (sc.views ++ [blank]) (sc.ticks ++ [500])
      let clock := wtxClock s.clock k.wtx
      exchangeOf k.op s k.wtx = some (k.xcv, k.timeout) ∧ s.seq = .idle ∧ permitted k.op s = true ∧
        sc.fits s.params k.xcv k.timeout clock = true ∧ decided s.params k.xcv.kind sc.irqs = false ∧
        sc.clockRx clock + 500 * s.params.ticksPerMs ≤ sc.clockAfter clock + 500 ∧
        s.port = answered (roundViews k.wtx ++ sc.views ++ [blank]) ++ [] ∧
        s.ticks = roundTicks k.wtx ++ sc.ticks ++ 500 :: [] := by decide

/-- V44-10. -/
theorem witness_TransmissionTimesOutWithoutStop :
    ∀ k ∈ inners,
      let setup := List.replicate 7 blank
      let s := k.state (setup ++ both 0 ++ [blank] ++ both 0) [0, 500]
      let t0 := wtxClock s.clock k.wtx + 0
      exchangeOf k.op s k.wtx = some (k.xcv, k.timeout) ∧ s.seq = .idle ∧ permitted k.op s = true ∧
        setup.length = (setupEvents s.params k.xcv k.timeout).length ∧ (both 0).length = nIrq s.params ∧
        loopGoesOn s.params (fun w => irqSet s.params w .txe) (t0 + 500 * s.params.ticksPerMs) t0 0 [] = true ∧
        irqSet s.params (gather (loopIrqs 0 []) 0 (both 0)) .txe = false ∧
        t0 + 500 * s.params.ticksPerMs ≤ loopClock t0 [] + 500 ∧
        s.port = answered (roundViews k.wtx ++ setup ++ both 0 ++ [blank] ++ loopViews [] ++ both 0) ++ [] ∧
        s.ticks = roundTicks k.wtx ++ 0 :: loopTicks [] ++ 500 :: [] := by decide

/-- V44-11 to V44-13. -/
theorem witness_FifoFaultsEndTheExchange :
    ∀ k ∈ inners, ∀ q ∈ ([({ ovr := true, undr := true, npLb := true }, 0x07), ({ undr := true, npLb := true }, 0x08),
        ({ npLb := true }, 0x09)] : List (FifoStatusB × Byte)),
      let sc := xcvAnswers 7 0x10
      let b : AfeView := { fifoB := q.1 }
      let s := k.state (sc.views ++ [blank, b]) sc.ticks
      exchangeOf k.op s k.wtx = some (k.xcv, k.timeout) ∧ s.seq = .idle ∧ permitted k.op s = true ∧
        sc.fits s.params k.xcv k.timeout (wtxClock s.clock k.wtx) = true ∧
        received s.params k.xcv.kind sc.irqs = true ∧
        some q.2 = (if b.fifoB.ovr then some 0x07 else if b.fifoB.undr then some 0x08
          else if b.fifoB.npLb then some 0x09 else none) ∧
        s.port = answered (roundViews k.wtx ++ sc.views ++ [blank, b]) ++ [] ∧
        s.ticks = roundTicks k.wtx ++ sc.ticks ++ [] := by decide

/-- A response of `count` bytes. -/
def countAnswers (count : Nat) : RxScript where
  stop := blank
  fifoB := { fifoB := { countHi := decide (256 ≤ count) } }
  fifoA := { countLo := BitVec.ofNat 8 (count % 256) }
  fifo := blank

/-- V44-15 and V44-18 for each capacity (RXCAP 8, ATS_CAP 32, DEP_CAP 256): 1 byte, and one more than the capacity and
the CRC. -/
theorem witness_ResponseLengthIsChecked :
    ∀ k ∈ inners, ∀ q ∈ ([(1, 0x0B), (k.xcv.cap + 3, 0x0C)] : List (Nat × Byte)),
      let sc := xcvAnswers 7 0x10
      let r := countAnswers q.1
      let s := k.state (sc.views ++ [r.stop, r.fifoB, r.fifoA]) sc.ticks
      let cap := if k.op = .depNew then s.params.atsCap else if k.op = .depXcv then s.params.depCap else s.rxcap
      exchangeOf k.op s k.wtx = some (k.xcv, k.timeout) ∧ s.seq = .idle ∧ permitted k.op s = true ∧
        sc.fits s.params k.xcv k.timeout (wtxClock s.clock k.wtx) = true ∧
        received s.params k.xcv.kind sc.irqs = true ∧ r.clean = true ∧ r.count = q.1 ∧
        some q.2 = (if r.count < 2 then some 0x0B else if r.count > cap + 2 then some 0x0C else none) ∧
        s.port = answered (roundViews k.wtx ++ sc.views ++ [r.stop, r.fifoB, r.fifoA]) ++ [] ∧
        s.ticks = roundTicks k.wtx ++ sc.ticks ++ [] := by decide

/-- The other clauses of that statement: a request answered with RXCAP + 1 bytes, and an anticollision frame one byte
too long (V44-23). -/
theorem witness_ResponseLengthIsChecked_raw :
    ∀ q ∈ ([(.xcvReqa, { kind := .reqA, bits := 0, tx := [], cap := 8, dest := .host }, 5, 9),
        (.xcvWupa, { kind := .wupA, bits := 0, tx := [], cap := 8, dest := .host }, 5, 9),
        (.xcvAnticoll 16, { kind := .anticoll, bits := 16, tx := [0x93, 0x20], cap := 8, dest := .host }, 7, 7)] :
        List (Instr × Xcv × Nat × Nat)),
      let sc := xcvAnswers q.2.2.1 0x10
      let r := countAnswers q.2.2.2
      let s := placed { sessState with tx := [0x93, 0x20] } (sc.views ++ [r.stop, r.fifoB, r.fifoA]) sc.ticks
      exchangeOf q.1 s [] = some (q.2.1, 1024) ∧ s.seq = .idle ∧ permitted q.1 s = true ∧
        sc.fits s.params q.2.1 1024 s.clock = true ∧ received s.params q.2.1.kind sc.irqs = true ∧ r.clean = true ∧
        s.rxcap + 1 = max (q.2.1.bits / 8 + r.count) ((q.2.1.bits + 7) / 8) ∧
        s.port = answered (roundViews [] ++ sc.views ++ [r.stop, r.fifoB, r.fifoA]) ++ [] ∧
        s.ticks = roundTicks [] ++ sc.ticks ++ [] := by decide

/-- V45-1, V45-2 and E2: one byte, none, and the index 9. -/
theorem witness_DepNewRejectsTheAnswer :
    ∀ q ∈ ([[], [0x05], [0x02, 0x79]] : List (List Byte)),
      let sc := xcvAnswers 7 0x10
      let r := rxAnswers (q.length + 2) q
      let s := placed sessState (sc.views ++ r.views) sc.ticks
      s.seq = .idle ∧ permitted .depNew s = true ∧
        sc.fits s.params (activation s.params) s.params.tRats s.clock = true ∧
        acceptedStandard s.params s.params.atsCap sc r = true ∧
        (r.payload.length < 2 ∨ 9 ≤ (r.payload.getD 1 0).toNat % 16) ∧
        s.port = answered (sc.views ++ r.views) ++ [] ∧ s.ticks = sc.ticks ++ [] := by decide

/-- V45-6. -/
theorem witness_TxFrameTooBigBeforeAnyTransaction :
    let s : State := { depState with tx := List.replicate 16 0 }
    s.seq = .idle ∧ permitted .depXcv s = true ∧ s.fsc.toNat < s.tx.length + 1 := by decide

/-- V45-8, V45-14 and V45-16, each after an S(WTX) request. -/
theorem witness_DepXcvRejectsTheResponse :
    ∀ q ∈ ([([], 0x0F), ([0x03, 0xBB], 0x0F), ([0x02, 1, 2, 3], 0x0E)] : List (List Byte × Byte)),
      let wtx := [block [0xF2, 0xC5]]
      let b := block q.1
      let s := blocksState [0xAA] 2 (wtx ++ [b])
      let tx := wtxNext (headerOf s :: s.tx) wtx
      s.seq = .idle ∧ permitted .depXcv s = true ∧ s.tx.length + 1 ≤ s.fsc.toNat ∧
        wtxFits s (headerOf s) s.clock (headerOf s :: s.tx) wtx = true ∧
        b.sc.fits s.params (blockXcv s (headerOf s) tx) s.params.tDep (wtxClock s.clock wtx) = true ∧
        acceptedStandard s.params s.params.depCap b.sc b.r = true ∧ b.isWtx = false ∧
        some q.2 = (match b.r.payload with
          | [] => some 0x0F
          | h :: payload => if h ≠ headerOf s then some 0x0F
            else if payload.length > s.rxcap then some 0x0E else none) ∧
        s.port = answered (wtx.flatMap BlockScript.views ++ b.views) ++ [] ∧
        s.ticks = wtx.flatMap (fun q => q.sc.ticks) ++ b.sc.ticks ++ [] := by decide

/-- V60-1 and V60-2: the bit in the refresh before the deadline test, and the expiry at exactly the deadline. -/
theorem witness_IrqWaitSeesItsBitOrTimesOut :
    ∀ q ∈ ([(0, false), (1, true)] : List (Nat × Bool)),
      let waits : List Round := [{ views := both 0, tick := 4 }]
      let s : State := placed { onState with seq := .busy .measAmp [.startTimer (.irqWait .dct 5), .returnAdc] }
        (loopViews waits ++ both (BitVec.ofNat 32 q.1)) [10, 4, 1]
      loopGoesOn s.params (fun v => irqSet s.params v .dct) 15 10 s.irqs waits = true ∧
        (both (BitVec.ofNat 32 q.1)).length = nIrq s.params ∧
        s.port = answered (loopViews waits ++ both (BitVec.ofNat 32 q.1)) ++ [] ∧
        s.ticks = 10 :: loopTicks waits ++ [1] ∧ 15 ≤ loopClock 10 waits + 1 ∧
        irqSet s.params (gather (loopIrqs s.irqs waits) 0 (both (BitVec.ofNat 32 q.1))) .dct = q.2 := by decide

theorem witness_RefreshAccumulatesAndClearEmpties :
    (both 0x210).length = nIrq onState.params ∧
      (placed onState (both 0x210) []).port = answered (both 0x210) ++ [] := by decide

theorem witness_SessionInvariantKept :
    sessionInv (acting sessState [.issue 0x2100000000]) = true ∧
      (∃ t, step (acting sessState [.issue 0x2100000000]) = .next t ∧ running t = true) ∧
      sessionInv (acting busyState [.reset]) = true ∧ 
      ∃ t, step (acting busyState [.reset]) = .next t ∧ (t.seq == .idle) = true :=
  ⟨by decide, exists_of_step (by decide), by decide, exists_of_step (by decide)⟩

theorem witness_UnusedInterruptBitsStayZero :
    let s := acting (placed onState (both 0xFFFFFFFF ++ [blank] ++ both 0xFFFFFFFF) [0]) [.issue 0x0800000000]
    irqsInv s = true ∧ ∃ t, step s = .next t ∧ (t.irqs == 0xFFFF) = true :=
  ⟨by decide, exists_of_step (by decide)⟩

theorem witness_ModeMovesAlongItsEdges :
    sessionInv busyState = true ∧ (ctrlStep busyState).map State.mode = some .on := by decide

theorem witness_OperandLatchesAreReadOnly :
    ∃ t, exec .waitForCard (wakeState [true, false, true, true]) = .next t ∧
      (endedOk t && t.line == [true]) = true :=
  exists_of_after (by decide)

/-- Running, ended Ok by a receiving operation, and by another one. -/
theorem witness_ResultLatchesAreWrittenAtTheEnd :
    (∃ t, exec .modeOn offState = .next t ∧ running t = true) ∧
      (∃ t, exec .xcvReqa (placed sessState (xcvViews 5 0x10 (rxAnswers 2 [4, 0]) []) [300, 1]) = .next t ∧
        endedOk t = true) ∧
      ∃ t, exec .modeOff (placed onState [blank, blank] []) = .next t ∧ endedOk t = true :=
  ⟨exists_of_after (by decide), exists_of_after (by decide), exists_of_after (by decide)⟩

theorem witness_EveryAnswerIsOneEvent :
    ∃ t, exec .modeOff { onState with port := [.fail 1, .done blank] } = .next t ∧
      (endedBad t && t.port.length == 1) = true :=
  exists_of_after (by decide)

/-- Stopped for want of an answer, and ended. -/
theorem witness_OperationEndsOrAwaitsAnAnswer :
    onState.seq = .idle ∧ (∃ t, exec .modeOff onState = .next t ∧ awaitsAnswer t = true) ∧
      ∃ t, exec .modeOff (placed onState [blank, blank] []) = .next t ∧ endedOk t = true :=
  ⟨rfl, exists_of_after (by decide), exists_of_after (by decide)⟩

theorem witness_ExchangeWritesOnlyInterrupts :
    ∃ t, exec .xcvReqa (placed sessState (xcvViews 5 0x10 (rxAnswers 2 [4, 0]) []) [300, 1]) = .next t ∧
      (endedOk t && t.irqs == 0x18) = true :=
  exists_of_after (by decide)

/-- Each of the four operations. -/
theorem witness_ModeAndFieldFrame :
    (∃ t, exec .modeOn (placed offState modeOnAnswers.views []) = .next t ∧ endedOk t = true) ∧
      (∃ t, exec .modeOff (placed onState [blank, blank] []) = .next t ∧ endedOk t = true) ∧
      (∃ t, exec .fieldOn (placed onState ((fieldOnAnswers 4).views ++ [opcOn, blank]) []) = .next t ∧
        endedOk t = true) ∧
      ∃ t, exec .fieldOff (placed onState [opcField, blank] []) = .next t ∧ endedOk t = true :=
  ⟨exists_of_after (by decide), exists_of_after (by decide), exists_of_after (by decide),
    exists_of_after (by decide)⟩

/-- READY set by INIT, FATAL by CAL_CAP, and neither by a measurement. -/
theorem witness_InitAndMeasurementFrame :
    (∃ t, exec .init p1State = .next t ∧ (endedOk t && t.ready) = true) ∧
      (∃ t, exec .calCap (calState 1 { capCal := { calErr := true } } []) = .next t ∧ (endedBad t && t.fatal) = true) ∧
      ∃ t, exec .measAmp (placed onState (measAnswers.views ++ [blank]) measAnswers.ticks) = .next t ∧
        endedOk t = true :=
  ⟨exists_of_after (by decide), exists_of_after (by decide), exists_of_after (by decide)⟩

/-- Ended Ok; a port fault in S1 from Off, which leaves On; one at the first transaction after S1, which leaves Wakeup;
running, and refused. -/
theorem witness_WaitForCardFrame :
    let off : State := { offState with cfg := image }
    (∃ t, exec .waitForCard (wakeState [true, false, true]) = .next t ∧ endedOk t = true) ∧
      (permitted .waitForCard off = true ∧ off.mode = .off) ∧
      (∃ t, exec .waitForCard { off with port := [.fail 1] } = .next t ∧ (endedBad t && t.mode == .on) = true) ∧
      (∃ t, exec .waitForCard { off with port := answered modeOnAnswers.views ++ [.fail 1] } = .next t ∧
        (endedBad t && t.mode == .wakeup) = true) ∧
      (∃ t, exec .waitForCard off = .next t ∧ (running t && t.mode == .on) = true) ∧
      ∃ t, exec .waitForCard { off with cfg := [] } = .next t ∧ (endedBad t && t.mode == .off) = true :=
  ⟨exists_of_after (by decide), by decide, exists_of_after (by decide), exists_of_after (by decide),
    exists_of_after (by decide), exists_of_after (by decide)⟩

/-- START_A Ok, in error and running; SESSION_END Ok. -/
theorem witness_SessionBoundariesFrame :
    (∃ t, exec .startA (placed offState (modeOnAnswers.views ++ (fieldOnAnswers 4).views ++ [opcOn, blank])
        [200, 5]) = .next t ∧ endedOk t = true) ∧
      (∃ t, exec .startA (placed offState (modeOnAnswers.views ++ (fieldOnAnswers 2).views ++ [blank, blank]) []) =
        .next t ∧ endedBad t = true) ∧
      (∃ t, exec .startA offState = .next t ∧ running t = true) ∧
      ∃ t, exec .sessionEnd (placed sessState [opcField, blank, blank, blank] []) = .next t ∧ endedOk t = true :=
  ⟨exists_of_after (by decide), exists_of_after (by decide), exists_of_after (by decide),
    exists_of_after (by decide)⟩

/-- DEP_NEW and DEP_XCV, Ok and in error. -/
theorem witness_DepFrame :
    (∃ t, exec .depNew (placed sessState (block [0x02, 0x78]).views [300, 1]) = .next t ∧ endedOk t = true) ∧
      (∃ t, exec .depNew (placed sessState (block [0x02, 0x79]).views [300, 1]) = .next t ∧ endedBad t = true) ∧
      (∃ t, exec .depXcv (blocksState [0xAA] 1 [block [0x02, 0xBB]]) = .next t ∧ endedOk t = true) ∧
      ∃ t, exec .depXcv (blocksState [0xAA] 1 [block [0x03, 0xBB]]) = .next t ∧ endedBad t = true :=
  ⟨exists_of_after (by decide), exists_of_after (by decide), exists_of_after (by decide),
    exists_of_after (by decide)⟩

/-- A DEP_NEW that ends in a session of ISO-DEP, and an exchange that does not. -/
theorem witness_FrameSizeAndSpinAreReadInDepOnly :
    sessState.sess ≠ .dep ∧
      (∃ t, exec .depNew (placed sessState (block [0x02, 0x78]).views [300, 1]) = .next t ∧ (t.sess == .dep) = true) ∧
      ∃ t, exec .xcvReqa (placed sessState (xcvViews 5 0x10 (rxAnswers 2 [4, 0]) []) [300, 1]) = .next t ∧
        (t.sess == .a) = true :=
  ⟨by decide, exists_of_after (by decide), exists_of_after (by decide)⟩

theorem witness_RequestsIgnoreTx :
    [(0x93 : Byte)].length ≤ sessState.params.txbufCap ∧ sessState.tx.length ≤ sessState.params.txbufCap ∧
      ∃ t, exec .xcvWupa (placed sessState (xcvViews 5 0x10 (rxAnswers 2 [4, 0]) []) [300, 1]) = .next t ∧
        endedOk t = true :=
  ⟨by decide, by decide, exists_of_after (by decide)⟩

end Sys2Proof.Tests
end

section
/-! SUPPORT. FATAL is kept until a hardware reset (10 R28). Outside a run of CTRL only the hardware reset writes READY,
FATAL, MODE and SESS, so what every step of CTRL keeps of them every step of the machine keeps; and no step of CTRL
clears FATAL. -/

namespace Sys2Proof.Machine

/-! ## READY, FATAL, MODE and SESS under one step of the machine -/

/-- A free answer of ENV or TIMER writes no register. -/
theorem regsOf_supply (s : State) : regsOf (supply s) = regsOf s := by
  unfold supply
  repeat' split
  all_goals rfl

/-- CANCEL writes no register, whether it ends the sleep or is ignored (43 R179). -/
theorem regsOf_cancelBusy (todo : List Micro) (s : State) : regsOf (cancelBusy todo s) = regsOf s := by
  unfold cancelBusy
  split <;> rfl

/-- Everything `exec` can do when it gives a next state: it refuses, or CTRL runs the operation's steps. -/
theorem exec_next_cases {i : Instr} {s t : State} (h : exec i s = .next t) :
    t = refuse s ∨ t = runToStop (s.goTo i (stepsOf i s)) := by
  cases hs : s.seq with
  | busy op todo =>
    rw [exec_eq_issue, issue, hs] at h
    nomatch h
  | idle =>
    rw [exec_idle hs, Host.Outcome.next.injEq] at h
    split at h
    · exact .inr h.symm
    · exact .inl h.symm

section
variable {P : Regs → Prop} (hP : ∀ {a b : State}, ctrlStep a = some b → P (regsOf a) → P (regsOf b))

include hP

/-- What every step of CTRL keeps of the registers, `exec` keeps. -/
theorem exec_keeps_regs {i : Instr} {s t : State} (h : exec i s = .next t) (hs : P (regsOf s)) :
    P (regsOf t) := by
  rcases exec_next_cases h with rfl | rfl
  · exact hs
  · exact runToStop_keeps (P := fun u => P (regsOf u)) hP hs

/-- What every step of CTRL keeps of the registers, the issue of a command word keeps. -/
theorem issueWord_keeps_regs {w : CmdWord} {s t : State} (h : issueWord w s = .next t) (hs : P (regsOf s)) :
    P (regsOf t) := by
  unfold issueWord at h
  split at h
  case h_1 => exact exec_keeps_regs hP h hs
  case h_2 => cases h; exact hs

/-- What every step of CTRL keeps of the registers, the host's acts other than the reset keep while SEQ is Idle. -/
theorem hostActIdle_keeps_regs {act : HostAct} {s t : State} (hact : act ≠ .reset)
    (h : hostActIdle act s = .next t) (hs : P (regsOf s)) : P (regsOf t) := by
  cases act with
  | reset => exact absurd rfl hact
  | issue w => exact issueWord_keeps_regs hP h hs
  | writeTx _ | writeRxcap _ | writeCfg _ | cancel => cases h; exact hs

/-- What every step of CTRL keeps of the registers, a step while an operation runs keeps, unless the host resets. -/
theorem stepBusy_keeps_regs {todo : List Micro} {s : State} (hr : s.host.head? ≠ some .reset)
    (hs : P (regsOf s)) : P (regsOf (stepBusy todo s)) := by
  unfold stepBusy
  split
  case h_1 hh => exact absurd (by rw [hh]; rfl) hr
  case h_2 => rw [regsOf_cancelBusy]; exact hs
  case h_3 => exact runToStop_keeps (P := fun u => P (regsOf u)) hP (by rwa [regsOf_supply])

/-- What every step of CTRL keeps of the registers, every step of the machine keeps, unless the host resets. -/
theorem step_keeps_regs {s t : State} (h : step s = .next t) (hr : s.host.head? ≠ some .reset)
    (hs : P (regsOf s)) : P (regsOf t) := by
  unfold step at h
  split at h
  case h_1 =>
    unfold stepIdle at h
    split at h
    case h_1 => cases h; exact hs
    case h_2 act rest hh => exact hostActIdle_keeps_regs hP (fun he => hr (by rw [hh, he]; rfl)) h hs
  case h_2 => cases h; exact stepBusy_keeps_regs hP hr hs

end

/-! ## FATAL under one step of CTRL -/

/-- Taking an error writes no FATAL. -/
@[simp] theorem raiseErr_fatal (e : Err) (op : Instr) (todo : List Micro) (s : State) :
    (raiseErr e op todo s).fatal = s.fatal := by
  rcases raiseErr_cases e op todo s with ⟨-, h⟩ | ⟨a, c, rest, -, h⟩ | ⟨rest, -, h⟩ <;> simp [h]

/-- Moving or ending the sequencer writes no FATAL. -/
theorem Ended.fatal_eq {op : Instr} {u t : State} (h : Ended op u t) : t.fatal = u.fatal := by
  rcases h with ⟨_, rfl⟩ | ⟨_, _, rfl⟩ | ⟨_, _, rfl⟩ | ⟨_, rfl⟩ <;> simp

/-- The flag tests of CAL_CAP set FATAL on `cal_err` and otherwise leave it (42 R156). -/
theorem calTests_fatal (op : Instr) (rest : List Micro) (dl : Nat) (r : CapCalResult) (s : State) :
    (calTests op rest dl r s).fatal = (r.calErr || s.fatal) := by
  unfold calTests
  split
  case isTrue herr => simp [herr]
  case isFalse herr => split <;> simp [herr]

/-- The read of CAP_CAL_RESULT, the one step that writes FATAL, keeps it set. -/
theorem pollCal_keeps_fatal {op : Instr} {dl : Nat} {rest : List Micro} {s t : State}
    (h : microStep op (.pollCal dl) rest s = some t) (hs : s.fatal = true) : t.fatal = true := by
  simp only [microStep] at h
  rcases transact_eq_some h with ⟨e, ps, -, rfl⟩ | ⟨v, ps, -, rfl⟩
  · simpa using hs
  · simp [calTests_fatal, hs]

/-- No step of an operation clears FATAL. -/
theorem microStep_keeps_fatal {op : Instr} {m : Micro} {rest : List Micro} {s t : State}
    (h : microStep op m rest s = some t) (hs : s.fatal = true) : t.fatal = true := by
  by_cases hm : ∃ dl, m = .pollCal dl
  · obtain ⟨dl, rfl⟩ := hm
    exact pollCal_keeps_fatal h hs
  · obtain ⟨u, hmoved, hended⟩ := microStep_effect h
    rw [hended.fatal_eq, hmoved.fatal (not_exists.mp hm), hs]

/-- No step of CTRL clears FATAL. -/
theorem ctrlStep_keeps_fatal {s t : State} (h : ctrlStep s = some t) (hs : s.fatal = true) : t.fatal = true := by
  unfold ctrlStep at h
  split at h
  case h_1 => nomatch h
  case h_2 => cases h; exact hs
  case h_3 => exact microStep_keeps_fatal h hs

/-! ## FATAL under `exec` and `step` -/

/-- No row of the legality matrix permits an operation while FATAL is set (60 R290). -/
theorem permitted_of_fatal (i : Instr) {s : State} (hs : s.fatal = true) : permitted i s = false := by
  simp [permitted, hs]

/-- At an Idle state with FATAL set every operation is refused. -/
theorem exec_of_fatal (i : Instr) {s : State} (hidle : s.seq = .idle) (hs : s.fatal = true) :
    exec i s = .next (refuse s) := by
  simp [exec_idle hidle, permitted_of_fatal i hs]

/-- A step whose host does not reset keeps FATAL set. -/
theorem step_keeps_fatal {s t : State} (h : step s = .next t) (hr : s.host.head? ≠ some .reset)
    (hs : s.fatal = true) : t.fatal = true :=
  step_keeps_regs (P := fun r => r.fatal = true) ctrlStep_keeps_fatal h hr hs

/-- Settles O12: the matrix has no row with FATAL set, and every step but a reset keeps FATAL. -/
theorem fatalRefusesUntilReset : Obligations.FatalRefusesUntilReset := by
  unfold Obligations.FatalRefusesUntilReset
  refine ⟨fun i s hidle hs => exec_of_fatal i hidle hs, fun s t h hs ht => ?_⟩
  by_contra hr
  have hkept : t.fatal = true := step_keeps_fatal h hr hs
  rw [ht] at hkept
  nomatch hkept

end Sys2Proof.Machine
end

section
/-! SUPPORT. An illegal command word (30 R84): what the decoder accepts has an OPC of the table and, where the
operation takes no immediate, IMM = 0; so any other word is refused by the step that takes it. -/

namespace Sys2Proof

/-- An operation that takes no immediate is accepted with IMM = 0 only (30 R84). -/
theorem withoutImm_eq_ok_iff {i j : Instr} {imm : Word32} : withoutImm i imm = .ok j ↔ imm = 0 ∧ i = j := by
  unfold withoutImm
  split
  case isTrue himm => simp [himm]
  case isFalse himm => exact ⟨(nomatch ·), fun ⟨hzero, _⟩ => absurd hzero himm⟩

/-- A word that decodes carries the OPC and the IMM of its instruction (30 R80 to R83). -/
theorem fields_of_decode {w : CmdWord} {i : Instr} (h : decode w = .ok i) :
    opcOf w = opcodeOf i ∧ immOf w = immediateOf i := by
  unfold decode at h
  split at h
  -- XCV_ANTICOLL and XCV_STANDARD: IMM is the operand, whatever it is.
  case h_15 hopc | h_16 hopc =>
    cases h
    exact ⟨opcOf_eq (by decide) hopc, rfl⟩
  -- A reserved OPC.
  case h_19 => nomatch h
  all_goals
    rename_i hopc
    obtain ⟨himm, rfl⟩ := withoutImm_eq_ok_iff.mp h
    exact ⟨opcOf_eq (by decide) hopc, himm⟩

/-- Every instruction has one of the eighteen codes of 30 R82. -/
theorem opcodeOf_mem_table (i : Instr) :
    opcodeOf i ∈ ([0x00, 0x01, 0x02, 0x03, 0x04, 0x08, 0x09, 0x0A, 0x0B, 0x10, 0x20, 0x21, 0x24, 0x25, 0x26, 0x27,
      0x30, 0x31] : List Byte) := by
  cases i <;> simp [opcodeOf]

/-- Only XCV_ANTICOLL and XCV_STANDARD take an immediate (30 R81). -/
theorem immediateOf_eq_zero {i : Instr} (h26 : opcodeOf i ≠ 0x26) (h27 : opcodeOf i ≠ 0x27) :
    immediateOf i = 0 := by
  cases i with
  | xcvAnticoll _ => exact absurd rfl h26
  | xcvStandard _ => exact absurd rfl h27
  | _ => rfl

namespace Machine

/-- The step that takes a command word is the issue of that word. -/
theorem step_of_issue {s : State} {w : CmdWord} {rest : List HostAct} (hs : s.seq = .idle)
    (hh : s.host = .issue w :: rest) : step s = issueWord w { s with host := rest } := by
  simp [step, hs, stepIdle, hh, hostActIdle]

/-- A word that the decoder refuses is refused (30 R84). -/
theorem issueWord_of_error {w : CmdWord} {e : DecodeError} (s : State) (h : decode w = .error e) :
    issueWord w s = .next (refuse (presentWord w s)) := by
  simp [issueWord, h]

/-- Settles O3: an illegal word does not decode, since a word that does has the fields of its instruction. -/
theorem illegalWordIsRefused : Obligations.IllegalWordIsRefused := by
  unfold Obligations.IllegalWordIsRefused
  intro s w rest hs hh hillegal
  cases hd : decode w with
  | ok i =>
    obtain ⟨hopc, himm⟩ := fields_of_decode hd
    rw [hopc, himm] at hillegal
    rcases hillegal with hreserved | ⟨h26, h27, hnonzero⟩
    · exact absurd (opcodeOf_mem_table i) hreserved
    · exact absurd (immediateOf_eq_zero h26 h27) hnonzero
  | error e =>
    refine ⟨opcOf w, immOf w, ?_⟩
    rw [step_of_issue hs hh, issueWord_of_error _ hd]
    rfl

end Machine

end Sys2Proof
end

section
/-! SUPPORT. The answer DEP_NEW rejects (30 R101; 45 R240, R242): FSC_TABLE has nine entries, so a frame-size index of
9 or more has none, and a short answer or such an index raises Protocol, which finds no clean-up. -/

namespace Sys2Proof.Machine

/-- The frame-size index is the low nibble of the second byte (30 R89). -/
theorem fsciOf_eq (resp : List Byte) : fsciOf resp = (resp.getD 1 0).toNat % 16 := by
  simp [fsciOf, BitVec.extractLsb'_toNat]

/-- FSC_TABLE has no entry exactly for the indices from 9 on (30 R90, R101). -/
theorem fscOf_eq_none_iff {fsci : Nat} : fscOf fsci = none ↔ 9 ≤ fsci := by
  simp [fscOf, fscTable]

/-- DEP_NEW steps S2 and S3 raise Protocol on a short answer and on a frame-size index with no entry (45 R240). -/
theorem depNewFinish_rejects {op : Instr} {rest : List Micro} {resp : List Byte} (s : State)
    (h : resp.length < 2 ∨ 9 ≤ (resp.getD 1 0).toNat % 16) :
    depNewFinish op rest resp s = raiseErr .protocol op rest s := by
  unfold depNewFinish
  split
  case isTrue => rfl
  case isFalse hlen =>
    have hnone : fscOf (fsciOf resp) = none := by
      rw [fscOf_eq_none_iff, fsciOf_eq]
      exact h.resolve_left hlen
    rw [hnone]

/-- An error with no step left ends the operation (60 R286). -/
theorem raiseErr_nil (e : Err) (op : Instr) (s : State) : raiseErr e op [] s = endError e s := rfl

/-- DEP_NEW is the exchange of its activation request (45 R240). -/
theorem stepsOf_depNew (s : State) :
    stepsOf .depNew s = exchange s.params (activation s.params) s.params.tRats ++ [] :=
  (List.append_nil _).symm

/-- DEP_NEW up to what it does with an accepted response (45 R240, R241). -/
theorem steps_depNew {s : State} {sc : XcvScript} {r : RxScript} {ps : List PortAnswer} {ts : List Nat}
    (hfits : sc.fits s.params (activation s.params) s.params.tRats s.clock = true)
    (hacc : acceptedStandard s.params s.params.atsCap sc r = true)
    (hport : s.port = answered (sc.views ++ r.views) ++ ps) (hticks : s.ticks = sc.ticks ++ ts) :
    Steps (s.goTo .depNew (stepsOf .depNew s))
      (depNewFinish .depNew [] r.payload
        (s.running .depNew [.deliver (activation s.params) r.payload (8 * (r.count - 2))] ps ts
          (sc.clockAfter s.clock) sc.irqs
          (sc.events s.params (activation s.params) s.params.tRats s.clock ++ r.events (r.count - 2)))) := by
  rw [stepsOf_depNew, goTo_eq_running hport hticks]
  exact steps_exchange_standard (activation s.params) s.params.tRats sc r rfl hfits hacc

/-- A running operation that ends with an error, as an equation on the state it was issued in (60 R286). -/
theorem endError_running {s : State} (hs : s.seq = .idle) (e : Err) (op : Instr) (todo : List Micro)
    (ps : List PortAnswer) (ts : List Nat) (clk : Nat) (irqs : Word32) (evs : List Event) :
    endError e (s.running op todo ps ts clk irqs evs) = { s with
      irqs := irqs, status := errCode e, value := Config.freeValue s.draws, errinfo := errinfoAfter e s.draws,
      rx := Config.freeRx s.draws, draws := s.draws + 1, port := ps, ticks := ts, clock := clk,
      trace := s.trace ++ evs } := by
  simp [endError, State.running, hs]

/-- Settles O39: the exchange is accepted, its answer raises Protocol, and the operation ends there. -/
theorem depNewRejectsTheAnswer : Obligations.DepNewRejectsTheAnswer := by
  unfold Obligations.DepNewRejectsTheAnswer
  intro s sc r ps ts hs hperm hfits hacc hbad hport hticks
  have hrun := steps_depNew hfits hacc hport hticks
  rw [depNewFinish_rejects _ hbad, raiseErr_nil, endError_running hs, ← List.append_assoc] at hrun
  exact ⟨_, _, _, _, exec_of_steps hs hperm hrun hs⟩

end Sys2Proof.Machine
end

section
/-! SUPPORT. READY is kept until a hardware reset (40 R126). The one step of CTRL that writes READY is the last of INIT,
which sets it; so no step of CTRL clears READY, and by `step_keeps_regs` no step of the machine but a reset does. -/

namespace Sys2Proof.Machine

/-- Moving or ending the sequencer writes no READY. -/
theorem Ended.ready_eq {op : Instr} {u t : State} (h : Ended op u t) : t.ready = u.ready := by
  rcases h with ⟨_, rfl⟩ | ⟨_, _, rfl⟩ | ⟨_, _, rfl⟩ | ⟨_, rfl⟩ <;> simp

/-- No step of an operation clears READY. -/
theorem microStep_keeps_ready {op : Instr} {m : Micro} {rest : List Micro} {s t : State}
    (h : microStep op m rest s = some t) (hs : s.ready = true) : t.ready = true := by
  by_cases hm : m = .setReady
  · subst hm
    cases h
    rfl
  · obtain ⟨u, hmoved, hended⟩ := microStep_effect h
    rw [hended.ready_eq, hmoved.ready hm, hs]

/-- No step of CTRL clears READY. -/
theorem ctrlStep_keeps_ready {s t : State} (h : ctrlStep s = some t) (hs : s.ready = true) : t.ready = true := by
  unfold ctrlStep at h
  split at h
  case h_1 => nomatch h
  case h_2 => cases h; exact hs
  case h_3 => exact microStep_keeps_ready h hs

/-- A step whose host does not reset keeps READY set. -/
theorem step_keeps_ready {s t : State} (h : step s = .next t) (hr : s.host.head? ≠ some .reset)
    (hs : s.ready = true) : t.ready = true :=
  step_keeps_regs (P := fun r => r.ready = true) ctrlStep_keeps_ready h hr hs

/-- The INIT row of the legality matrix has READY = 0 (60 R290). -/
theorem permitted_init_of_ready {s : State} (hs : s.ready = true) : permitted .init s = false := by
  simp [permitted, matrixRow, hs]

/-- At an Idle state with READY set INIT is refused. -/
theorem exec_init_of_ready {s : State} (hidle : s.seq = .idle) (hs : s.ready = true) :
    exec .init s = .next (refuse s) := by
  simp [exec_idle hidle, permitted_init_of_ready hs]

/-- Settles O11: the INIT row of the matrix has READY = 0, and every step but a reset keeps READY. -/
theorem initIsNotRepeatable : Obligations.InitIsNotRepeatable := by
  unfold Obligations.InitIsNotRepeatable
  refine ⟨fun s hidle hs => exec_init_of_ready hidle hs, fun s t h hs ht => ?_⟩
  by_contra hr
  have hkept : t.ready = true := step_keeps_ready h hr hs
  rw [ht] at hkept
  nomatch hkept

end Sys2Proof.Machine
end

section
/-! SUPPORT. A collision in FIELD_ON (41 R134, R135): the loop tests CAC before CAT, so a last refresh that leaves CAC
set raises FieldCollision while step S8, the one that enables tx and rx, still remains. S8 is no clean-up, so the error
ends the operation there. -/

namespace Sys2Proof.Machine

/-- FIELD_ON from its issue up to the tests after its last refresh; S8 remains (41 R134). -/
theorem steps_fieldOn_issued {s : State} {f : FieldOnScript} {ps : List PortAnswer} {ts : List Nat}
    (hfits : f.fits s.params s.clock = true) (hport : s.port = answered f.views ++ ps)
    (hticks : s.ticks = f.ticks s.params ++ ts) :
    Steps (s.goTo .fieldOn (stepsOf .fieldOn s))
      (s.running .fieldOn
        [.test (.field (s.params.tFieldOn.map (s.clock + f.tick + ·))), .modifyOpControl .txRxOn] ps ts
        (f.clockAfter s.params s.clock) f.irqs (f.events s.params s.clock)) := by
  have hsteps := fieldOnSteps_append s.params []
  rw [List.append_nil] at hsteps
  rw [goTo_eq_running hport hticks, stepsOf, hsteps]
  exact steps_fieldOn f hfits

/-- The FIELD_ON loop raises FieldCollision on CAC, whatever CAT is (41 R135). -/
theorem steps_field_collision {s : State} {op : Instr} {rest : List Micro} {ps : List PortAnswer} {ts : List Nat}
    {clk : Nat} {irqs : Word32} {evs : List Event} (dl : Option Nat) (hcac : irqSet s.params irqs .cac = true) :
    Steps (s.running op (.test (.field dl) :: rest) ps ts clk irqs evs)
      (raiseErr .fieldCollision op rest (s.running op (.test (.field dl) :: rest) ps ts clk irqs evs)) :=
  .single (by simp [ctrlStep, State.running, microStep, testLoop, hcac])

/-- An error that finds only a RegModify of OP_CONTROL among the remaining steps finds no clean-up (60 R286). -/
theorem raiseErr_modifyOpControl (e : Err) (op : Instr) (u : OpcUpdate) (s : State) :
    raiseErr e op [.modifyOpControl u] s = endError e s := rfl

/-- Settles O29: the test after the last refresh raises FieldCollision, and the operation ends before S8. -/
theorem fieldCollisionLeavesTheFieldOff : Obligations.FieldCollisionLeavesTheFieldOff := by
  unfold Obligations.FieldCollisionLeavesTheFieldOff
  intro s f ps ts hs hperm hfits hcac hport hticks
  have hrun := (steps_fieldOn_issued hfits hport hticks).trans (steps_field_collision _ hcac)
  rw [raiseErr_modifyOpControl, endError_running hs] at hrun
  exact ⟨_, _, _, _, exec_of_steps hs hperm hrun hs⟩

end Sys2Proof.Machine
end

section
/-! SUPPORT. CANCEL (43 R179): what a step does with a CANCEL at the head of the host's acts, SEQ Idle or not. It ends
the operation where the next step of CTRL is the sleep of WAIT_FOR_CARD, and is taken off the acts anywhere else. -/

namespace Sys2Proof.Machine

/-! ## `cancelBusy`, by the step that comes next -/

/-- A CANCEL ends an operation that sleeps. -/
@[simp] theorem cancelBusy_waitRise (last : Option Bool) (todo : List Micro) (s : State) :
    cancelBusy (.waitRise last :: todo) s = endError .cancelled s := rfl

/-- A CANCEL leaves an operation that does not sleep as it is. -/
theorem cancelBusy_of_not_waitRise {todo : List Micro} (htodo : ∀ last rest, todo ≠ .waitRise last :: rest)
    (s : State) : cancelBusy todo s = s := by
  unfold cancelBusy
  split
  case h_1 last rest => exact absurd rfl (htodo last rest)
  case h_2 => rfl

/-! ## A step whose host cancels -/

/-- SEQ is Idle or runs an operation (10 R29); as a disjunction, a case split keeps `s.seq` in the goal. -/
theorem Seq.idle_or_busy (q : Seq) : q = .idle ∨ ∃ op todo, q = .busy op todo := by
  cases q with
  | idle => exact .inl rfl
  | busy op todo => exact .inr ⟨op, todo, rfl⟩

section
variable {s : State} {rest : List HostAct} (hhost : s.host = .cancel :: rest)

include hhost

/-- While SEQ is Idle a CANCEL is taken off the host's acts and does nothing else. -/
theorem step_of_cancel_idle (hseq : s.seq = .idle) : step s = .next { s with host := rest } := by
  simp [step, hseq, stepIdle, hhost, hostActIdle]

/-- While an operation runs a CANCEL is taken before the operation's next step. -/
theorem step_of_cancel_busy {op : Instr} {todo : List Micro} (hseq : s.seq = .busy op todo) :
    step s = .next (cancelBusy todo { s with host := rest }) := by
  simp [step, hseq, stepBusy, hhost]

end

/-- Settles O5: at the sleep CANCEL is `endError .cancelled`, whose code is 0x11 and which writes only the result latches
and SEQ; elsewhere SEQ is Idle or the next step of CTRL is not the sleep, and CANCEL leaves the state as it is. -/
theorem cancelEndsOnlyTheSleep : Obligations.CancelEndsOnlyTheSleep := by
  unfold Obligations.CancelEndsOnlyTheSleep
  constructor
  · intro s op last todo rest hseq hhost
    rw [step_of_cancel_busy hhost hseq, cancelBusy_waitRise]
    exact ⟨_, _, _, _, rfl⟩
  · intro s rest hhost hawake
    obtain hidle | ⟨op, todo, hbusy⟩ := s.seq.idle_or_busy
    · exact step_of_cancel_idle hhost hidle
    · have htodo : ∀ last more, todo ≠ .waitRise last :: more :=
        fun last more he => hawake op last more (by rw [hbusy, he])
      rw [step_of_cancel_busy hhost hbusy, cancelBusy_of_not_waitRise htodo]

end Sys2Proof.Machine
end

section
/-! SUPPORT. SESSION_END (44 R195, R196): both halves are attempted and neither can end the operation, so it goes on to
SESS <- None and returns 0 however they go. -/

namespace Sys2Proof.Machine

/-- A running operation that returns 0, as an equation on the state it was issued in (60 R270). -/
theorem endOk_running {s : State} (hs : s.seq = .idle) (op : Instr) (todo : List Micro) (ps : List PortAnswer)
    (ts : List Nat) (clk : Nat) (irqs : Word32) (evs : List Event) :
    endOk 0 none (s.running op todo ps ts clk irqs evs) = { s with
      irqs := irqs, status := 0x00, value := 0, errinfo := Config.freeErrinfo s.draws, draws := s.draws + 1,
      port := ps, ticks := ts, clock := clk, trace := s.trace ++ evs } := by
  simp [endOk, State.running, statusOk, hs]

/-- SESSION_END is its two attempted halves, then SESS <- None (44 R195). -/
theorem stepsOf_sessionEnd (s : State) :
    stepsOf .sessionEnd s = fieldOffSteps ++ [.attemptEnd .fieldOff] ++
      (modeOffSteps ++ [.attemptEnd .modeOff] ++ [.setSess .none]) := rfl

/-- SESSION_END from its issue to its return, for every way its two halves can go (44 R196). -/
theorem steps_sessionEnd {s : State} {a : FieldOffHalf} {b : ModeOffHalf} {ps : List PortAnswer}
    (hport : s.port = a.answers ++ b.answers ++ ps) :
    Steps (s.goTo .sessionEnd (stepsOf .sessionEnd s))
      (endOk 0 none (State.running { s with mode := .off, sess := .none } .sessionEnd [] ps s.ticks s.clock s.irqs
        (a.events ++ b.events))) := by
  rw [List.append_assoc] at hport
  rw [goTo_eq_running hport rfl, stepsOf_sessionEnd]
  exact (steps_fieldOffHalf a).trans ((steps_modeOffHalf b).trans ((steps_setSess .none).trans steps_end))

/-- Settles O22: the two halves run to their ends whatever ENV answers, and SESS <- None and `return 0` follow. -/
theorem sessionEndCompletes : Obligations.SessionEndCompletes := by
  unfold Obligations.SessionEndCompletes
  intro s a b ps hs hperm hport
  have hrun := steps_sessionEnd hport
  rw [endOk_running (s := { s with mode := .off, sess := .none }) hs, ← List.append_assoc] at hrun
  exact ⟨_, _, exec_of_steps hs hperm hrun hs⟩

end Sys2Proof.Machine
end

section
/-! SUPPORT. The decoder and the encoder are inverse (30 R80 to R84): a word is its two fields, and a word decodes to an
instruction exactly when its fields are those of the instruction. -/

namespace Sys2Proof

/-- The encoding of an instruction decodes to it. -/
theorem decode_encode (i : Instr) : decode (encode i) = .ok i := by
  rw [decode, opcOf_encode, immOf_encode]
  cases i <;> rfl

/-- A word with the two fields of an instruction is its encoding. -/
theorem eq_encode_of_fields {w : CmdWord} {i : Instr} (hopc : opcOf w = opcodeOf i) (himm : immOf w = immediateOf i) :
    w = encode i := by
  rw [word_split w, hopc, himm, encode]

/-- Settles O1: a word that decodes has the fields of its instruction, and the encoding of an instruction decodes to
it. -/
theorem decodeIsTheInverseOfEncode : Obligations.DecodeIsTheInverseOfEncode := by
  unfold Obligations.DecodeIsTheInverseOfEncode
  intro w i
  constructor
  · intro h
    obtain ⟨hopc, himm⟩ := fields_of_decode h
    exact eq_encode_of_fields hopc himm
  · rintro rfl
    exact decode_encode i

/-- Settles O2: the eight legal words are encodings, and the two others fail at their OPC or IMM. -/
theorem specWordsDecode : Obligations.SpecWordsDecode := by
  unfold Obligations.SpecWordsDecode
  exact ⟨decode_encode .init, decode_encode .fieldOn, decode_encode .calCap, decode_encode .waitForCard,
    decode_encode .sessionEnd, decode_encode (.xcvAnticoll 12), decode_encode (.xcvStandard 1024),
    decode_encode .depXcv, rfl, rfl⟩

end Sys2Proof
end

section
/-! SUPPORT. The host port outside a running operation (00 R10, R14; 70 R320, R321): the presented word, the hardware
reset, and the refusal of what the matrix does not permit. -/

namespace Sys2Proof.Machine

/-- A word that decodes is issued as its instruction. -/
theorem issueWord_of_ok {w : CmdWord} {i : Instr} (s : State) (h : decode w = .ok i) :
    issueWord w s = exec i (presentWord w s) := by
  simp [issueWord, h]

/-- Settles O4: the step takes the act and issues the word. -/
theorem stepRunsTheDecodedInstruction : Obligations.StepRunsTheDecodedInstruction := by
  unfold Obligations.StepRunsTheDecodedInstruction
  intro s w rest i hs hh hdecode
  rw [step_of_issue hs hh, issueWord_of_ok _ hdecode]
  rfl

/-- The step that takes a reset is the hardware reset, whatever operation runs (70 R320). -/
theorem step_of_reset {s : State} {rest : List HostAct} (hh : s.host = .reset :: rest) :
    step s = .next (hwReset { s with host := rest }) := by
  obtain hidle | ⟨op, todo, hbusy⟩ := s.seq.idle_or_busy
  · simp [step, hidle, stepIdle, hh, hostActIdle]
  · simp [step, hbusy, stepBusy, hh]

/-- Settles O6: the step is `hwReset`, which writes the registers of R321 and the latches. -/
theorem hardwareResetRestoresTheRegisters : Obligations.HardwareResetRestoresTheRegisters := by
  unfold Obligations.HardwareResetRestoresTheRegisters
  intro s rest hh
  rw [step_of_reset hh]
  exact ⟨_, _, _, _, _, _, _, _, _, _, _, rfl⟩

/-- Settles O7: `State.reset` names the six values. -/
theorem resetValuesAreThoseOfTheSpec : Obligations.ResetValuesAreThoseOfTheSpec :=
  ⟨rfl, rfl, rfl, rfl, rfl, rfl⟩

/-- `exec` of an operation that the matrix does not permit. -/
theorem exec_not_permitted {i : Instr} {s : State} (hs : s.seq = .idle) (hp : permitted i s = false) :
    exec i s = .next (refuse s) := by
  simp [exec_idle hs, hp]

/-- Settles O9: an operation that is not permitted is `refuse`, which writes STATUS. -/
theorem matrixRefusalChangesOnlyStatus : Obligations.MatrixRefusalChangesOnlyStatus := by
  unfold Obligations.MatrixRefusalChangesOnlyStatus
  intro i s hs hp
  exact exec_not_permitted hs hp

/-- While an operation runs every meaning is refused (70 R340). -/
theorem exec_busy {s : State} {op : Instr} {todo : List Micro} (hs : s.seq = .busy op todo) (i : Instr) :
    exec i s = .refused .sequencerBusy := by
  rw [exec_eq_issue, issue, hs]

end Sys2Proof.Machine
end

section
/-! SUPPORT. One step of CTRL with what remains behind it left out. `microStep op m rest` reads neither `op` nor `rest`:
it only hands them on. `act m s` is what the step `m` does by itself: it goes on with some steps put in front of the
rest, raises an error, or returns; `microStep_eq_act` ties it to the model. A statement about what an operation does,
whatever ENV answers, then needs no operation and no list of remaining steps. -/

namespace Sys2Proof.Machine

/-- How a step leaves. -/
inductive Exit where
  /-- the steps `new` come next, and then the rest -/
  | goes (u : State) (new : List Micro)
  /-- `raise e` -/
  | raises (u : State) (e : Err)
  /-- `return v` -/
  | returns (u : State) (v : Nat) (rx : Option (List Byte))

/-- The state in which a step leaves. -/
def Exit.state : Exit → State
  | .goes u _ => u
  | .raises u _ => u
  | .returns u _ _ => u

/-- What comes of it in operation `op` with the steps `rest` behind it. -/
def Exit.resume (op : Instr) (rest : List Micro) : Exit → State
  | .goes u new => u.goTo op (new ++ rest)
  | .raises u e => raiseErr e op rest u
  | .returns u v rx => endOk v rx u

/-- One port transaction (20 R51, R60): an answer `v` is recorded by `k`. -/
def ask (t : Txn) (s : State) (k : AfeView → State → Exit) : Option Exit :=
  match s.port with
  | [] => none
  | .fail e :: ps => some (.raises ((s.usePort ps).emit (.fail t e)) (.interface e))
  | .done v :: ps => some (k v (s.usePort ps))

/-- One timer read. -/
def askTime (s : State) (k : Nat → State → Exit) : Option Exit :=
  match s.ticks with
  | [] => none
  | d :: ts => some (k (s.clock + d) (s.readTime d ts))

/-- The tests of a loop (`testLoop`). -/
def testExit (s : State) : Poll → Exit
  | .irq n dl => .goes s (if irqSet s.params s.irqs n then [] else [.deadline (.irq n dl)])
  | .field dl =>
    if irqSet s.params s.irqs .cac then .raises s .fieldCollision
    else if irqSet s.params s.irqs .cat then .goes s []
    else if dl.isSome then .goes s [.deadline (.field dl)]
    else .goes s [.yield, .refresh 0 (.field dl)]
  | .xcv x dl =>
    match xcvVerdict s.params x.kind s.irqs with
    | .error e => .goes s [.write .nrtCtrlStop, .raise e]
    | .success => .goes s [.write .nrtCtrlStop, .readFifoB x]
    | .pending => .goes s [.deadline (.xcv x dl)]

/-- The deadline test of a loop (`testDeadline`). -/
def deadlineExit (k : Poll) (now : Nat) (s : State) : Exit :=
  if (pollDeadline k).any (fun dl => now ≥ dl) then
    match k with
    | .irq _ _ => .raises s .timeout
    | .field _ => .raises s .timeout
    | .xcv _ _ => .goes s [.write .nrtCtrlStop, .raise .timeout]
  else .goes s [.yield, .refresh 0 k]

/-- The bytes RX would hold after a response of `n` received bytes is decoded (44 R214 to R216). -/
def decodedLength (x : Xcv) (n : Nat) : Nat :=
  match x.kind with
  | .anticoll => anticollLength x.bits n
  | .standard => n
  | .reqA => n
  | .wupA => n

/-- The received bytes that are read: those before the CRC in a Standard response. -/
def bytesRead (x : Xcv) (count : Nat) : Nat := if x.kind = .standard then count - 2 else count

/-- The length checks of an exchange (`decodeChecks`). -/
def checksExit (x : Xcv) (count : Nat) (s : State) : Exit :=
  if x.kind = .standard ∧ count < 2 then .raises s .responseTooShort
  else if decodedLength x (bytesRead x count) > x.cap then .raises s .responseTooLong
  else .goes s [.readFifo x (bytesRead x count)]

/-- The decode of an exchange (`decodeRead`). -/
def decodeExit (x : Xcv) (f : List Byte) (s : State) : Exit :=
  match x.kind with
  | .anticoll =>
    if irqSet s.params s.irqs .col then .goes s [.readCollision x (anticollBytes x.bits x.tx f)]
    else .goes s [.deliver x (anticollBytes x.bits x.tx f) (8 * (x.bits / 8 + f.length))]
  | .standard => .goes s [.deliver x f (8 * f.length)]
  | .reqA => .goes s [.deliver x f (8 * f.length)]
  | .wupA => .goes s [.deliver x f (8 * f.length)]

/-- DEP_NEW's answer (`depNewFinish`). -/
def depNewExit (resp : List Byte) (s : State) : Exit :=
  if resp.length < 2 then .raises s .protocol
  else
    match fscOf (fsciOf resp) with
    | none => .raises s .protocol
    | some fsc => .returns { s with fsc := BitVec.ofNat 9 fsc, spin := 0, sess := .dep } fsc none

/-- DEP_XCV's response (`depXcvFinish`). -/
def depXcvExit (hdr : Byte) (rxcap : Nat) (resp : List Byte) (s : State) : Exit :=
  if isWtx resp then
    .goes s (exchange s.params (depExchange (wtxReply resp) s.params.depCap (.depXcv hdr rxcap)) s.params.tDep)
  else
    match resp with
    | [] => .raises s .protocol
    | b :: payload =>
      if b ≠ hdr then .raises s .protocol
      else if payload.length > rxcap then .raises s .rxFrameTooBig
      else .returns { s with spin := flipSpin s.spin } payload.length (some payload)

/-- The delivery of a response (`deliverTo`). -/
def deliverExit (x : Xcv) (data : List Byte) (bits : Nat) (s : State) : Exit :=
  match x.dest with
  | .host => .returns s bits (some data)
  | .depNew => depNewExit data s
  | .depXcv hdr rxcap => depXcvExit hdr rxcap data s

/-- The flag tests of CAL_CAP (`calTests`). -/
def calExit (dl : Nat) (r : CapCalResult) (s : State) : Exit :=
  if r.calErr then .raises { s with fatal := true } .calibrationFault
  else if r.calEnd then .returns s r.value.toNat none
  else .goes s [.calDeadline dl]

/-- What the step `m` does by itself; none while the answer it needs has not come. -/
def act (m : Micro) (s : State) : Option Exit :=
  match m with
  | .setMode v => some (.goes { s with mode := v } [])
  | .setReady => some (.goes { s with ready := true } [])
  | .setSess v => some (.goes { s with sess := v } [])
  | .cmd c => ask (.cmd c) s fun _ s => .goes (s.emit (.cmd c)) []
  | .write w => ask (.write w) s fun _ s => .goes (s.emit (.write w)) []
  | .fifoWrite b => ask (.fifoWrite b) s fun _ s => .goes (s.emit (.fifoWrite b)) []
  | .readIdentity => ask (.read .identity) s fun v s =>
      .goes ((s.emit (.read (.identity v.identity))).emit (.log (.identity v.identity))) []
  | .pollOsc => ask (.read .oscStatus) s fun v s =>
      .goes (s.emit (.read (.oscStatus v.oscOk))) (if v.oscOk then [] else [.pollOsc])
  | .modifyOpControl u => ask (.read .opControl) s fun v s =>
      .goes (s.emit (.read (.opControl v.opControl))) [.write (.opControl (applyUpdate u v.opControl))]
  | .drainIrq i => ask (.read (.irqStatus i)) s fun v s =>
      .goes (s.emit (.read (.irqStatus i (irqStatusByte v i)))) []
  | .zeroIrqs => some (.goes { s with irqs := 0 } [])
  | .startTimer w => askTime s fun now s => .goes s [startTimed s.params now w]
  | .refresh i k => ask (.read (.irqStatus i)) s fun v s =>
      .goes ({ s with irqs := orStatus s.irqs i (irqStatusByte v i) }.emit (.read (.irqStatus i (irqStatusByte v i))))
        [if i + 1 < nIrq s.params then .refresh (i + 1) k else .test k]
  | .test k => some (testExit s k)
  | .deadline k => askTime s fun now s => deadlineExit k now s
  | .yield => some (.goes (s.emit .yield) [])
  | .readVdd => ask (.read .adcResult) s fun v s =>
      .goes ((s.emit (.read (.adcResult v.adcResult))).emit (.log (.vddMv (vddMv v.adcResult))))
        [.write (.afeSupply (sup3v v.adcResult))]
  | .readRef k => ask (.read .adcResult) s fun v s =>
      .goes (s.emit (.read (.adcResult v.adcResult))) [.write (.wuRef k v.adcResult)]
  | .returnAdc => ask (.read .adcResult) s fun v s =>
      .returns (s.emit (.read (.adcResult v.adcResult))) v.adcResult.toNat none
  | .pollCal dl => ask (.read .capCalResult) s fun v s =>
      calExit dl v.capCal (s.emit (.read (.capCalResult v.capCal)))
  | .calDeadline dl => askTime s fun now s =>
      if now ≥ dl then .raises s .timeout else .goes s [.yield, .pollCal dl]
  | .delayUntil t => askTime s fun now s => .goes s (if now ≥ t then [] else [.yield, .delayUntil t])
  | .waitRise last =>
    match s.line with
    | [] => none
    | level :: ls =>
      if last = some false ∧ level = true then some (.goes ((s.useLine ls).emit .edge) [])
      else some (.goes (s.useLine ls) [.waitRise (some level)])
  | .readFifoB x => ask (.read .fifoStatusB) s fun v s =>
      match fifoFault v.fifoB with
      | some e => .raises (s.emit (.read (.fifoStatusB v.fifoB))) e
      | none => .goes (s.emit (.read (.fifoStatusB v.fifoB))) [.readFifoA x v.fifoB.countHi]
  | .readFifoA x hi => ask (.read .fifoStatusA) s fun v s =>
      checksExit x (receivedBytes v.countLo hi) (s.emit (.read (.fifoStatusA v.countLo)))
  | .readFifo x n => ask (.fifoRead n) s fun v s =>
      decodeExit x (fifoBytes v n) (s.emit (.fifoRead n (fifoBytes v n)))
  | .readCollision x out => ask (.read .collisionStatus) s fun v s =>
      .goes (s.emit (.read (.collisionStatus v.collision))) [.deliver x out (collisionPosition v.collision)]
  | .deliver x data bits => some (deliverExit x data bits s)
  | .raise e => some (.raises s e)
  | .attemptEnd _ => some (.goes s [])
  | .startAGuard => some (.goes s [])

/-! ## `act` is the model's step -/

section
variable (op : Instr) (rest : List Micro)

theorem transact_eq_ask {t : Txn} {s : State} {k : AfeView → State → State} {k' : AfeView → State → Exit}
    (h : ∀ v u, k v u = (k' v u).resume op rest) :
    transact t op rest s k = (ask t s k').map (Exit.resume op rest) := by
  unfold transact ask
  cases s.port with
  | nil => rfl
  | cons a ps => cases a with
    | done v => exact congrArg some (h _ _)
    | fail e => rfl

theorem readNow_eq_askTime {s : State} {k : Nat → State → State} {k' : Nat → State → Exit}
    (h : ∀ t u, k t u = (k' t u).resume op rest) : readNow s k = (askTime s k').map (Exit.resume op rest) := by
  unfold readNow askTime
  cases s.ticks with
  | nil => rfl
  | cons d ts => exact congrArg some (h _ _)

theorem testLoop_eq (s : State) (k : Poll) : testLoop op rest s k = (testExit s k).resume op rest := by
  cases k with
  | irq n dl =>
    simp only [testLoop, testExit]
    split <;> rfl
  | field dl =>
    simp only [testLoop, testExit]
    split
    · rfl
    · split
      · rfl
      · cases dl <;> rfl
  | xcv x dl =>
    simp only [testLoop, testExit]
    cases xcvVerdict s.params x.kind s.irqs <;> rfl

theorem testDeadline_eq (k : Poll) (now : Nat) (s : State) :
    testDeadline op rest k now s = (deadlineExit k now s).resume op rest := by
  unfold testDeadline deadlineExit
  cases pollDeadline k with
  | none => rfl
  | some dl =>
    simp only [Option.any_some, decide_eq_true_eq]
    split
    · cases k <;> rfl
    · rfl

theorem decodeChecks_eq (x : Xcv) (n : Nat) (s : State) :
    decodeChecks op rest x n s = (checksExit x n s).resume op rest := by
  unfold decodeChecks checksExit decodedLength bytesRead
  cases x.kind <;> simp only [reduceCtorEq, false_and, true_and, if_false, if_true] <;> (repeat' split) <;> rfl

theorem decodeRead_eq (x : Xcv) (f : List Byte) (s : State) :
    decodeRead op rest x f s = (decodeExit x f s).resume op rest := by
  unfold decodeRead decodeExit
  cases x.kind with
  | anticoll =>
    dsimp only
    split <;> rfl
  | standard | reqA | wupA => rfl

theorem depNewFinish_eq (resp : List Byte) (s : State) :
    depNewFinish op rest resp s = (depNewExit resp s).resume op rest := by
  unfold depNewFinish depNewExit
  split
  · rfl
  · cases fscOf (fsciOf resp) <;> rfl

theorem depXcvFinish_eq (hdr : Byte) (rxcap : Nat) (resp : List Byte) (s : State) :
    depXcvFinish op rest hdr rxcap resp s = (depXcvExit hdr rxcap resp s).resume op rest := by
  unfold depXcvFinish depXcvExit
  split
  · rfl
  · cases resp with
    | nil => rfl
    | cons b payload =>
      dsimp only
      split
      · rfl
      · split <;> rfl

theorem deliverTo_eq (x : Xcv) (data : List Byte) (bits : Nat) (s : State) :
    deliverTo op rest x data bits s = (deliverExit x data bits s).resume op rest := by
  unfold deliverTo deliverExit
  cases x.dest with
  | host => rfl
  | depNew => exact depNewFinish_eq op rest data s
  | depXcv hdr rxcap => exact depXcvFinish_eq op rest hdr rxcap data s

theorem calTests_eq (dl : Nat) (r : CapCalResult) (s : State) :
    calTests op rest dl r s = (calExit dl r s).resume op rest := by
  unfold calTests calExit
  split
  · rfl
  · split <;> rfl

/-- One step of CTRL is `act`, resumed. -/
theorem microStep_eq_act (m : Micro) (s : State) :
    microStep op m rest s = (act m s).map (Exit.resume op rest) := by
  cases m <;> simp only [microStep, act]
  case test k => rw [testLoop_eq]; rfl
  case deliver => rw [deliverTo_eq]; rfl
  case deadline => exact readNow_eq_askTime op rest fun t u => testDeadline_eq op rest _ t u
  case calDeadline => exact readNow_eq_askTime op rest fun t u => by split <;> rfl
  case delayUntil => exact readNow_eq_askTime op rest fun t u => by split <;> rfl
  case startTimer => exact readNow_eq_askTime op rest fun t u => rfl
  case pollCal => exact transact_eq_ask op rest fun v u => calTests_eq op rest _ _ _
  case readFifoA => exact transact_eq_ask op rest fun v u => decodeChecks_eq op rest _ _ _
  case readFifo => exact transact_eq_ask op rest fun v u => decodeRead_eq op rest _ _ _
  case readFifoB => exact transact_eq_ask op rest fun v u => by cases fifoFault v.fifoB <;> rfl
  case pollOsc => exact transact_eq_ask op rest fun v u => by split <;> rfl
  case waitRise =>
    cases s.line with
    | nil => rfl
    | cons level ls =>
      dsimp only
      split <;> rfl
  case setMode | setReady | setSess | zeroIrqs | yield | raise | attemptEnd | startAGuard => rfl
  all_goals exact transact_eq_ask op rest fun v u => rfl

end

/-! ## Inversion -/

/-- Everything a port transaction can do (20 R60, R61). -/
theorem ask_eq_some {t : Txn} {s : State} {k : AfeView → State → Exit} {x : Exit} (h : ask t s k = some x) :
    (∃ e ps, s.port = .fail e :: ps ∧ x = .raises ((s.usePort ps).emit (.fail t e)) (.interface e)) ∨
    (∃ v ps, s.port = .done v :: ps ∧ x = k v (s.usePort ps)) := by
  unfold ask at h
  split at h
  · nomatch h
  · exact .inl ⟨_, _, ‹_›, (Option.some.inj h).symm⟩
  · exact .inr ⟨_, _, ‹_›, (Option.some.inj h).symm⟩

/-- Everything a timer read can do. -/
theorem askTime_eq_some {s : State} {k : Nat → State → Exit} {x : Exit} (h : askTime s k = some x) :
    ∃ d ts, s.ticks = d :: ts ∧ x = k (s.clock + d) (s.readTime d ts) := by
  unfold askTime at h
  split at h
  · nomatch h
  · exact ⟨_, _, ‹_›, (Option.some.inj h).symm⟩

end Sys2Proof.Machine
end

section
/-! SUPPORT. Everything `act` can do, said once: what it may write (`act_moved`), which steps it puts next (`Puts`), which
error it raises (`Raises`), and what it returns. -/

namespace Sys2Proof.Machine

/-! ## One step of CTRL -/

/-- Everything one step of CTRL can do: `return 0` with no step left, or the exit of the current step. -/
theorem ctrlStep_cases {s t : State} (h : ctrlStep s = some t) :
    (∃ op, s.seq = .busy op [] ∧ t = endOk 0 none s) ∨
    ∃ op m rest x, s.seq = .busy op (m :: rest) ∧ act m s = some x ∧ t = x.resume op rest := by
  unfold ctrlStep at h
  split at h
  · nomatch h
  · exact .inl ⟨_, ‹_›, (Option.some.inj h).symm⟩
  · rw [microStep_eq_act, Option.map_eq_some_iff] at h
    obtain ⟨x, hx, rfl⟩ := h
    exact .inr ⟨_, _, _, x, ‹_›, hx, rfl⟩

/-- The step of CTRL at a busy state is the exit of its current step. -/
theorem ctrlStep_eq_act {s : State} {op : Instr} {m : Micro} {rest : List Micro} (h : s.seq = .busy op (m :: rest)) :
    ctrlStep s = (act m s).map (Exit.resume op rest) := by
  rw [ctrlStep_busy h, microStep_eq_act]

/-! ## What it may write -/

/-- A step that takes no answer and records no transaction and no timer read. -/
theorem Moved.silent {m : Micro} {s : State} {evs : List Event} (ht : evs.filter isTransaction = [])
    (hr : timeReads evs = []) : Moved m s { s with trace := s.trace ++ evs } :=
  { eq := ⟨_, _, _, _, _, _, _, _, _, _, _, _, rfl⟩, trace := ⟨evs, rfl, by simp [ht], by simp [hr]⟩ }

theorem ask_moved {t : Txn} {m : Micro} {s : State} {k : AfeView → State → Exit} {x : Exit}
    (hk : ∀ v ps, s.port = .done v :: ps → Moved m s (k v (s.usePort ps)).state) (h : ask t s k = some x) :
    Moved m s x.state := by
  rcases ask_eq_some h with ⟨e, ps, hp, rfl⟩ | ⟨v, ps, hp, rfl⟩
  · exact .transaction m (.fail t e) [] hp rfl rfl rfl
  · exact hk v ps hp

theorem askTime_moved {m : Micro} {s : State} {k : Nat → State → Exit} {x : Exit} (hk : ∀ t u, (k t u).state = u)
    (h : askTime s k = some x) : Moved m s x.state := by
  obtain ⟨d, ts, ht, rfl⟩ := askTime_eq_some h
  rw [hk]
  exact { eq := ⟨_, _, _, _, _, _, _, _, _, _, _, _, rfl⟩
          clock := by simp
          trace := ⟨[.time (s.clock + d)], rfl, by simp [isTransaction], by simp [timeReads, ht]; omega⟩ }

/-- The tests of a loop write nothing. -/
@[simp] theorem testExit_state (s : State) (k : Poll) : (testExit s k).state = s := by
  unfold testExit
  split
  · rfl
  · repeat' split
    all_goals rfl
  · split <;> rfl

/-- The deadline test of a loop writes nothing. -/
@[simp] theorem deadlineExit_state (k : Poll) (now : Nat) (s : State) : (deadlineExit k now s).state = s := by
  unfold deadlineExit
  split
  · cases k <;> rfl
  · rfl

/-- The length checks write nothing. -/
@[simp] theorem checksExit_state (x : Xcv) (n : Nat) (s : State) : (checksExit x n s).state = s := by
  unfold checksExit
  split
  · rfl
  · split <;> rfl

/-- The decode writes nothing. -/
@[simp] theorem decodeExit_state (x : Xcv) (f : List Byte) (s : State) : (decodeExit x f s).state = s := by
  unfold decodeExit
  split
  · split <;> rfl
  all_goals rfl

/-- What a delivery can write: nothing, or with the end of a session operation FSC, SPIN and SESS. -/
theorem deliverExit_cases (x : Xcv) (data : List Byte) (bits : Nat) (s : State) :
    (deliverExit x data bits s).state = s ∨
    (x.dest = .depNew ∧ ∃ fsc, fscOf (fsciOf data) = some fsc ∧
      deliverExit x data bits s = .returns { s with fsc := BitVec.ofNat 9 fsc, spin := 0, sess := .dep } fsc none) ∨
    (∃ hdr rxcap payload, x.dest = .depXcv hdr rxcap ∧ payload.length ≤ rxcap ∧
      deliverExit x data bits s =
        .returns { s with spin := flipSpin s.spin } payload.length (some payload)) := by
  unfold deliverExit
  split
  case h_1 => exact .inl rfl
  case h_2 hd =>
    unfold depNewExit
    split
    · exact .inl rfl
    · split
      · exact .inl rfl
      · exact .inr (.inl ⟨hd, _, ‹_›, rfl⟩)
  case h_3 hdr rxcap hd =>
    unfold depXcvExit
    split
    · exact .inl rfl
    · split
      · exact .inl rfl
      · rename_i payload _
        split
        · exact .inl rfl
        · split
          · exact .inl rfl
          · exact .inr (.inr ⟨hdr, rxcap, payload, hd, by omega, rfl⟩)

/-- The flag tests of CAL_CAP write FATAL when the error flag is set, and nothing else. -/
theorem calExit_state (dl : Nat) (r : CapCalResult) (s : State) :
    (calExit dl r s).state = { s with fatal := r.calErr || s.fatal } := by
  unfold calExit
  split
  case isTrue h => simp [h, Exit.state]
  case isFalse h => split <;> simp [h, Exit.state]

/-- What the step `m` may write. -/
theorem act_moved {m : Micro} {s : State} {x : Exit} (h : act m s = some x) : Moved m s x.state := by
  cases m <;> simp only [act, Option.some.injEq] at h
  case setMode | setReady | setSess | zeroIrqs =>
    subst h
    exact { eq := ⟨_, _, _, _, _, _, _, _, _, _, _, _, rfl⟩
            trace := ⟨[], (List.append_nil _).symm, by simp [Exit.state], by simp [timeReads, Exit.state]⟩ }
  case attemptEnd | startAGuard | raise => subst h; exact .nothing _ _
  case yield => subst h; exact .silent (evs := [.yield]) rfl rfl
  case test => subst h; rw [testExit_state]; exact .nothing _ _
  case deliver w data bits =>
    subst h
    rcases deliverExit_cases w data bits s with he | ⟨-, fsc, -, he⟩ | ⟨_, _, _, -, -, he⟩ <;> rw [he]
    · exact .nothing _ _
    all_goals
      exact { eq := ⟨_, _, _, _, _, _, _, _, _, _, _, _, rfl⟩
              trace := ⟨[], (List.append_nil _).symm, by simp [Exit.state], by simp [timeReads, Exit.state]⟩ }
  case waitRise last =>
    split at h
    · nomatch h
    · rename_i level ls hl
      split at h <;> cases h
      · exact { eq := ⟨_, _, _, _, _, _, _, _, _, _, _, _, rfl⟩
                trace := ⟨[.edge], rfl, by simp [isTransaction, Exit.state], by simp [timeReads, Exit.state]⟩ }
      · exact { eq := ⟨_, _, _, _, _, _, _, _, _, _, _, _, rfl⟩
                trace := ⟨[], (List.append_nil _).symm, by simp [Exit.state], by simp [timeReads, Exit.state]⟩ }
  case startTimer | delayUntil => exact askTime_moved (fun _ _ => rfl) h
  case deadline => exact askTime_moved (fun _ _ => deadlineExit_state _ _ _) h
  case calDeadline => exact askTime_moved (fun _ _ => by split <;> rfl) h
  case refresh i k =>
    refine ask_moved (fun v ps hp => ?_) h
    exact { eq := ⟨_, _, _, _, _, _, _, _, _, _, _, _, rfl⟩
            trace := ⟨[.read (.irqStatus i (irqStatusByte v i))], rfl, by rw [hp]; exact Nat.add_comm 1 _,
              by simp [timeReads, Exit.state]⟩ }
  case pollCal dl =>
    refine ask_moved (fun v ps hp => ?_) h
    rw [calExit_state]
    exact { eq := ⟨_, _, _, _, _, _, _, _, _, _, _, _, rfl⟩
            trace := ⟨[.read (.capCalResult v.capCal)], rfl, by rw [hp]; exact Nat.add_comm 1 _,
              by simp [timeReads]⟩ }
  case readIdentity =>
    refine ask_moved (fun v ps hp => ?_) h
    have := Moved.transaction .readIdentity (.read (.identity v.identity)) [.log (.identity v.identity)] hp rfl rfl rfl
    simpa [Exit.state, State.emit, State.usePort] using this
  case readVdd =>
    refine ask_moved (fun v ps hp => ?_) h
    have := Moved.transaction .readVdd (.read (.adcResult v.adcResult)) [.log (.vddMv (vddMv v.adcResult))] hp rfl rfl rfl
    simpa [Exit.state, State.emit, State.usePort] using this
  case readFifoB =>
    refine ask_moved (fun v ps hp => ?_) h
    have hm := Moved.transaction (.readFifoB ‹_›) (.read (.fifoStatusB v.fifoB)) [] hp rfl rfl rfl
    cases fifoFault v.fifoB <;> exact hm
  case readFifoA =>
    refine ask_moved (fun v ps hp => ?_) h
    rw [checksExit_state]
    exact .transaction _ (.read (.fifoStatusA v.countLo)) [] hp rfl rfl rfl
  case readFifo x n =>
    refine ask_moved (fun v ps hp => ?_) h
    rw [decodeExit_state]
    exact .transaction _ (.fifoRead n (fifoBytes v n)) [] hp rfl rfl rfl
  all_goals exact ask_moved (fun v ps hp => .transaction _ _ [] hp rfl rfl rfl) h

/-! ## Which steps it puts next -/

/-- The steps that can leave with nothing put next. -/
def Micro.passes : Micro → Bool
  | .setMode _ => true
  | .setReady => true
  | .setSess _ => true
  | .cmd _ => true
  | .write _ => true
  | .fifoWrite _ => true
  | .readIdentity => true
  | .pollOsc => true
  | .drainIrq _ => true
  | .zeroIrqs => true
  | .test (.irq _ _) => true
  | .test (.field _) => true
  | .yield => true
  | .delayUntil _ => true
  | .waitRise _ => true
  | .attemptEnd _ => true
  | .startAGuard => true
  | _ => false

/-- The steps that a step can put next. -/
inductive Puts (p : Params) : Micro → List Micro → Prop where
  | nothing {m : Micro} (h : m.passes = true) : Puts p m []
  | pollAgain : Puts p .pollOsc [.pollOsc]
  | modify (u : OpcUpdate) (v : OpControl) : Puts p (.modifyOpControl u) [.write (.opControl v)]
  | started (w : Timed) (now : Nat) : Puts p (.startTimer w) [startTimed p now w]
  | nextRegister (i : Nat) (k : Poll) (h : i + 1 < nIrq p) : Puts p (.refresh i k) [.refresh (i + 1) k]
  | lastRegister (i : Nat) (k : Poll) : Puts p (.refresh i k) [.test k]
  | undecided (k : Poll) : Puts p (.test k) [.deadline k]
  | fieldAgain (dl : Option Nat) : Puts p (.test (.field dl)) [.yield, .refresh 0 (.field dl)]
  | xcvError (x : Xcv) (dl : Nat) (e : Err) : Puts p (.test (.xcv x dl)) [.write .nrtCtrlStop, .raise e]
  | xcvSuccess (x : Xcv) (dl : Nat) : Puts p (.test (.xcv x dl)) [.write .nrtCtrlStop, .readFifoB x]
  | again (k : Poll) : Puts p (.deadline k) [.yield, .refresh 0 k]
  | xcvLate (x : Xcv) (dl : Nat) : Puts p (.deadline (.xcv x dl)) [.write .nrtCtrlStop, .raise .timeout]
  | supply (b : Bool) : Puts p .readVdd [.write (.afeSupply b)]
  | reference (k : Method) (v : Byte) : Puts p (.readRef k) [.write (.wuRef k v)]
  | calPending (dl : Nat) : Puts p (.pollCal dl) [.calDeadline dl]
  | calAgain (dl : Nat) : Puts p (.calDeadline dl) [.yield, .pollCal dl]
  | delayAgain (t : Nat) : Puts p (.delayUntil t) [.yield, .delayUntil t]
  | asleep (last : Option Bool) (level : Bool) : Puts p (.waitRise last) [.waitRise (some level)]
  | countHigh (x : Xcv) (hi : Bool) : Puts p (.readFifoB x) [.readFifoA x hi]
  | fits (x : Xcv) (hi : Bool) (n : Nat) (h : decodedLength x n ≤ x.cap) : Puts p (.readFifoA x hi) [.readFifo x n]
  | collided (x : Xcv) (n : Nat) (out : List Byte) (h : out.length = decodedLength x n) :
    Puts p (.readFifo x n) [.readCollision x out]
  | decoded (x : Xcv) (n bits : Nat) (data : List Byte) (h : data.length = decodedLength x n) :
    Puts p (.readFifo x n) [.deliver x data bits]
  | positioned (x : Xcv) (out : List Byte) (bits : Nat) : Puts p (.readCollision x out) [.deliver x out bits]
  | extended (x : Xcv) (data tx : List Byte) (bits rxcap : Nat) (hdr : Byte) (h : x.dest = .depXcv hdr rxcap) :
    Puts p (.deliver x data bits) (exchange p (depExchange tx p.depCap (.depXcv hdr rxcap)) p.tDep)

/-- The assembled bytes of an anticollision response are as many as its length rule says (44 R215). -/
theorem length_anticollBytes (bits : Nat) (tx received : List Byte) :
    (anticollBytes bits tx received).length = anticollLength bits received.length := by
  have hbody : (tx.take (bits / 8) ++ received).length ≤ anticollLength bits received.length := by
    simp only [List.length_append, List.length_take, anticollLength]
    omega
  unfold anticollBytes
  dsimp only
  split
  · rw [List.length_append, List.length_replicate]; omega
  · rw [List.length_modify, List.length_append, List.length_replicate]; omega

/-- `FifoRead(n)` gives `n` bytes (00 R18). -/
@[simp] theorem length_fifoBytes (v : AfeView) (n : Nat) : (fifoBytes v n).length = n := by
  simp [fifoBytes]

theorem ask_goes {t : Txn} {s u : State} {new : List Micro} {k : AfeView → State → Exit}
    (h : ask t s k = some (.goes u new)) : ∃ v ps, s.port = .done v :: ps ∧ k v (s.usePort ps) = .goes u new := by
  rcases ask_eq_some h with ⟨e, ps, -, hx⟩ | ⟨v, ps, hp, hx⟩
  · nomatch hx
  · exact ⟨v, ps, hp, hx.symm⟩

theorem testExit_puts {s u : State} {k : Poll} {new : List Micro} (h : testExit s k = .goes u new) :
    Puts s.params (.test k) new := by
  cases k with
  | irq n dl =>
    simp only [testExit, Exit.goes.injEq] at h
    obtain ⟨-, rfl⟩ := h
    split
    · exact .nothing rfl
    · exact .undecided _
  | field dl =>
    simp only [testExit] at h
    split at h
    · nomatch h
    · split at h
      · cases h; exact .nothing rfl
      · split at h <;> cases h
        · exact .undecided _
        · exact .fieldAgain _
  | xcv x dl =>
    simp only [testExit] at h
    cases hv : xcvVerdict s.params x.kind s.irqs <;> rw [hv] at h <;> cases h
    · exact .xcvError _ _ _
    · exact .xcvSuccess _ _
    · exact .undecided _

theorem deadlineExit_puts {p : Params} {s u : State} {k : Poll} {now : Nat} {new : List Micro}
    (h : deadlineExit k now s = .goes u new) : Puts p (.deadline k) new := by
  unfold deadlineExit at h
  split at h
  · cases k <;> cases h
    exact .xcvLate _ _
  · cases h; exact .again _

theorem checksExit_puts {p : Params} {s u : State} {x : Xcv} {hi : Bool} {n : Nat} {new : List Micro}
    (h : checksExit x n s = .goes u new) : Puts p (.readFifoA x hi) new := by
  unfold checksExit at h
  split at h
  · nomatch h
  · split at h <;> cases h
    exact .fits _ _ _ (by omega)

theorem decodeExit_puts {p : Params} {s u : State} {x : Xcv} {f : List Byte} {new : List Micro}
    (h : decodeExit x f s = .goes u new) : Puts p (.readFifo x f.length) new := by
  unfold decodeExit at h
  split at h
  case h_1 hk =>
    have hl : (anticollBytes x.bits x.tx f).length = decodedLength x f.length := by
      rw [length_anticollBytes, decodedLength, hk]
    split at h <;> cases h
    · exact .collided _ _ _ hl
    · exact .decoded _ _ _ _ hl
  all_goals
    rename_i hk
    cases h
    exact .decoded _ _ _ _ (by rw [decodedLength, hk])

theorem deliverExit_puts {s u : State} {x : Xcv} {data : List Byte} {bits : Nat} {new : List Micro}
    (h : deliverExit x data bits s = .goes u new) : Puts s.params (.deliver x data bits) new := by
  unfold deliverExit at h
  split at h
  case h_1 => nomatch h
  case h_2 =>
    unfold depNewExit at h
    split at h
    · nomatch h
    · split at h <;> nomatch h
  case h_3 hdr rxcap hd =>
    unfold depXcvExit at h
    split at h
    · cases h; exact .extended _ _ _ _ _ _ hd
    · split at h
      · nomatch h
      · split at h
        · nomatch h
        · split at h <;> nomatch h

/-- The steps that `act` puts next. -/
theorem act_puts {m : Micro} {s u : State} {new : List Micro} (h : act m s = some (.goes u new)) :
    Puts s.params m new := by
  cases m <;> simp only [act, Option.some.injEq, reduceCtorEq] at h
  case setMode | setReady | setSess | zeroIrqs | yield | attemptEnd | startAGuard => cases h; exact .nothing rfl
  case test => exact testExit_puts h
  case deliver => exact deliverExit_puts h
  case waitRise last =>
    split at h
    · nomatch h
    · split at h <;> cases h
      · exact .nothing rfl
      · exact .asleep _ _
  case startTimer =>
    obtain ⟨d, ts, -, hx⟩ := askTime_eq_some h
    cases hx; exact .started _ _
  case deadline =>
    obtain ⟨d, ts, -, hx⟩ := askTime_eq_some h
    exact deadlineExit_puts hx.symm
  case calDeadline =>
    obtain ⟨d, ts, -, hx⟩ := askTime_eq_some h
    split at hx <;> cases hx
    exact .calAgain _
  case delayUntil =>
    obtain ⟨d, ts, -, hx⟩ := askTime_eq_some h
    cases hx
    split
    · exact .nothing rfl
    · exact .delayAgain _
  all_goals obtain ⟨v, ps, -, hx⟩ := ask_goes h
  case refresh =>
    cases hx
    split
    · exact .nextRegister _ _ ‹_›
    · exact .lastRegister _ _
  case pollOsc =>
    cases hx
    split
    · exact .nothing rfl
    · exact .pollAgain
  case pollCal =>
    unfold calExit at hx
    split at hx
    · nomatch hx
    · split at hx <;> cases hx
      exact .calPending _
  case readFifoB =>
    split at hx <;> cases hx
    exact .countHigh _ _
  case readFifoA => exact checksExit_puts hx
  case readFifo n => simpa using decodeExit_puts (p := s.params) hx
  case returnAdc => nomatch hx
  case modifyOpControl => cases hx; exact .modify _ _
  case readVdd => cases hx; exact .supply _
  case readRef => cases hx; exact .reference _ _
  case readCollision => cases hx; exact .positioned _ _ _
  all_goals cases hx; exact .nothing rfl

/-! ## Which error it raises -/

/-- The errors that a step can raise. -/
inductive Raises : Micro → Err → Prop where
  | transport {m : Micro} {t : Txn} (h : transactionOf m = some t) (e : BusErr) : Raises m (.interface e)
  | fieldCollision (dl : Option Nat) : Raises (.test (.field dl)) .fieldCollision
  | irqLate (n : IrqName) (dl : Nat) : Raises (.deadline (.irq n dl)) .timeout
  | fieldLate (dl : Option Nat) : Raises (.deadline (.field dl)) .timeout
  | calLate (dl : Nat) : Raises (.calDeadline dl) .timeout
  | calFault (dl : Nat) : Raises (.pollCal dl) .calibrationFault
  | fifo (x : Xcv) (b : FifoStatusB) {e : Err} (h : fifoFault b = some e) : Raises (.readFifoB x) e
  | tooShort (x : Xcv) (hi : Bool) : Raises (.readFifoA x hi) .responseTooShort
  | tooLong (x : Xcv) (hi : Bool) : Raises (.readFifoA x hi) .responseTooLong
  | protocol (x : Xcv) (data : List Byte) (bits : Nat) : Raises (.deliver x data bits) .protocol
  | tooBig (x : Xcv) (data : List Byte) (bits : Nat) : Raises (.deliver x data bits) .rxFrameTooBig
  | raise (e : Err) : Raises (.raise e) e

theorem ask_raises {t : Txn} {m : Micro} {s u : State} {e : Err} {k : AfeView → State → Exit}
    (hm : transactionOf m = some t) (hk : ∀ v w, k v w = .raises u e → Raises m e)
    (h : ask t s k = some (.raises u e)) : Raises m e := by
  rcases ask_eq_some h with ⟨c, ps, -, hx⟩ | ⟨v, ps, -, hx⟩
  · cases hx; exact .transport hm c
  · exact hk v _ hx.symm

theorem deliverExit_raises {s u : State} {x : Xcv} {data : List Byte} {bits : Nat} {e : Err}
    (h : deliverExit x data bits s = .raises u e) : Raises (.deliver x data bits) e := by
  unfold deliverExit at h
  split at h
  case h_1 => nomatch h
  case h_2 =>
    unfold depNewExit at h
    split at h
    · cases h; exact .protocol _ _ _
    · split at h <;> cases h
      exact .protocol _ _ _
  case h_3 =>
    unfold depXcvExit at h
    split at h
    · nomatch h
    · split at h
      · cases h; exact .protocol _ _ _
      · split at h
        · cases h; exact .protocol _ _ _
        · split at h <;> cases h
          exact .tooBig _ _ _

/-- The error that `act` raises. -/
theorem act_raises {m : Micro} {s u : State} {e : Err} (h : act m s = some (.raises u e)) : Raises m e := by
  cases m <;> simp only [act, Option.some.injEq, reduceCtorEq] at h
  case raise => cases h; exact .raise _
  case test k =>
    cases k with
    | irq n dl => nomatch h
    | field dl =>
      simp only [testExit] at h
      split at h
      · cases h; exact .fieldCollision _
      · split at h
        · nomatch h
        · split at h <;> nomatch h
    | xcv x dl =>
      simp only [testExit] at h
      cases hv : xcvVerdict s.params x.kind s.irqs <;> rw [hv] at h <;> nomatch h
  case deliver => exact deliverExit_raises h
  case waitRise =>
    split at h
    · nomatch h
    · split at h <;> nomatch h
  case startTimer | delayUntil =>
    obtain ⟨d, ts, -, hx⟩ := askTime_eq_some h
    nomatch hx
  case deadline k =>
    obtain ⟨d, ts, -, hx⟩ := askTime_eq_some h
    unfold deadlineExit at hx
    split at hx
    · cases k <;> cases hx
      · exact .irqLate _ _
      · exact .fieldLate _
    · nomatch hx
  case calDeadline =>
    obtain ⟨d, ts, -, hx⟩ := askTime_eq_some h
    split at hx <;> cases hx
    exact .calLate _
  case pollCal =>
    refine ask_raises rfl (fun v w hx => ?_) h
    unfold calExit at hx
    split at hx
    · cases hx; exact .calFault _
    · split at hx <;> nomatch hx
  case readFifoB =>
    refine ask_raises rfl (fun v w hx => ?_) h
    split at hx <;> cases hx
    exact .fifo _ _ ‹_›
  case readFifoA =>
    refine ask_raises rfl (fun v w hx => ?_) h
    unfold checksExit at hx
    split at hx
    · cases hx; exact .tooShort _ _
    · split at hx <;> cases hx
      exact .tooLong _ _
  case readFifo x n =>
    refine ask_raises rfl (fun v w hx => ?_) h
    unfold decodeExit at hx
    split at hx
    · split at hx <;> nomatch hx
    all_goals nomatch hx
  all_goals
    refine ask_raises rfl (fun v w hx => ?_) h
    nomatch hx

end Sys2Proof.Machine
end

section
/-! SUPPORT. Invariants of every step of the machine: what every step of CTRL keeps and every issue establishes. With it
the interrupt bitmap (10 R22): the steps that remain refresh only status registers that exist. -/

namespace Sys2Proof.Machine

/-! ## The steps that remain -/

/-- The steps that remain; none while SEQ is Idle. -/
def State.todo (s : State) : List Micro :=
  match s.seq with
  | .idle => []
  | .busy _ todo => todo

@[simp] theorem State.todo_goTo (s : State) (op : Instr) (l : List Micro) : (s.goTo op l).todo = l := rfl
@[simp] theorem State.todo_endOk (v : Nat) (r : Option (List Byte)) (s : State) : (endOk v r s).todo = [] := rfl
@[simp] theorem State.todo_endError (e : Err) (s : State) : (endError e s).todo = [] := rfl

theorem State.todo_of_busy {s : State} {op : Instr} {l : List Micro} (h : s.seq = .busy op l) : s.todo = l := by
  simp [State.todo, h]

/-- What an error leaves to do is behind an attempted half, or path F of a `startAGuard` (44 R192, R196). -/
theorem unwind_cases (e : Err) (todo : List Micro) :
    unwind e todo = .ended ∨
    (∃ a c rest, unwind e todo = .attempted a c rest ∧ e = .interface c ∧ rest ⊆ todo) ∨
    (unwind e todo = .cleanup (pathF e) ∧ .startAGuard ∈ todo) := by
  induction todo with
  | nil => exact .inl rfl
  | cons m l ih =>
    by_cases hg : m = .startAGuard
    · subst hg; exact .inr (.inr ⟨rfl, List.mem_cons_self⟩)
    · have hstep : (∃ a c, m = .attemptEnd a ∧ e = .interface c) ∨ unwind e (m :: l) = unwind e l := by
        cases m <;> first | exact absurd rfl hg | exact .inr rfl | skip
        rename_i a
        cases e <;> first | exact .inr rfl | exact .inl ⟨a, _, rfl, rfl⟩
      rcases hstep with ⟨a, c, rfl, rfl⟩ | hu
      · exact .inr (.inl ⟨a, c, l, rfl, rfl, List.subset_cons_self _ _⟩)
      · rw [hu]
        rcases ih with h | ⟨a, c, rest, h, he, hsub⟩ | ⟨h, hmem⟩
        · exact .inl h
        · exact .inr (.inl ⟨a, c, rest, h, he, List.subset_cons_of_subset _ hsub⟩)
        · exact .inr (.inr ⟨h, List.mem_cons_of_mem _ hmem⟩)

section
variable {Q : Micro → Prop} (hpath : Q .startAGuard → ∀ e, ∀ q ∈ pathF e, Q q)

include hpath

/-- What holds of all remaining steps and of path F holds of what an error leaves. -/
theorem raiseErr_todo (e : Err) (op : Instr) {todo : List Micro} (u : State) (h : ∀ q ∈ todo, Q q) :
    ∀ q ∈ (raiseErr e op todo u).todo, Q q := by
  unfold raiseErr
  rcases unwind_cases e todo with hu | ⟨a, c, rest, hu, -, hsub⟩ | ⟨hu, hg⟩ <;> rw [hu]
  · simp
  · exact fun q hq => h q (hsub hq)
  · exact hpath (h _ hg) e

/-- A property of steps that is handed on to the steps put next, and to path F, is kept by every step of CTRL. -/
theorem ctrlStep_todo {s t : State} (hputs : ∀ m new, Q m → Puts s.params m new → ∀ q ∈ new, Q q)
    (h : ctrlStep s = some t) (hs : ∀ q ∈ s.todo, Q q) : ∀ q ∈ t.todo, Q q := by
  rcases ctrlStep_cases h with ⟨op, -, rfl⟩ | ⟨op, m, rest, x, hseq, hx, rfl⟩
  · simp
  · rw [State.todo_of_busy hseq] at hs
    have hm := hs m List.mem_cons_self
    have hrest := fun q hq => hs q (List.mem_cons_of_mem _ hq)
    cases x with
    | goes u new =>
      intro q hq
      rcases List.mem_append.mp hq with hq | hq
      · exact hputs m new hm (act_puts hx) q hq
      · exact hrest q hq
    | raises u e => exact raiseErr_todo hpath e op u hrest
    | returns u v rx => simp [Exit.resume]

end

/-! ## From one step of CTRL to one step of the machine -/

section
variable {I : State → Prop}
  (hcong : ∀ {a b : State}, a.params = b.params → regsOf a = regsOf b → a.irqs = b.irqs → a.seq = b.seq → I a → I b)
  (hctrl : ∀ {a b : State}, ctrlStep a = some b → I a → I b)
  (hissue : ∀ {i : Instr} {s : State}, s.seq = .idle → permitted i s = true → I s → I (s.goTo i (stepsOf i s)))
  (hreset : ∀ s, I (hwReset s))
  (hcancel : ∀ {s : State} {op : Instr} {last : Option Bool} {todo : List Micro},
    s.seq = .busy op (.waitRise last :: todo) → I s → I (endError .cancelled s))

include hcong hctrl hissue in
/-- The issue of an operation keeps an invariant. -/
theorem exec_keeps {i : Instr} {s t : State} (h : exec i s = .next t) (hs : I s) : I t := by
  obtain hidle | ⟨op, todo, hbusy⟩ := s.seq.idle_or_busy
  · rw [exec_idle hidle, Host.Outcome.next.injEq] at h
    subst h
    split
    · exact runToStop_keeps (P := I) hctrl (hissue hidle ‹_› hs)
    · exact hcong (a := s) rfl rfl rfl rfl hs
  · rw [exec_busy hbusy] at h
    nomatch h

include hcong hctrl hissue hreset in
/-- An act of the host at an idle machine keeps an invariant. -/
theorem hostActIdle_keeps {a : HostAct} {s t : State} (h : hostActIdle a s = .next t) (hs : I s) : I t := by
  cases a with
  | reset => cases h; exact hreset s
  | issue w =>
    simp only [hostActIdle, issueWord] at h
    split at h
    · exact exec_keeps hcong hctrl hissue h (hcong (a := s) rfl rfl rfl rfl hs)
    · cases h; exact hcong (a := s) rfl rfl rfl rfl hs
  | writeTx _ | writeRxcap _ | writeCfg _ | cancel => cases h; exact hcong (a := s) rfl rfl rfl rfl hs

omit hissue in
include hcong hctrl hreset hcancel in
/-- A step while an operation runs keeps an invariant. -/
theorem stepBusy_keeps {op : Instr} {todo : List Micro} {s : State} (hseq : s.seq = .busy op todo) (hs : I s) :
    I (stepBusy todo s) := by
  unfold stepBusy
  split
  · exact hreset _
  · unfold cancelBusy
    split
    · exact hcancel hseq (hcong (a := s) rfl rfl rfl rfl hs)
    · exact hcong (a := s) rfl rfl rfl rfl hs
  · refine runToStop_keeps (P := I) hctrl (hcong ?_ (regsOf_supply s).symm ?_ ?_ hs) <;> unfold supply <;>
      repeat' split
    all_goals rfl

include hcong hctrl hissue hreset hcancel in
/-- An invariant of CTRL that every issue establishes, a reset too, and the end of the sleep, is one of the machine. -/
theorem step_keeps {s t : State} (h : step s = .next t) (hs : I s) : I t := by
  obtain hidle | ⟨op, todo, hbusy⟩ := s.seq.idle_or_busy
  · simp only [step, hidle, stepIdle] at h
    split at h
    · cases h; exact hs
    · exact hostActIdle_keeps hcong hctrl hissue hreset h (hcong (a := s) rfl rfl rfl hidle hs)
  · simp only [step, hbusy, Host.Outcome.next.injEq] at h
    subst h
    exact stepBusy_keeps hcong hctrl hreset hcancel hbusy hs

end

/-! ## The interrupt bitmap (10 R22) -/

/-- The invariant of the bitmap, said of the remaining steps. -/
theorem irqsInv_iff (s : State) : irqsInv s = true ↔
    s.irqs >>> (8 * nIrq s.params) = 0 ∧ ∀ m ∈ s.todo, refreshIndexOk s.params m = true := by
  unfold irqsInv State.todo
  cases s.seq <;> simp

/-- There are at least two status registers (00 R9). -/
theorem two_le_nIrq (p : Params) : 2 ≤ nIrq p := by
  unfold nIrq
  cases p.nIrq <;> decide

/-- A status byte or-ed at a register that exists leaves the bits above all of them. -/
theorem orStatus_shift {irqs : Word32} {i n : Nat} (b : Byte) (hi : i < n) (h : irqs >>> (8 * n) = 0) :
    orStatus irqs i b >>> (8 * n) = 0 := by
  apply BitVec.eq_of_getLsbD_eq
  intro j _
  have hj : irqs.getLsbD (8 * n + j) = false := by
    rw [← BitVec.getLsbD_ushiftRight, h]; simp
  have hb : b.getLsbD (8 * n + j - 8 * i) = false := BitVec.getLsbD_of_ge _ _ (by omega)
  simp [orStatus, hj, hb]

/-- How one step of CTRL changes IRQS: not at all, to 0, or by the byte of a register it refreshes (60 R280, R281). -/
theorem ctrlStep_irqs {s t : State} (h : ctrlStep s = some t) :
    t.irqs = s.irqs ∨ t.irqs = 0 ∨ ∃ i k b, .refresh i k ∈ s.todo ∧ t.irqs = orStatus s.irqs i b := by
  rcases ctrlStep_cases h with ⟨op, -, rfl⟩ | ⟨op, m, rest, x, hseq, hx, rfl⟩
  · exact .inl rfl
  have hres : (x.resume op rest).irqs = x.state.irqs := by
    cases x with
    | goes | returns => rfl
    | raises u e =>
      rcases raiseErr_ended e op rest u with ⟨_, h⟩ | ⟨_, _, h⟩ | ⟨_, _, h⟩ | ⟨_, h⟩ <;> simp [Exit.resume, Exit.state, h]
  rw [hres, State.todo_of_busy hseq]
  by_cases hz : m = .zeroIrqs
  · subst hz; cases hx; exact .inr (.inl rfl)
  by_cases hr : ∃ i k, m = .refresh i k
  · obtain ⟨i, k, rfl⟩ := hr
    simp only [act] at hx
    rcases ask_eq_some hx with ⟨e, ps, -, rfl⟩ | ⟨v, ps, -, rfl⟩
    · exact .inl rfl
    · exact .inr (.inr ⟨i, k, _, List.mem_cons_self, rfl⟩)
  · exact .inl ((act_moved hx).irqs hz fun i k hm => hr ⟨i, k, hm⟩)

/-- No operation is issued with a refresh that begins at a register other than the first. -/
theorem refresh_mem_stepsOf {i : Instr} {s : State} {j : Nat} {k : Poll} (h : .refresh j k ∈ stepsOf i s) : j = 0 := by
  have hfuse : .refresh j k ∉ fuseStep s.params := by unfold fuseStep; split <;> simp
  have hclear : .refresh j k ∉ irqClear s.params := by simp [irqClear]
  have hcmd : ∀ c, .refresh j k ∉ cmdWait s.params c := by simp [cmdWait, hclear, irqWait]
  have hpay : ∀ x, .refresh j k ∉ xcvPayload x := by intro x; unfold xcvPayload; cases x.kind <;> simp
  have hxcv : ∀ x t, .refresh j k ∉ exchange s.params x t := by simp [exchange, hpay, hclear, irqWait]
  have hloop : .refresh j k ∈ fieldLoop s.params → j = 0 := by
    unfold fieldLoop
    split
    · simp
    · simp +contextual
  have hmode : .refresh j k ∉ modeOnSteps s.params := by simp [modeOnSteps, enableOsc]
  have hfield : .refresh j k ∈ fieldOnSteps s.params → j = 0 := by simpa [fieldOnSteps, hclear] using hloop
  have hmethod : ∀ m, .refresh j k ∉ methodSteps s.params s.cfg m := by
    intro m
    unfold methodSteps referenceSteps
    dsimp only
    split
    · split <;> simp [hcmd]
    · simp
  cases i <;> simp only [stepsOf] at h
  case init => simp [initSteps, hfuse, enableOsc, hcmd] at h
  case modeOn => exact absurd h hmode
  case fieldOn => exact hfield h
  case measAmp | measPhase | measCap => simp [measureSteps, hcmd] at h
  case calCap => simp [calCapSteps] at h
  case waitForCard =>
    have : .refresh j k ∉ (if s.mode ≠ .on then modeOnSteps s.params else []) := by
      split
      · exact hmode
      · simp
    simp only [waitForCardSteps, List.mem_append, this, hclear, List.mem_flatMap, hmethod] at h
    simp [maskSteps] at h
  case startA => exact hfield (by simpa [startASteps, hmode] using h)
  case sessionEnd => simp [sessionEndSteps, fieldOffSteps, modeOffSteps] at h
  case modeOff => simp [modeOffSteps] at h
  case fieldOff => simp [fieldOffSteps] at h
  case depXcv =>
    unfold depXcvSteps at h
    split at h
    · simp at h
    · exact absurd h (hxcv _ _)
  all_goals exact absurd h (hxcv _ _)

/-- The steps put next refresh registers that exist (60 R280). -/
theorem puts_refreshIndexOk {p : Params} {m : Micro} {new : List Micro} (h : Puts p m new) :
    ∀ q ∈ new, refreshIndexOk p q = true := by
  have h0 : 0 < nIrq p := by have := two_le_nIrq p; omega
  cases h
  case nextRegister i k hi => simpa [refreshIndexOk] using hi
  case started w now => cases w <;> simp [startTimed, refreshIndexOk, h0]
  case extended x data tx bits rxcap hdr hd =>
    intro q hq
    cases q <;> first | rfl | skip
    rename_i j k
    have hxcv : ∀ x t, Micro.refresh j k ∉ exchange p x t := by
      intro x t
      cases hk : x.kind <;> simp [exchange, xcvPayload, irqClear, irqWait, hk]
    exact absurd hq (hxcv _ _)
  all_goals simp [refreshIndexOk, h0]

/-- One step of CTRL keeps the invariant of the bitmap. -/
theorem ctrlStep_keeps_irqsInv {s t : State} (h : ctrlStep s = some t) (hs : irqsInv s = true) : irqsInv t = true := by
  rw [irqsInv_iff] at hs ⊢
  obtain ⟨hirqs, htodo⟩ := hs
  have hp : t.params = s.params := by
    rcases ctrlStep_effect h with ⟨_, -, rfl⟩ | ⟨_, _, _, u, -, hmoved, hended⟩
    · rfl
    · obtain ⟨_, _, _, _, _, _, _, _, _, _, _, _, rfl⟩ := hmoved.eq
      rcases hended with ⟨_, rfl⟩ | ⟨_, _, rfl⟩ | ⟨_, _, rfl⟩ | ⟨_, rfl⟩ <;> rfl
  rw [hp]
  refine ⟨?_, ctrlStep_todo (fun _ e q hq => ?_) (fun m new _ hputs => puts_refreshIndexOk hputs) h htodo⟩
  · rcases ctrlStep_irqs h with he | he | ⟨i, k, b, hmem, he⟩ <;> rw [he]
    · exact hirqs
    · simp
    · exact orStatus_shift b (by simpa [refreshIndexOk] using htodo _ hmem) hirqs
  · simp only [pathF, List.mem_cons, List.not_mem_nil, or_false] at hq
    rcases hq with rfl | rfl | rfl | rfl | rfl <;> rfl

/-- Settles O45: a step of CTRL refreshes registers that exist, and an issued operation begins each refresh at the
first. -/
theorem unusedInterruptBitsStayZero : Obligations.UnusedInterruptBitsStayZero := by
  unfold Obligations.UnusedInterruptBitsStayZero
  intro s t hs h
  refine step_keeps (I := fun s => irqsInv s = true) ?_ ctrlStep_keeps_irqsInv ?_ (fun _ => ?_) ?_ h hs
  · intro a b hp _ hirqs hseq ha
    simpa only [irqsInv, hp, hirqs, hseq] using ha
  · intro i s hidle _ hs
    rw [irqsInv_iff] at hs ⊢
    refine ⟨hs.1, fun m hm => ?_⟩
    cases m <;> first | rfl | skip
    rename_i j k
    have h0 : 0 < nIrq s.params := by have := two_le_nIrq s.params; omega
    simpa [refreshIndexOk, refresh_mem_stepsOf (i := i) hm] using h0
  · rw [irqsInv_iff]
    exact ⟨by simp [hwReset, State.resetWith], by simp [hwReset, State.resetWith, State.todo]⟩
  · intro s op last todo _ hs
    rw [irqsInv_iff] at hs ⊢
    exact ⟨hs.1, by simp⟩

end Sys2Proof.Machine
end

section
/-! SUPPORT. The session invariant (60 R292, R293). `planOk r todo` says of the steps that remain that they lead back to
quiet registers whatever the answers are; here each exit of a step is shown to keep it, and the step list of each
operation to have it at issue. -/

namespace Sys2Proof.Machine

/-! ## Errors -/

/-- A plan that bears any error bears a transport error. -/
theorem raiseOk_mono {r : Regs} {todo : List Micro} (h : raiseOk r false todo = true) : raiseOk r true todo = true := by
  induction todo with
  | nil => simpa [raiseOk] using h
  | cons m rest ih =>
    cases m
    case attemptEnd => simp_all [raiseOk]
    case startAGuard => simpa [raiseOk] using h
    all_goals
      simp only [raiseOk] at h ⊢
      exact ih h

/-- A plan that bears an error of its kind bears it as a transport error too. -/
theorem raiseOk_transport {r : Regs} {transport : Bool} {todo : List Micro} (h : raiseOk r transport todo = true) :
    raiseOk r true todo = true := by
  cases transport
  · exact raiseOk_mono h
  · exact h

/-- Path F leads to quiet registers where `startAGuard` says so (44 R192). -/
theorem planOk_pathF {r : Regs} (e : Err) (h : modeEdge r.mode .off = true) (hq : quiet { r with mode := .off } = true) :
    planOk r (pathF e) = true := by
  simp [pathF, planOk, raiseOk, h, hq]

/-- Taking an error that the plan bears keeps the session invariant (60 R286). -/
theorem sessionInv_raiseErr {e : Err} {op : Instr} {transport : Bool} {u : State}
    (htr : transport = true → ∃ c, e = .interface c) {todo : List Micro} (h : raiseOk (regsOf u) transport todo = true) :
    sessionInv (raiseErr e op todo u) = true := by
  induction todo generalizing transport with
  | nil =>
    simp only [raiseOk] at h
    exact h
  | cons m rest ih =>
    cases m
    case attemptEnd a =>
      simp only [raiseOk, Bool.and_eq_true, Bool.or_eq_true] at h
      obtain ⟨hplan, hraise⟩ := h
      by_cases he : ∃ c, e = .interface c
      · obtain ⟨c, rfl⟩ := he
        exact hplan
      · have hrest : raiseErr e op (.attemptEnd a :: rest) u = raiseErr e op rest u := by
          cases e <;> first | rfl | exact absurd ⟨_, rfl⟩ he
        rw [hrest]
        have hfalse : raiseOk (regsOf u) false rest = true := hraise.resolve_left fun ht => he (htr ht)
        exact ih (by simp) hfalse
    case startAGuard =>
      simp only [raiseOk, Bool.and_eq_true] at h
      exact planOk_pathF e h.1 h.2
    all_goals exact ih htr (by simpa only [raiseOk] using h)

/-! ## The exits of a step -/

/-- The steps that write READY, MODE or SESS when they go on. -/
def Micro.setsRegs : Micro → Bool
  | .setMode _ => true
  | .setReady => true
  | .setSess _ => true
  | _ => false

/-- Any other step that goes on leaves the registers of the matrix. -/
theorem act_goes_regs {m : Micro} {s u : State} {new : List Micro} (h : act m s = some (.goes u new))
    (hm : m.setsRegs = false) : regsOf u = regsOf s := by
  have hmoved := act_moved h
  have hready := hmoved.ready (by rintro rfl; nomatch hm)
  have hmode := hmoved.mode (by rintro v rfl; nomatch hm)
  have hfatal : u.fatal = s.fatal := by
    by_cases hp : ∃ dl, m = .pollCal dl
    · obtain ⟨dl, rfl⟩ := hp
      simp only [act] at h
      obtain ⟨v, ps, -, hx⟩ := ask_goes h
      unfold calExit at hx
      split at hx
      · nomatch hx
      · split at hx <;> cases hx
        rfl
    · exact hmoved.fatal (not_exists.mp hp)
  have hsess : u.sess = s.sess := by
    by_cases hp : ∃ x data bits, m = .deliver x data bits
    · obtain ⟨x, data, bits, rfl⟩ := hp
      simp only [act, Option.some.injEq] at h
      rcases deliverExit_cases x data bits s with he | ⟨-, _, -, he⟩ | ⟨_, _, _, -, -, he⟩ <;> rw [h] at he
      · exact congrArg State.sess he
      · nomatch he
      · nomatch he
    · exact hmoved.sess (by rintro v rfl; nomatch hm) fun x data bits hd => hp ⟨x, data, bits, hd⟩
  simp_all [regsOf, Exit.state]

/-- The steps that do nothing but transactions, timer reads and waits, and write at most IRQS. -/
def Micro.plain : Micro → Bool
  | .cmd _ => true
  | .write _ => true
  | .fifoWrite _ => true
  | .readIdentity => true
  | .pollOsc => true
  | .modifyOpControl _ => true
  | .drainIrq _ => true
  | .zeroIrqs => true
  | .startTimer (.irqWait _ _) => true
  | .startTimer (.fieldOn _) => true
  | .refresh _ (.field _) => true
  | .readVdd => true
  | .readRef _ => true
  | _ => false

/-- An error passes plain steps. -/
theorem raiseOk_plain {r : Regs} {transport : Bool} {l : List Micro} (hl : l.all Micro.plain = true) (rest : List Micro) :
    raiseOk r transport (l ++ rest) = raiseOk r transport rest := by
  induction l with
  | nil => rfl
  | cons m l ih =>
    simp only [List.all_cons, Bool.and_eq_true] at hl
    obtain ⟨hm, hl⟩ := hl
    cases m <;> simp only [Micro.plain, reduceCtorEq] at hm <;> simpa only [List.cons_append, raiseOk] using ih hl

/-- Plain steps keep the plan of what follows them. -/
theorem planOk_plain {r : Regs} {l rest : List Micro} (hl : l.all Micro.plain = true)
    (hraise : raiseOk r false rest = true) (hplan : planOk r rest = true) : planOk r (l ++ rest) = true := by
  induction l with
  | nil => exact hplan
  | cons m l ih =>
    simp only [List.all_cons, Bool.and_eq_true] at hl
    obtain ⟨hm, hl⟩ := hl
    have h1 : raiseOk r false (l ++ rest) = true := by rw [raiseOk_plain hl]; exact hraise
    have h2 : raiseOk r true (l ++ rest) = true := raiseOk_mono h1
    have h3 := ih hl
    cases m <;> simp only [Micro.plain, reduceCtorEq] at hm
    case startTimer w => cases w <;> simp_all [Micro.plain, planOk]
    case refresh i k => cases k <;> simp_all [Micro.plain, planOk]
    all_goals simp_all [planOk]

@[simp] theorem plain_irqClear (p : Params) : (irqClear p).all Micro.plain = true := by
  simp [irqClear, Micro.plain]

@[simp] theorem plain_cmdWait (p : Params) (c : AfeCmd) : (cmdWait p c).all Micro.plain = true := by
  simp [cmdWait, irqWait, Micro.plain]

@[simp] theorem plain_enableOsc : enableOsc.all Micro.plain = true := rfl

@[simp] theorem plain_fuseStep (p : Params) : (fuseStep p).all Micro.plain = true := by
  unfold fuseStep
  split <;> rfl

@[simp] theorem plain_fieldOnSteps (p : Params) : (fieldOnSteps p).all Micro.plain = true := by
  have hloop : (fieldLoop p).all Micro.plain = true := by unfold fieldLoop; split <;> rfl
  simp [fieldOnSteps, hloop, Micro.plain]

@[simp] theorem plain_methodSteps (p : Params) (cfg : List Byte) (m : Method) :
    (methodSteps p cfg m).all Micro.plain = true := by
  unfold methodSteps referenceSteps
  dsimp only
  split
  · split <;> simp [Micro.plain]
  · rfl

/-- The steps of an exchange before its step S6 are plain. -/
theorem exchange_eq_plain (p : Params) (x : Xcv) (timeout : Nat) :
    ∃ l, l.all Micro.plain = true ∧ exchange p x timeout = l ++ [.startTimer (.xcv x)] := by
  refine ⟨_, ?_, rfl⟩
  have hpay : (xcvPayload x).all Micro.plain = true := by unfold xcvPayload; cases x.kind <;> rfl
  simp [hpay, irqWait, Micro.plain]

/-- An exchange keeps the plan of what follows it. -/
theorem planOk_exchange {p : Params} {x : Xcv} {timeout : Nat} {r : Regs} {rest : List Micro}
    (hend : endingOk r x = true) (hraise : raiseOk r false rest = true) (hplan : planOk r rest = true) :
    planOk r (exchange p x timeout ++ rest) = true := by
  obtain ⟨l, hl, he⟩ := exchange_eq_plain p x timeout
  rw [he, List.append_assoc]
  exact planOk_plain hl (by simpa [raiseOk] using hraise) (by simp [planOk, hend, hraise, hplan])

/-- A step of a good plan that goes on leaves a good plan. -/
theorem puts_planOk {p : Params} {r : Regs} {m : Micro} {new rest : List Micro} (h : Puts p m new)
    (hm : m.setsRegs = false) (hplan : planOk r (m :: rest) = true) : planOk r (new ++ rest) = true := by
  cases h
  case nothing hpass =>
    cases m <;> simp only [Micro.passes, Micro.setsRegs, reduceCtorEq] at hpass hm
    case test k => cases k <;> simp_all [planOk]
    all_goals simp_all [planOk]
  case extended x data tx bits rxcap hdr hd =>
    simp only [planOk, Bool.and_eq_true] at hplan
    obtain ⟨⟨hend, hraise⟩, hrest⟩ := hplan
    refine planOk_exchange ?_ hraise hrest
    simp only [endingOk, Bool.and_eq_true] at hend ⊢
    exact ⟨hend.1, rfl⟩
  case started w now => cases w <;> simpa [startTimed, planOk] using hplan
  case nextRegister i k _ | lastRegister i k => cases k <;> simpa [planOk] using hplan
  case undecided k => cases k <;> simpa [planOk] using hplan
  case again k => cases k <;> simpa [planOk] using hplan
  all_goals simp_all [planOk, raiseOk, raiseOk_mono]

/-- A step of a good plan that raises an error leaves one that bears it; CalibrationFault comes with FATAL set. -/
theorem raises_planOk {r : Regs} {m : Micro} {e : Err} {rest : List Micro} (h : Raises m e)
    (hplan : planOk r (m :: rest) = true) :
    ∃ transport, (transport = true → ∃ c, e = .interface c) ∧ raiseOk r transport rest = true ∧
      ((∃ dl, m = .pollCal dl) → raiseOk { r with fatal := true } false rest = true) := by
  cases h
  case transport t c ht =>
    refine ⟨true, fun _ => ⟨c, rfl⟩, ?_⟩
    cases m <;> simp only [transactionOf, reduceCtorEq] at ht
    case refresh i k => cases k <;> simp_all [planOk, raiseOk_mono]
    all_goals simp_all [planOk, raiseOk_mono]
  all_goals
    refine ⟨false, by simp, ?_⟩
    simp_all [planOk]

theorem testExit_ne_returns (s u : State) (k : Poll) (v : Nat) (rx : Option (List Byte)) :
    testExit s k ≠ .returns u v rx := by
  intro h
  unfold testExit at h
  split at h
  · nomatch h
  · split at h
    · nomatch h
    · split at h
      · nomatch h
      · split at h <;> nomatch h
  · split at h <;> nomatch h

theorem deadlineExit_ne_returns (k : Poll) (now : Nat) (s u : State) (v : Nat) (rx : Option (List Byte)) :
    deadlineExit k now s ≠ .returns u v rx := by
  intro h
  unfold deadlineExit at h
  split at h
  · cases k <;> nomatch h
  · nomatch h

theorem checksExit_ne_returns (x : Xcv) (n : Nat) (s u : State) (v : Nat) (rx : Option (List Byte)) :
    checksExit x n s ≠ .returns u v rx := by
  intro h
  unfold checksExit at h
  split at h
  · nomatch h
  · split at h <;> nomatch h

theorem decodeExit_ne_returns (x : Xcv) (f : List Byte) (s u : State) (v : Nat) (rx : Option (List Byte)) :
    decodeExit x f s ≠ .returns u v rx := by
  intro h
  unfold decodeExit at h
  split at h
  · split at h <;> nomatch h
  all_goals nomatch h

/-- The steps that return: the ADC read of a measurement, the read of CAP_CAL_RESULT, and a delivery. -/
theorem act_returns {m : Micro} {s u : State} {v : Nat} {rx : Option (List Byte)}
    (h : act m s = some (.returns u v rx)) :
    m = .returnAdc ∨ (∃ dl, m = .pollCal dl) ∨ ∃ x data bits, m = .deliver x data bits := by
  cases m <;> simp only [act, Option.some.injEq, reduceCtorEq] at h
  case returnAdc => exact .inl rfl
  case pollCal dl => exact .inr (.inl ⟨dl, rfl⟩)
  case deliver x data bits => exact .inr (.inr ⟨x, data, bits, rfl⟩)
  case test k => exact absurd h (testExit_ne_returns _ _ _ _ _)
  case waitRise =>
    split at h
    · nomatch h
    · split at h <;> nomatch h
  case startTimer | delayUntil =>
    obtain ⟨d, ts, -, hx⟩ := askTime_eq_some h
    nomatch hx
  case deadline =>
    obtain ⟨d, ts, -, hx⟩ := askTime_eq_some h
    exact absurd hx.symm (deadlineExit_ne_returns _ _ _ _ _ _)
  case calDeadline =>
    obtain ⟨d, ts, -, hx⟩ := askTime_eq_some h
    split at hx <;> nomatch hx
  all_goals
    rcases ask_eq_some h with ⟨c, ps, -, hx⟩ | ⟨w, ps, -, hx⟩
    · nomatch hx
  case readFifoA => exact absurd hx.symm (checksExit_ne_returns _ _ _ _ _ _)
  case readFifo => exact absurd hx.symm (decodeExit_ne_returns _ _ _ _ _ _)
  case readFifoB => split at hx <;> nomatch hx
  all_goals nomatch hx

/-- What CAL_CAP returns leaves the registers of the matrix. -/
theorem calExit_returns_regs {dl : Nat} {r : CapCalResult} {s u : State} {v : Nat} {rx : Option (List Byte)}
    (h : calExit dl r s = .returns u v rx) : u = s ∧ v = r.value.toNat ∧ rx = none := by
  unfold calExit at h
  split at h
  · nomatch h
  · split at h <;> cases h
    exact ⟨rfl, rfl, rfl⟩

/-- A step of a good plan that returns leaves quiet registers. -/
theorem returns_quiet {m : Micro} {s u : State} {v : Nat} {rx : Option (List Byte)} {rest : List Micro}
    (h : act m s = some (.returns u v rx)) (hplan : planOk (regsOf s) (m :: rest) = true) :
    quiet (regsOf u) = true := by
  rcases act_returns h with rfl | ⟨dl, rfl⟩ | ⟨x, data, bits, rfl⟩ <;>
    simp only [act, Option.some.injEq] at h <;>
    simp only [planOk, endingOk, Bool.and_eq_true] at hplan
  · rcases ask_eq_some h with ⟨c, ps, -, hx⟩ | ⟨w, ps, -, hx⟩ <;> cases hx
    exact hplan.1
  · rcases ask_eq_some h with ⟨c, ps, -, hx⟩ | ⟨w, ps, -, hx⟩
    · nomatch hx
    · rw [(calExit_returns_regs hx.symm).1]
      exact hplan.1.1
  · obtain ⟨⟨⟨hquiet, hdep⟩, -⟩, -⟩ := hplan
    rcases deliverExit_cases x data bits s with he | ⟨hd, _, -, he⟩ | ⟨_, _, _, -, -, he⟩ <;> rw [h] at he
    · rw [show u = s from he]; exact hquiet
    · cases he
      simpa [hd, regsOf] using hdep
    · cases he; exact hquiet

/-- The registers of the matrix after a step that raises an error: FATAL may have been set (42 R157). -/
theorem act_raises_regs {m : Micro} {s u : State} {e : Err} (h : act m s = some (.raises u e)) :
    regsOf u = regsOf s ∨ (∃ dl, m = .pollCal dl) ∧ regsOf u = { regsOf s with fatal := true } := by
  have hmoved := act_moved h
  have hkinds := act_raises h
  have hready := hmoved.ready (by rintro rfl; simp [act] at h)
  have hmode := hmoved.mode (by rintro v rfl; simp [act] at h)
  have hsess : u.sess = s.sess := by
    by_cases hp : ∃ x data bits, m = .deliver x data bits
    · obtain ⟨x, data, bits, rfl⟩ := hp
      simp only [act, Option.some.injEq] at h
      rcases deliverExit_cases x data bits s with he | ⟨-, _, -, he⟩ | ⟨_, _, _, -, -, he⟩ <;> rw [h] at he
      · exact congrArg State.sess he
      · nomatch he
      · nomatch he
    · exact hmoved.sess (by rintro v rfl; simp [act] at h) fun x data bits hd => hp ⟨x, data, bits, hd⟩
  simp only [Exit.state] at hready hmode
  by_cases hp : ∃ dl, m = .pollCal dl
  · cases hf : u.fatal == s.fatal
    · right
      refine ⟨hp, ?_⟩
      obtain ⟨dl, rfl⟩ := hp
      simp only [act] at h
      rcases ask_eq_some h with ⟨c, ps, -, hx⟩ | ⟨w, ps, -, hx⟩
      · cases hx; simp at hf
      · have := congrArg Exit.state hx
        rw [calExit_state] at this
        simp only [Exit.state] at this
        subst this
        cases hc : w.capCal.calErr <;> simp_all [regsOf]
    · left
      simp_all [regsOf]
  · left
    have hfatal := hmoved.fatal (not_exists.mp hp)
    simp_all [regsOf, Exit.state]

/-- One step of CTRL keeps the session invariant. -/
theorem ctrlStep_keeps_sessionInv {s t : State} (h : ctrlStep s = some t) (hs : sessionInv s = true) :
    sessionInv t = true := by
  rcases ctrlStep_cases h with ⟨op, hseq, rfl⟩ | ⟨op, m, rest, x, hseq, hx, rfl⟩ <;>
    simp only [sessionInv, hseq] at hs
  · simp only [planOk] at hs
    exact hs
  cases x with
  | returns u v rx =>
    have hquiet := returns_quiet hx hs
    exact hquiet
  | raises u e =>
    obtain ⟨transport, htr, hraise, hfatal⟩ := raises_planOk (act_raises hx) hs
    rcases act_raises_regs hx with hregs | ⟨hp, hregs⟩ <;> simp only [Exit.resume]
    · exact sessionInv_raiseErr htr (by rwa [hregs])
    · exact sessionInv_raiseErr (transport := false) (by simp) (by rw [hregs]; exact hfatal hp)
  | goes u new =>
    show planOk (regsOf u) (new ++ rest) = true
    by_cases hm : m.setsRegs = false
    · rw [act_goes_regs hx hm]
      exact puts_planOk (act_puts hx) hm hs
    · cases m <;> simp only [Micro.setsRegs, not_true] at hm <;>
        simp only [act, Option.some.injEq, Exit.goes.injEq] at hx <;> obtain ⟨rfl, rfl⟩ := hx <;>
        simp only [planOk, Bool.and_eq_true] at hs
      · exact hs.2
      all_goals exact hs

/-! ## The step lists at issue -/

/-- MODE_ON's steps, from any MODE (41 R130). -/
theorem planOk_modeOn {p : Params} {r : Regs} {rest : List Micro} (hraise : raiseOk { r with mode := .on } false rest = true)
    (hplan : planOk { r with mode := .on } rest = true) : planOk r (modeOnSteps p ++ rest) = true := by
  have hedge : modeEdge r.mode .on = true := by cases r.mode <;> rfl
  have hl : (enableOsc ++ ([.modifyOpControl .efdAuto, .write (.txDriver p.dResNominal)] : List Micro)).all Micro.plain =
      true := rfl
  have he : modeOnSteps p ++ rest =
      .setMode .on :: ((enableOsc ++ [.modifyOpControl .efdAuto, .write (.txDriver p.dResNominal)]) ++ rest) := rfl
  rw [he]
  simp only [planOk, hedge, Bool.true_and]
  exact planOk_plain hl hraise hplan

/-- What the matrix asks of the registers (60 R290). -/
theorem permitted_regs {i : Instr} {s : State} (h : permitted i s = true) :
    s.ready = (matrixRow i).ready ∧ s.fatal = false ∧ s.sess ∈ (matrixRow i).sess ∧ s.mode ∈ (matrixRow i).mode := by
  simp only [permitted, Bool.and_eq_true, beq_iff_eq, Bool.not_eq_true', List.contains_iff_mem] at h
  obtain ⟨⟨⟨⟨⟨⟨hready, hfatal⟩, hsess⟩, hmode⟩, -⟩, -⟩, -⟩ := h
  exact ⟨hready, hfatal, hsess, hmode⟩

/-- Outside a session, with READY set and FATAL clear, the registers are quiet in every MODE. -/
theorem quiet_outside (m : Mode) : quiet { ready := true, fatal := false, mode := m, sess := .none } = true := rfl

/-- A plain step list, from quiet registers. -/
theorem planOk_of_plain {r : Regs} {l : List Micro} (hl : l.all Micro.plain = true) (hq : quiet r = true) :
    planOk r l = true := by
  simpa using planOk_plain (rest := []) hl (by simpa [raiseOk] using hq) (by simpa [planOk] using hq)

/-- The step list of a permitted operation leads back to quiet registers. -/
theorem planOk_stepsOf {i : Instr} {s : State} (hp : permitted i s = true) (hq : quiet (regsOf s) = true) :
    planOk (regsOf s) (stepsOf i s) = true := by
  obtain ⟨hready, hfatal, hsess, hmode⟩ := permitted_regs hp
  have hxcv : ∀ x t, x.dest ≠ .depNew → planOk (regsOf s) (exchange s.params x t) = true := by
    intro x t hx
    simpa using planOk_exchange (rest := []) (by simp [endingOk, hq, hx]) (by simpa [raiseOk] using hq)
      (by simpa [planOk] using hq)
  cases i <;> simp only [stepsOf]
  case xcvReqa | xcvWupa | xcvAnticoll | xcvStandard => exact hxcv _ _ (fun h => nomatch h)
  case depXcv =>
    unfold depXcvSteps
    split
    · simpa [planOk, raiseOk] using hq
    · exact hxcv _ _ (fun h => nomatch h)
  case depNew =>
    simp only [matrixRow, List.mem_singleton] at hsess hready
    have hdep : quiet { regsOf s with sess := .dep } = true := by simp_all [quiet, regsOf]
    simpa [depNewSteps] using planOk_exchange (rest := []) (by simp [endingOk, hq, hdep]) (by simpa [raiseOk] using hq)
      (by simpa [planOk] using hq)
  case sessionEnd =>
    simp only [matrixRow] at hready
    have hmodeOn : s.mode = .on := by
      simp only [matrixRow, List.mem_cons, List.not_mem_nil, or_false] at hsess
      rcases hsess with h | h <;> simp_all [quiet, regsOf]
    simp [sessionEndSteps, fieldOffSteps, modeOffSteps, planOk, raiseOk, regsOf, hready, hfatal, hmodeOn, modeEdge, quiet]
  all_goals
    simp only [matrixRow, List.mem_singleton] at hready hsess
    have hregs : regsOf s = ⟨s.ready, s.fatal, s.mode, s.sess⟩ := rfl
    rw [hready, hfatal, hsess] at hregs
    rw [hregs] at hq ⊢
  case fieldOn => exact planOk_of_plain (plain_fieldOnSteps _) hq
  case fieldOff => exact planOk_of_plain rfl hq
  case modeOn => simpa using planOk_modeOn (rest := []) rfl rfl
  case modeOff => cases s.mode <;> rfl
  case measAmp | measPhase | measCap =>
    exact planOk_plain (plain_cmdWait _ _) (by simpa [raiseOk] using hq) (by simpa [planOk, raiseOk] using hq)
  case calCap => simp [calCapSteps, planOk, raiseOk, quiet]
  case init =>
    rw [initSteps]
    refine planOk_plain (by simp [Micro.plain]) (by simpa [raiseOk] using hq) ?_
    simp [planOk, quiet]
  case startA =>
    rw [startASteps, List.append_assoc]
    refine planOk_modeOn ?_ (planOk_plain (plain_fieldOnSteps _) rfl rfl)
    rw [raiseOk_plain (plain_fieldOnSteps _)]
    rfl
  case waitForCard =>
    have htail : ∀ l, l.all Micro.plain = true →
        raiseOk ⟨true, false, .on, .none⟩ false (.setMode .wakeup :: (l ++ [.waitRise none])) = true ∧
        planOk ⟨true, false, .on, .none⟩ (.setMode .wakeup :: (l ++ [.waitRise none])) = true := by
      intro l hl
      refine ⟨by simp [raiseOk, raiseOk_plain hl, quiet], ?_⟩
      simp only [planOk, modeEdge, Bool.true_and]
      exact planOk_plain hl rfl rfl
    have hlist : ∃ l, l.all Micro.plain = true ∧ waitForCardSteps s.params s.mode s.cfg =
        (if s.mode ≠ .on then modeOnSteps s.params else []) ++ .setMode .wakeup :: (l ++ [.waitRise none]) := by
      refine ⟨[.cmd .stop, .write (.opControl {}), .write .opModeIso14443aInitiator] ++
        allMethods.flatMap (methodSteps s.params s.cfg) ++ irqClear s.params ++
        [.write (.wuTimerControl (wuTimerControlOf s.cfg)), .write (.opControl { wu := true })] ++
        maskSteps s.params s.cfg, ?_, by simp [waitForCardSteps]⟩
      have hmask : (maskSteps s.params s.cfg).all Micro.plain = true := by simp [maskSteps, Micro.plain]
      simp [hmask, allMethods, Micro.plain]
    obtain ⟨l, hl, he⟩ := hlist
    rw [he]
    split
    · exact planOk_modeOn (htail l hl).1 (htail l hl).2
    · rename_i hon
      rw [not_not.mp hon]
      exact (htail l hl).2

/-- Settles O44: a step of CTRL keeps the plan, an issued step list has it, and the sleep ends in quiet registers. -/
theorem sessionInvariantKept : Obligations.SessionInvariantKept := by
  unfold Obligations.SessionInvariantKept
  intro s t hs h
  refine step_keeps (I := fun s => sessionInv s = true) ?_ ctrlStep_keeps_sessionInv ?_ (fun _ => rfl) ?_ h hs
  · intro a b _ hregs _ hseq ha
    simpa only [sessionInv, hregs, hseq] using ha
  · intro i s hidle hp hs
    simp only [sessionInv, hidle] at hs
    have hplan := planOk_stepsOf hp hs
    exact hplan
  · intro s op last todo hseq hs
    simp only [sessionInv, hseq, planOk, Bool.and_eq_true] at hs
    exact hs.1

/-- Settles O46: at reset SEQ is Idle, the registers are quiet and IRQS is 0. -/
theorem invariantsHoldAtReset : Obligations.InvariantsHoldAtReset := ⟨rfl, rfl⟩

/-- A step of a good plan that writes MODE takes an edge. -/
theorem setMode_edge {r : Regs} {v : Mode} {rest : List Micro} (h : planOk r (.setMode v :: rest) = true) :
    modeEdge r.mode v = true := by
  simp only [planOk, Bool.and_eq_true] at h
  exact h.1

/-- MODE under one step of CTRL: only the step that sets it writes it (60 R292). -/
theorem ctrlStep_mode {s t : State} (h : ctrlStep s = some t) :
    t.mode = s.mode ∨ ∃ op v rest, s.seq = .busy op (.setMode v :: rest) ∧ t.mode = v := by
  rcases ctrlStep_effect h with ⟨op, -, rfl⟩ | ⟨op, m, rest, u, hseq, hmoved, hended⟩
  · exact .inl rfl
  have hmode : t.mode = u.mode := by
    rcases hended with ⟨_, rfl⟩ | ⟨_, _, rfl⟩ | ⟨_, _, rfl⟩ | ⟨_, rfl⟩ <;> rfl
  by_cases hm : ∃ v, m = .setMode v
  · obtain ⟨v, rfl⟩ := hm
    rw [ctrlStep_busy hseq] at h
    cases h
    exact .inr ⟨op, v, rest, hseq, rfl⟩
  · exact .inl (hmode.trans (hmoved.mode (not_exists.mp hm)))

/-- Settles O47: only `setMode` writes MODE, and in a good plan it takes an edge. -/
theorem modeMovesAlongItsEdges : Obligations.ModeMovesAlongItsEdges := by
  unfold Obligations.ModeMovesAlongItsEdges
  intro s t hs h
  rcases ctrlStep_mode h with he | ⟨op, v, rest, hseq, rfl⟩
  · exact .inl he
  · simp only [sessionInv, hseq] at hs
    have hedge : modeEdge s.mode t.mode = true := setMode_edge hs
    right
    revert hedge
    cases s.mode <;> cases t.mode <;> decide

end Sys2Proof.Machine
end

section
/-! SUPPORT. Frames. Each step has powers: the registers that it, or a step it can put next, may write, and whether it may
end the operation Ok or take an error. No step puts one with a power of its own next, so an operation writes only what
the steps it is issued with have the power to write: the table `powersOf`. -/

namespace Sys2Proof.Machine

/-! ## Powers of a step -/

/-- What a step may do: write a register (`block` is FSC and SPIN), open an ISO-DEP session, sample the line, return,
catch an error, write TX_DRIVER. -/
inductive Power where
  | ready | fatal | mode | irqs | sess | dep | block | line | returns | catches | driver
  deriving DecidableEq

/-- Every power. -/
def Power.all : List Power := [.ready, .fatal, .mode, .irqs, .sess, .dep, .block, .line, .returns, .catches, .driver]

/-- The exchange that a step belongs to, from exchange step S6 on. -/
def Micro.xcv? : Micro → Option Xcv
  | .startTimer (.xcv x) => some x
  | .refresh _ (.xcv x _) => some x
  | .test (.xcv x _) => some x
  | .deadline (.xcv x _) => some x
  | .readFifoB x => some x
  | .readFifoA x _ => some x
  | .readFifo x _ => some x
  | .readCollision x _ => some x
  | .deliver x _ _ => some x
  | _ => none

/-- What the step `m`, or a step that it leads to, may do. -/
def Micro.may (m : Micro) : Power → Bool
  | .ready => m == .setReady
  | .fatal => match m with
    | .pollCal _ => true
    | .calDeadline _ => true
    | .startTimer .calCap => true
    | _ => false
  | .mode => match m with
    | .setMode _ => true
    | .startAGuard => true
    | _ => false
  | .irqs => match m with
    | .zeroIrqs => true
    | .refresh _ _ => true
    | .test _ => true
    | .deadline _ => true
    | .startTimer (.irqWait _ _) => true
    | .startTimer (.fieldOn _) => true
    | _ => m.xcv?.isSome
  | .sess => match m with
    | .setSess _ => true
    | _ => m.xcv?.any (·.dest == .depNew)
  | .dep => match m with
    | .setSess v => v == .dep
    | _ => m.xcv?.any (·.dest == .depNew)
  | .block => m.xcv?.any (·.dest != .host)
  | .line => match m with
    | .waitRise _ => true
    | _ => false
  | .returns => match m with
    | .returnAdc => true
    | .pollCal _ => true
    | .calDeadline _ => true
    | .startTimer .calCap => true
    | _ => m.xcv?.isSome
  | .catches => match m with
    | .attemptEnd _ => true
    | .startAGuard => true
    | _ => false
  | .driver => match m with
    | .write (.txDriver _) => true
    | _ => false

/-- The steps `l` have no powers but those of `cs`. -/
def Within (cs : List Power) (l : List Micro) : Prop :=
  l.all (fun m => Power.all.all fun c => !m.may c || cs.contains c) = true

theorem Power.mem_all (c : Power) : c ∈ Power.all := by cases c <;> decide

theorem within_iff {cs : List Power} {l : List Micro} :
    Within cs l ↔ ∀ m ∈ l, ∀ c, m.may c = true → c ∈ cs := by
  simp only [Within, List.all_eq_true, Bool.or_eq_true, Bool.not_eq_true', List.contains_iff_mem]
  constructor
  · intro h m hm c hc
    exact (h m hm c c.mem_all).resolve_left (by simp [hc])
  · intro h m hm c _
    cases hc : m.may c
    · exact .inl rfl
    · exact .inr (h m hm c hc)

@[simp] theorem within_append {cs : List Power} {l r : List Micro} : Within cs (l ++ r) ↔ Within cs l ∧ Within cs r := by
  simp [Within, List.all_append]

@[simp] theorem within_nil {cs : List Power} : Within cs [] := rfl

theorem Within.mono {cs ds : List Power} {l : List Micro} (h : Within cs l) (hsub : cs ⊆ ds) : Within ds l :=
  within_iff.mpr fun m hm c hc => hsub (within_iff.mp h m hm c hc)

/-! ## The powers of the shared step lists -/

theorem within_irqClear (p : Params) : Within [.irqs] (irqClear p) := by
  rw [irqClear, within_append]
  refine ⟨within_iff.mpr fun m hm => ?_, rfl⟩
  obtain ⟨i, -, rfl⟩ := List.mem_map.mp hm
  intro c
  cases c <;> simp [Micro.may, Micro.xcv?]

theorem within_cmdWait (p : Params) (c : AfeCmd) : Within [.irqs] (cmdWait p c) := by
  simp only [cmdWait, within_append]
  exact ⟨⟨within_irqClear p, rfl⟩, rfl⟩

theorem within_modeOn (p : Params) : Within [.mode, .driver] (modeOnSteps p) := rfl

theorem within_modeOff : Within [.mode] modeOffSteps := rfl

theorem within_fieldOn (p : Params) : Within [.irqs] (fieldOnSteps p) := by
  have hloop : Within [.irqs] (fieldLoop p) := by unfold fieldLoop; split <;> rfl
  simp only [fieldOnSteps, within_append]
  exact ⟨⟨⟨⟨rfl, within_irqClear p⟩, rfl⟩, hloop⟩, rfl⟩

theorem within_method (p : Params) (cfg : List Byte) (m : Method) : Within [.irqs] (methodSteps p cfg m) := by
  unfold methodSteps referenceSteps
  dsimp only
  split
  · rw [within_append]
    refine ⟨?_, rfl⟩
    split
    · rfl
    · exact within_append.mpr ⟨within_cmdWait p _, rfl⟩
    · exact within_append.mpr ⟨within_cmdWait p _, rfl⟩
    · rfl
  · rfl

theorem within_masks (p : Params) (cfg : List Byte) : Within [] (maskSteps p cfg) := by
  refine within_iff.mpr fun m hm => ?_
  obtain ⟨i, -, rfl⟩ := List.mem_map.mp hm
  intro c
  cases c <;> simp [Micro.may, Micro.xcv?]

/-- The powers of an exchange: those of its destination beside IRQS and the return. -/
def Xcv.powers (x : Xcv) : List Power :=
  [.irqs, .returns] ++ (if x.dest = .depNew then [.sess, .dep] else []) ++ (if x.dest ≠ .host then [.block] else [])

theorem within_exchange (p : Params) (x : Xcv) (timeout : Nat) : Within x.powers (exchange p x timeout) := by
  have hirqs : [.irqs] ⊆ x.powers := by simp [Xcv.powers]
  have hpay : Within [] (xcvPayload x) := by unfold xcvPayload; cases x.kind <;> rfl
  have htimer : Within x.powers [.startTimer (.xcv x)] := by
    refine within_iff.mpr fun m hm c => ?_
    rw [List.mem_singleton.mp hm]
    cases c <;> simp [Micro.may, Micro.xcv?, Xcv.powers]
  simp only [exchange, within_append]
  exact ⟨⟨⟨⟨⟨⟨rfl, hpay.mono (List.nil_subset _)⟩, rfl⟩, (within_irqClear p).mono hirqs⟩, rfl⟩, rfl⟩, htimer⟩

/-! ## No step puts one with a power of its own next -/

theorem puts_may {p : Params} {m q : Micro} {new : List Micro} {c : Power} (h : Puts p m new) (hq : q ∈ new)
    (hc : q.may c = true) : m.may c = true := by
  cases h
  case nothing => nomatch hq
  case extended x data tx bits rxcap hdr hd =>
    have hmem := within_iff.mp (within_exchange p (depExchange tx p.depCap (.depXcv hdr rxcap)) p.tDep) q hq c hc
    simp only [Xcv.powers, depExchange] at hmem
    cases c <;> simp_all [Micro.may, Micro.xcv?]
  case started w now =>
    rw [List.mem_singleton.mp hq] at hc
    cases w <;> cases c <;> simp_all [startTimed, Micro.may, Micro.xcv?]
  case nextRegister i k _ | lastRegister i k | undecided k =>
    rw [List.mem_singleton.mp hq] at hc
    cases k <;> cases c <;> simp_all [Micro.may, Micro.xcv?]
  case again k =>
    simp only [List.mem_cons, List.not_mem_nil, or_false] at hq
    rcases hq with rfl | rfl <;> cases k <;> cases c <;> simp_all [Micro.may, Micro.xcv?]
  case fieldAgain | xcvError | xcvSuccess | xcvLate | calAgain | delayAgain =>
    simp only [List.mem_cons, List.not_mem_nil, or_false] at hq
    rcases hq with rfl | rfl <;> cases c <;> simp_all [Micro.may, Micro.xcv?]
  all_goals
    rw [List.mem_singleton.mp hq] at hc
    cases c <;> simp_all [Micro.may, Micro.xcv?]

/-- Path F has no power that `startAGuard` has not. -/
theorem pathF_may {q : Micro} {e : Err} {c : Power} (hq : q ∈ pathF e) (hc : q.may c = true) :
    Micro.startAGuard.may c = true := by
  simp only [pathF, List.mem_cons, List.not_mem_nil, or_false] at hq
  rcases hq with rfl | rfl | rfl | rfl | rfl <;> cases c <;> simp_all [Micro.may, Micro.xcv?]

/-! ## What is kept without a power -/

/-- Where the power has not been used: its register is as it was, no ISO-DEP session has been opened, no write of
TX_DRIVER has been recorded. -/
def Power.kept (c : Power) (s t : State) : Prop :=
  match c with
  | .ready => t.ready = s.ready
  | .fatal => t.fatal = s.fatal
  | .mode => t.mode = s.mode
  | .irqs => t.irqs = s.irqs
  | .sess => t.sess = s.sess
  | .dep => t.sess = .dep → s.sess = .dep
  | .block => t.fsc = s.fsc ∧ t.spin = s.spin
  | .line => t.line = s.line
  | .returns => True
  | .catches => True
  | .driver => ∃ events, t.trace = s.trace ++ events ∧ ∀ d, .write (.txDriver d) ∉ events

theorem Power.kept_of_eq {c : Power} {s t : State} (hregs : regsOf t = regsOf s) (hirqs : t.irqs = s.irqs)
    (hblock : t.fsc = s.fsc ∧ t.spin = s.spin) (hline : t.line = s.line)
    (htrace : ∃ events, t.trace = s.trace ++ events ∧ ∀ d, .write (.txDriver d) ∉ events) : c.kept s t := by
  simp only [regsOf, Regs.mk.injEq] at hregs
  obtain ⟨hready, hfatal, hmode, hsess⟩ := hregs
  cases c
  case dep => exact fun h => hsess ▸ h
  all_goals first | assumption | trivial

theorem Power.kept.refl (c : Power) (s : State) : c.kept s s :=
  Power.kept_of_eq rfl rfl ⟨rfl, rfl⟩ rfl ⟨[], (List.append_nil _).symm, by simp⟩

theorem Power.kept.trans {c : Power} {s t u : State} (h : c.kept s t) (r : c.kept t u) : c.kept s u := by
  cases c
  case dep => exact fun hu => h (r hu)
  case block => exact ⟨r.1.trans h.1, r.2.trans h.2⟩
  case driver =>
    obtain ⟨e1, h1, n1⟩ := h
    obtain ⟨e2, h2, n2⟩ := r
    exact ⟨e1 ++ e2, by rw [h2, h1, List.append_assoc], fun d hd => (List.mem_append.mp hd).elim (n1 d) (n2 d)⟩
  case returns | catches => trivial
  all_goals exact Eq.trans r h

/-- Moving or ending the sequencer writes no register. -/
theorem Ended.kept {op : Instr} {u t : State} (h : Ended op u t) (c : Power) : c.kept u t := by
  rcases h with ⟨_, rfl⟩ | ⟨msg, _, rfl⟩ | ⟨_, _, rfl⟩ | ⟨_, rfl⟩
  case inr.inl => exact Power.kept_of_eq rfl rfl ⟨rfl, rfl⟩ rfl ⟨[.log msg], rfl, by simp⟩
  all_goals exact Power.kept_of_eq rfl rfl ⟨rfl, rfl⟩ rfl ⟨[], (List.append_nil _).symm, by simp⟩

theorem ask_writes {t : Txn} {s : State} {k : AfeView → State → Exit} {x : Exit} {w : AfeWrite}
    (hk : ∀ v u, ∃ evs, (k v u).state.trace = u.trace ++ evs ∧ .write w ∉ evs) (h : ask t s k = some x) :
    ∃ evs, x.state.trace = s.trace ++ evs ∧ .write w ∉ evs := by
  rcases ask_eq_some h with ⟨e, ps, -, rfl⟩ | ⟨v, ps, -, rfl⟩
  · exact ⟨[.fail t e], rfl, by simp⟩
  · exact hk v _

theorem askTime_writes {s : State} {k : Nat → State → Exit} {x : Exit} {w : AfeWrite} (hk : ∀ t u, (k t u).state = u)
    (h : askTime s k = some x) : ∃ evs, x.state.trace = s.trace ++ evs ∧ .write w ∉ evs := by
  obtain ⟨d, ts, -, rfl⟩ := askTime_eq_some h
  rw [hk]
  exact ⟨[.time (s.clock + d)], rfl, by simp⟩

/-- A completed write is recorded by the step that makes it and by no other. -/
theorem act_writes {m : Micro} {s : State} {x : Exit} {w : AfeWrite} (h : act m s = some x) (hm : m ≠ .write w) :
    ∃ evs, x.state.trace = s.trace ++ evs ∧ .write w ∉ evs := by
  cases m <;> simp only [act, Option.some.injEq] at h
  case write v => exact ask_writes (fun _ _ => ⟨[.write v], rfl, by simpa [eq_comm] using hm⟩) h
  case setMode | setReady | setSess | zeroIrqs | attemptEnd | startAGuard | raise =>
    subst h; exact ⟨[], (List.append_nil _).symm, by simp⟩
  case yield => subst h; exact ⟨[.yield], rfl, by simp⟩
  case test => subst h; rw [testExit_state]; exact ⟨[], (List.append_nil _).symm, by simp⟩
  case deliver y data bits =>
    subst h
    refine ⟨[], ?_, by simp⟩
    rw [List.append_nil]
    rcases deliverExit_cases y data bits s with he | ⟨-, _, -, he⟩ | ⟨_, _, _, -, -, he⟩ <;> rw [he] <;> rfl
  case waitRise =>
    split at h
    · nomatch h
    · split at h <;> cases h
      · exact ⟨[.edge], rfl, by simp⟩
      · exact ⟨[], (List.append_nil _).symm, by simp⟩
  case startTimer | delayUntil => exact askTime_writes (fun _ _ => rfl) h
  case deadline => exact askTime_writes (fun _ _ => deadlineExit_state _ _ _) h
  case calDeadline => exact askTime_writes (fun _ _ => by split <;> rfl) h
  case readIdentity =>
    exact ask_writes (fun v u => ⟨[.read (.identity v.identity), .log (.identity v.identity)], by simp [Exit.state],
      by simp⟩) h
  case readVdd =>
    exact ask_writes (fun v u => ⟨[.read (.adcResult v.adcResult), .log (.vddMv (vddMv v.adcResult))],
      by simp [Exit.state], by simp⟩) h
  case pollCal =>
    exact ask_writes (fun v u => ⟨[.read (.capCalResult v.capCal)], by rw [calExit_state]; rfl, by simp⟩) h
  case readFifoA =>
    exact ask_writes (fun v u => ⟨[.read (.fifoStatusA v.countLo)], by rw [checksExit_state]; rfl, by simp⟩) h
  case readFifo n =>
    exact ask_writes (fun v u => ⟨[.fifoRead n (fifoBytes v n)], by rw [decodeExit_state]; rfl, by simp⟩) h
  case readFifoB =>
    exact ask_writes (fun v u => ⟨[.read (.fifoStatusB v.fifoB)], by cases fifoFault v.fifoB <;> rfl, by simp⟩) h
  all_goals exact ask_writes (fun v u => ⟨[_], rfl, by simp⟩) h

/-- An exit leaves the sequencer moved or ended. -/
theorem resume_ended (op : Instr) (rest : List Micro) (x : Exit) : Ended op x.state (x.resume op rest) := by
  cases x with
  | goes u new => exact goTo_ended _ _ _
  | raises u e => exact raiseErr_ended _ _ _ _
  | returns u v rx => exact endOk_ended _ _ _ _

/-- A step without a power leaves its register. -/
theorem act_kept {m : Micro} {s : State} {x : Exit} {c : Power} (h : act m s = some x) (hc : m.may c = false) :
    c.kept s x.state := by
  have hmoved := act_moved h
  have hdeliver : ∀ w data bits, m = .deliver w data bits → w.dest ≠ .depNew → x.state.sess = s.sess ∧
      (w.dest = .host → x.state.fsc = s.fsc ∧ x.state.spin = s.spin) := by
    rintro w data bits rfl hd
    simp only [act, Option.some.injEq] at h
    subst h
    rcases deliverExit_cases w data bits s with he | ⟨hn, -⟩ | ⟨_, _, _, hx, -, he⟩
    · rw [he]; exact ⟨rfl, fun _ => ⟨rfl, rfl⟩⟩
    · exact absurd hn hd
    · rw [he]; exact ⟨rfl, fun hh => by rw [hx] at hh; nomatch hh⟩
  cases c
  case ready => exact hmoved.ready (by rintro rfl; nomatch hc)
  case fatal => exact hmoved.fatal (by rintro dl rfl; nomatch hc)
  case mode => exact hmoved.mode (by rintro v rfl; nomatch hc)
  case irqs => exact hmoved.irqs (by rintro rfl; nomatch hc) (by rintro i k rfl; nomatch hc)
  case line => exact hmoved.line (by rintro l rfl; nomatch hc)
  case sess =>
    by_cases hd : ∃ w data bits, m = .deliver w data bits
    · obtain ⟨w, data, bits, rfl⟩ := hd
      exact (hdeliver w data bits rfl (by simpa [Micro.may, Micro.xcv?] using hc)).1
    · exact hmoved.sess (by rintro v rfl; nomatch hc) fun w data bits he => hd ⟨w, data, bits, he⟩
  case block =>
    by_cases hd : ∃ w data bits, m = .deliver w data bits
    · obtain ⟨w, data, bits, rfl⟩ := hd
      have hh : w.dest = .host := by simpa [Micro.may, Micro.xcv?] using hc
      exact (hdeliver w data bits rfl (by rw [hh]; simp)).2 hh
    · exact hmoved.block fun w data bits he => hd ⟨w, data, bits, he⟩
  case dep =>
    by_cases hd : ∃ w data bits, m = .deliver w data bits
    · obtain ⟨w, data, bits, rfl⟩ := hd
      intro ht
      rwa [(hdeliver w data bits rfl (by simpa [Micro.may, Micro.xcv?] using hc)).1] at ht
    · by_cases hset : ∃ v, m = .setSess v
      · obtain ⟨v, rfl⟩ := hset
        cases h
        exact fun hv => by simp [Micro.may, show v = Sess.dep from hv] at hc
      · have hsess := hmoved.sess (not_exists.mp hset) fun w data bits he => hd ⟨w, data, bits, he⟩
        exact fun ht => hsess ▸ ht
  case driver =>
    obtain ⟨evs, htrace, -⟩ := hmoved.trace
    refine ⟨evs, htrace, fun d hmem => ?_⟩
    obtain ⟨evs', htrace', hnot⟩ := act_writes (w := .txDriver d) h (by rintro rfl; nomatch hc)
    rw [htrace, List.append_right_inj] at htrace'
    exact hnot (htrace' ▸ hmem)
  case returns | catches => trivial

/-- A chain of steps of CTRL without a power leaves its register, and does not come to the power. -/
theorem Steps.kept {s t : State} {c : Power} (h : Steps s t) (hs : ∀ m ∈ s.todo, m.may c = false) :
    c.kept s t ∧ ∀ m ∈ t.todo, m.may c = false := by
  refine h.keeps (P := fun u => c.kept s u ∧ ∀ m ∈ u.todo, m.may c = false) ?_ ⟨Power.kept.refl c s, hs⟩
  rintro a b hstep ⟨hkept, htodo⟩
  refine ⟨hkept.trans ?_, ctrlStep_todo (Q := fun m => m.may c = false) ?_ ?_ hstep htodo⟩
  · rcases ctrlStep_cases hstep with ⟨op, -, rfl⟩ | ⟨op, m, rest, x, hseq, hx, rfl⟩
    · exact (endOk_ended op _ _ _).kept c
    · rw [State.todo_of_busy hseq] at htodo
      exact (act_kept hx (htodo m List.mem_cons_self)).trans ((resume_ended op rest x).kept c)
  · intro hg e q hq
    by_contra hne
    rw [pathF_may hq (by simpa using hne)] at hg
    nomatch hg
  · intro m new hm hputs q hq
    by_contra hne
    rw [puts_may hputs hq (by simpa using hne)] at hm
    nomatch hm

/-! ## The powers of the operations -/

/-- What each operation may do (40 to 45). -/
def powersOf : Instr → List Power
  | .init => [.ready, .irqs]
  | .modeOn => [.mode, .driver]
  | .modeOff => [.mode]
  | .fieldOn => [.irqs]
  | .fieldOff => []
  | .measAmp => [.irqs, .returns]
  | .measPhase => [.irqs, .returns]
  | .measCap => [.irqs, .returns]
  | .calCap => [.fatal, .returns]
  | .waitForCard => [.mode, .irqs, .line, .driver]
  | .startA => [.mode, .irqs, .sess, .catches, .driver]
  | .sessionEnd => [.mode, .sess, .catches]
  | .xcvReqa => [.irqs, .returns]
  | .xcvWupa => [.irqs, .returns]
  | .xcvAnticoll _ => [.irqs, .returns]
  | .xcvStandard _ => [.irqs, .returns]
  | .depNew => [.irqs, .returns, .sess, .dep, .block]
  | .depXcv => [.irqs, .returns, .block]

/-- The steps of each operation have no powers but its own. -/
theorem within_stepsOf (i : Instr) (s : State) : Within (powersOf i) (stepsOf i s) := by
  have hirqs : ∀ {ds : List Power} {l : List Micro}, Within [.irqs] l → .irqs ∈ ds → Within ds l :=
    fun h hmem => h.mono (by simpa using hmem)
  have hfuse : Within [] (fuseStep s.params) := by unfold fuseStep; split <;> rfl
  cases i
  case init =>
    simp only [stepsOf, initSteps, within_append]
    have hw : ∀ c, Within [.ready, .irqs] (cmdWait s.params c) := fun c => hirqs (within_cmdWait _ c) (by simp)
    exact ⟨⟨⟨⟨⟨⟨⟨⟨rfl, hfuse.mono (by simp)⟩, rfl⟩, rfl⟩, hw _⟩, rfl⟩, rfl⟩, hw _⟩, rfl⟩
  case modeOn => exact within_modeOn _
  case modeOff => exact within_modeOff
  case fieldOn => exact within_fieldOn _
  case fieldOff => rfl
  case measAmp | measPhase | measCap =>
    exact within_append.mpr ⟨hirqs (within_cmdWait _ _) (by simp [powersOf]), rfl⟩
  case calCap => rfl
  case waitForCard =>
    simp only [stepsOf, waitForCardSteps, within_append, allMethods, List.flatMap_cons, List.flatMap_nil, List.append_nil]
    have hw : ∀ m, Within [.mode, .irqs, .line, .driver] (methodSteps s.params s.cfg m) :=
      fun m => hirqs (within_method _ _ m) (by simp)
    refine ⟨⟨⟨⟨⟨⟨?_, rfl⟩, ⟨hw _, hw _, hw _⟩⟩, hirqs (within_irqClear _) (by simp [powersOf])⟩, rfl⟩,
      (within_masks _ _).mono (List.nil_subset _)⟩, rfl⟩
    split
    · exact (within_modeOn _).mono (by simp [powersOf])
    · rfl
  case startA =>
    simp only [stepsOf, startASteps, within_append]
    exact ⟨⟨(within_modeOn _).mono (by simp [powersOf]), hirqs (within_fieldOn _) (by simp [powersOf])⟩, rfl⟩
  case sessionEnd => rfl
  case xcvReqa | xcvWupa | xcvAnticoll | xcvStandard => exact within_exchange _ _ _
  case depNew => exact (within_exchange _ _ _).mono (by simp [Xcv.powers, depExchange, powersOf])
  case depXcv =>
    simp only [stepsOf, depXcvSteps]
    split
    · rfl
    · exact within_exchange _ _ _

/-- An operation is issued without the powers that it has not. -/
theorem may_of_stepsOf {i : Instr} {s : State} {c : Power} (hc : c ∉ (powersOf i)) : ∀ m ∈ stepsOf i s, m.may c = false :=
  fun m hm => Bool.eq_false_iff.mpr fun h => hc (within_iff.mp (within_stepsOf i s) m hm c h)

/-- An operation leaves the registers it has no power over, whatever ENV answers, ended or not. -/
theorem exec_kept {i : Instr} {s t : State} {c : Power} (h : exec i s = .next t) (hc : c ∉ (powersOf i)) : c.kept s t := by
  rcases exec_next_cases h with rfl | rfl
  · exact Power.kept_of_eq rfl rfl ⟨rfl, rfl⟩ rfl ⟨[], (List.append_nil _).symm, by simp⟩
  · have hrun : Steps (s.goTo i (stepsOf i s)) (runToStop (s.goTo i (stepsOf i s))) := steps_runCtrl _ _
    exact ((goTo_ended i _ s).kept c).trans (hrun.kept (may_of_stepsOf hc)).1

/-- Settles O53: an exchange for the host has power over IRQS only. -/
theorem exchangeWritesOnlyInterrupts : Obligations.ExchangeWritesOnlyInterrupts := by
  unfold Obligations.ExchangeWritesOnlyInterrupts
  intro i s t hx h
  have hpowers : (powersOf i) = [.irqs, .returns] := by
    cases i <;> first | rfl | simp [hostExchange] at hx
  have hkept : ∀ c : Power, c ≠ .irqs → c ≠ .returns → c.kept s t := fun c h1 h2 =>
    exec_kept h (by rw [hpowers]; simp [h1, h2])
  obtain ⟨hfsc, hspin⟩ := hkept .block (by decide) (by decide)
  exact ⟨hkept .ready (by decide) (by decide), hkept .fatal (by decide) (by decide),
    hkept .mode (by decide) (by decide), hkept .sess (by decide) (by decide), hfsc, hspin⟩

end Sys2Proof.Machine
end

section
/-! SUPPORT. What CTRL does not read. A change of the state that no step reads or writes (`Blind`) commutes with every step:
the host's acts, TX, the sequencer's position itself, further answers behind those that are placed. -/

namespace Sys2Proof.Machine

/-! ## Where no step is possible -/

theorem ask_eq_none {t : Txn} {s : State} {k : AfeView → State → Exit} : ask t s k = none ↔ s.port.isEmpty = true := by
  unfold ask
  cases s.port with
  | nil => simp
  | cons a ps => cases a <;> simp

theorem askTime_eq_none {s : State} {k : Nat → State → Exit} : askTime s k = none ↔ s.ticks.isEmpty = true := by
  unfold askTime
  cases s.ticks <;> simp

/-- The answer that a step needs has not come. -/
def lacksAnswer (m : Micro) (s : State) : Bool :=
  match sourceOf m with
  | .port => s.port.isEmpty
  | .timer => s.ticks.isEmpty
  | .line => s.line.isEmpty
  | .nowhere => false

/-- A step is possible unless the answer that it needs has not come. -/
theorem act_eq_none (m : Micro) (s : State) : act m s = none ↔ lacksAnswer m s = true := by
  cases m <;> simp only [act, lacksAnswer, sourceOf, reduceCtorEq, ask_eq_none, askTime_eq_none]
  case waitRise =>
    cases s.line with
    | nil => simp
    | cons level ls => simp only [List.isEmpty_cons]; split <;> simp

/-- Where no step of CTRL is possible SEQ is Idle or an answer has not come. -/
theorem ctrlStep_eq_none (s : State) : ctrlStep s = none ↔ s.seq = .idle ∨ awaitsAnswer s = true := by
  obtain hidle | ⟨op, todo, hbusy⟩ := s.seq.idle_or_busy
  · simp [ctrlStep, hidle]
  · cases todo with
    | nil => simp [ctrlStep, awaitsAnswer, hbusy]
    | cons m rest =>
      have h : awaitsAnswer s = lacksAnswer m s := by
        simp only [awaitsAnswer, lacksAnswer, hbusy] <;> cases sourceOf m <;> rfl
      rw [ctrlStep_eq_act hbusy, Option.map_eq_none_iff, act_eq_none, h, hbusy]
      simp

/-- Settles O51: a run ends where no step of CTRL is possible. -/
theorem operationEndsOrAwaitsAnAnswer : Obligations.OperationEndsOrAwaitsAnAnswer := by
  unfold Obligations.OperationEndsOrAwaitsAnAnswer
  intro i s hs
  refine ⟨_, exec_idle hs, ?_⟩
  split
  · exact (ctrlStep_eq_none _).mp (runToStop_stopped _)
  · exact .inl hs

/-! ## Changes that no step reads -/

/-- `f` changes nothing that a step reads or writes, but may place answers behind those that are placed. -/
structure Blind (f : State → State) : Prop where
  params : ∀ s, (f s).params = s.params
  irqs : ∀ s, (f s).irqs = s.irqs
  clock : ∀ s, (f s).clock = s.clock
  emit : ∀ s e, f (s.emit e) = (f s).emit e
  setMode : ∀ s v, f { s with mode := v } = { f s with mode := v }
  setReady : ∀ s v, f { s with ready := v } = { f s with ready := v }
  setFatal : ∀ s v, f { s with fatal := v } = { f s with fatal := v }
  setSess : ∀ s v, f { s with sess := v } = { f s with sess := v }
  setIrqs : ∀ s v, f { s with irqs := v } = { f s with irqs := v }
  port : ∀ {s : State} {a ps}, s.port = a :: ps → ∃ qs, (f s).port = a :: qs ∧ f (s.usePort ps) = (f s).usePort qs
  ticks : ∀ {s : State} {d ts}, s.ticks = d :: ts →
    ∃ us, (f s).ticks = d :: us ∧ f (s.readTime d ts) = (f s).readTime d us
  line : ∀ {s : State} {l ls}, s.line = l :: ls → ∃ ms, (f s).line = l :: ms ∧ f (s.useLine ls) = (f s).useLine ms

/-- `f` leaves FSC and SPIN to the deliveries too. -/
structure BlindToBlock (f : State → State) : Prop extends Blind f where
  spin : ∀ s, (f s).spin = s.spin
  setSpin : ∀ s v, f { s with spin := v } = { f s with spin := v }
  setBlock : ∀ s a b c, f { s with fsc := a, spin := b, sess := c } = { f s with fsc := a, spin := b, sess := c }

/-- An exit in a changed state. -/
def Exit.map (f : State → State) : Exit → Exit
  | .goes u new => .goes (f u) new
  | .raises u e => .raises (f u) e
  | .returns u v rx => .returns (f u) v rx

section
variable {f : State → State} (hf : Blind f)

include hf

theorem ask_blind {t : Txn} {s : State} {k : AfeView → State → Exit} {x : Exit}
    (hk : ∀ v u, k v (f u) = (k v u).map f) (h : ask t s k = some x) : ask t (f s) k = some (x.map f) := by
  rcases ask_eq_some h with ⟨e, ps, hp, rfl⟩ | ⟨v, ps, hp, rfl⟩ <;> obtain ⟨qs, hq, hu⟩ := hf.port hp
  · simp [ask, hq, Exit.map, hu, hf.emit]
  · simp [ask, hq, ← hu, hk]

theorem askTime_blind {s : State} {k : Nat → State → Exit} {x : Exit} (hk : ∀ t u, k t (f u) = (k t u).map f)
    (h : askTime s k = some x) : askTime (f s) k = some (x.map f) := by
  obtain ⟨d, ts, ht, rfl⟩ := askTime_eq_some h
  obtain ⟨us, hu, hr⟩ := hf.ticks ht
  simp [askTime, hu, ← hr, hk, hf.clock]

theorem testExit_blind (s : State) (k : Poll) : testExit (f s) k = (testExit s k).map f := by
  cases k with
  | irq n dl => simp [testExit, Exit.map, hf.params, hf.irqs]
  | field dl =>
    simp only [testExit, hf.params, hf.irqs]
    split
    · rfl
    · split
      · rfl
      · split <;> rfl
  | xcv x dl =>
    simp only [testExit, hf.params, hf.irqs]
    cases xcvVerdict s.params x.kind s.irqs <;> rfl

omit hf in
theorem deadlineExit_map (f : State → State) (k : Poll) (now : Nat) (s : State) :
    deadlineExit k now (f s) = (deadlineExit k now s).map f := by
  unfold deadlineExit
  split
  · cases k <;> rfl
  · rfl

omit hf in
theorem checksExit_map (f : State → State) (x : Xcv) (n : Nat) (s : State) :
    checksExit x n (f s) = (checksExit x n s).map f := by
  unfold checksExit
  split
  · rfl
  · split <;> rfl

theorem decodeExit_blind (x : Xcv) (b : List Byte) (s : State) :
    decodeExit x b (f s) = (decodeExit x b s).map f := by
  unfold decodeExit
  cases x.kind with
  | anticoll =>
    simp only [hf.params, hf.irqs]
    split <;> rfl
  | standard | reqA | wupA => rfl

theorem calExit_blind (dl : Nat) (r : CapCalResult) (s : State) : calExit dl r (f s) = (calExit dl r s).map f := by
  unfold calExit
  split
  · exact congrArg (Exit.raises · _) (hf.setFatal s true).symm
  · split <;> rfl

/-- A change that no step reads commutes with every step but the delivery. -/
theorem act_blind {m : Micro} {s : State} {x : Exit}
    (hd : ∀ y data bits, m = .deliver y data bits → deliverExit y data bits (f s) = (deliverExit y data bits s).map f)
    (h : act m s = some x) : act m (f s) = some (x.map f) := by
  cases m <;> simp only [act, Option.some.injEq] at h ⊢
  case setMode v => subst h; exact congrArg (Exit.goes · []) (hf.setMode s v).symm
  case setReady => subst h; exact congrArg (Exit.goes · []) (hf.setReady s true).symm
  case setSess v => subst h; exact congrArg (Exit.goes · []) (hf.setSess s v).symm
  case zeroIrqs => subst h; exact congrArg (Exit.goes · []) (hf.setIrqs s 0).symm
  case yield => subst h; exact congrArg (Exit.goes · []) (hf.emit s .yield).symm
  case attemptEnd | startAGuard | raise => subst h; rfl
  case test => subst h; exact testExit_blind hf _ _
  case deliver => subst h; exact hd _ _ _ rfl
  case waitRise last =>
    split at h
    · nomatch h
    · rename_i level ls hl
      obtain ⟨ms, hm, hu⟩ := hf.line hl
      rw [hm]
      dsimp only
      split at h
      · rw [if_pos ‹_›]
        cases h
        simp [Exit.map, hu, hf.emit]
      · rw [if_neg ‹_›]
        cases h
        simp [Exit.map, hu]
  case startTimer => exact askTime_blind hf (fun t u => by simp [Exit.map, hf.params]) h
  case delayUntil => exact askTime_blind hf (fun t u => rfl) h
  case deadline => exact askTime_blind hf (fun t u => deadlineExit_map f _ _ _) h
  case calDeadline => exact askTime_blind hf (fun t u => by split <;> rfl) h
  case pollCal => exact ask_blind hf (fun v u => by rw [← hf.emit, calExit_blind hf]) h
  case readFifoA => exact ask_blind hf (fun v u => by rw [← hf.emit, checksExit_map f]) h
  case readFifo => exact ask_blind hf (fun v u => by rw [← hf.emit, decodeExit_blind hf]) h
  case readFifoB => exact ask_blind hf (fun v u => by rw [← hf.emit]; cases fifoFault v.fifoB <;> rfl) h
  case refresh i k =>
    refine ask_blind hf (fun v u => ?_) h
    have hu : { f u with irqs := orStatus (f u).irqs i (irqStatusByte v i) } =
        f { u with irqs := orStatus u.irqs i (irqStatusByte v i) } := by
      rw [hf.irqs]
      exact (hf.setIrqs u _).symm
    rw [hu, hf.params, ← hf.emit]
    rfl
  all_goals exact ask_blind hf (fun v u => by simp only [Exit.map, hf.emit]) h

end

/-- A change that leaves FSC and SPIN to the deliveries commutes with them. -/
theorem deliverExit_blind {f : State → State} (hf : BlindToBlock f) (x : Xcv) (data : List Byte) (bits : Nat) (s : State) :
    deliverExit x data bits (f s) = (deliverExit x data bits s).map f := by
  unfold deliverExit
  cases x.dest with
  | host => rfl
  | depNew =>
    simp only [depNewExit]
    split
    · rfl
    · cases fscOf (fsciOf data) with
      | none => rfl
      | some fsc => exact congrArg (Exit.returns · _ _) (hf.setBlock s _ _ _).symm
  | depXcv hdr rxcap =>
    simp only [depXcvExit]
    split
    · simp [Exit.map, hf.params]
    · cases data with
      | nil => rfl
      | cons b payload =>
        dsimp only
        split
        · rfl
        · split
          · rfl
          · rw [hf.spin]
            exact congrArg (Exit.returns · _ _) (hf.setSpin s _).symm

/-! ## Runs -/

/-- `f` commutes with the ways to leave a step. -/
structure Passive (f : State → State) : Prop where
  seq : ∀ s, (f s).seq = s.seq
  goTo : ∀ s op l, f (s.goTo op l) = (f s).goTo op l
  emit : ∀ s e, f (s.emit e) = (f s).emit e
  endOk : ∀ s v rx, f (endOk v rx s) = Machine.endOk v rx (f s)
  endError : ∀ s e, f (endError e s) = Machine.endError e (f s)

section
variable {f : State → State} (hp : Passive f)

include hp

theorem raiseErr_passive (e : Err) (op : Instr) (todo : List Micro) (s : State) :
    raiseErr e op todo (f s) = f (raiseErr e op todo s) := by
  unfold raiseErr
  cases unwind e todo with
  | ended => exact (hp.endError _ _).symm
  | attempted a c rest => simp only [hp.goTo, hp.emit]
  | cleanup rest => exact (hp.goTo _ _ _).symm

theorem resume_passive (op : Instr) (rest : List Micro) (x : Exit) : (x.map f).resume op rest = f (x.resume op rest) := by
  cases x with
  | goes u new => exact (hp.goTo _ _ _).symm
  | raises u e => exact raiseErr_passive hp _ _ _ _
  | returns u v rx => exact (hp.endOk _ _ _).symm

/-- A change that no step reads commutes with a step of CTRL. -/
theorem ctrlStep_blind (hf : Blind f) {s t : State}
    (hd : ∀ y data bits, .deliver y data bits ∈ s.todo →
      deliverExit y data bits (f s) = (deliverExit y data bits s).map f)
    (h : ctrlStep s = some t) : ctrlStep (f s) = some (f t) := by
  rcases ctrlStep_cases h with ⟨op, hseq, rfl⟩ | ⟨op, m, rest, x, hseq, hx, rfl⟩
  · simp [ctrlStep, hp.seq, hseq, hp.endOk]
  · rw [State.todo_of_busy hseq] at hd
    rw [ctrlStep_eq_act (by rw [hp.seq, hseq]),
      act_blind hf (fun y data bits hm => hd y data bits (hm ▸ List.mem_cons_self)) hx, Option.map_some,
      resume_passive hp]

/-- It commutes with a chain of steps. -/
theorem Steps.blind (hf : BlindToBlock f) {s t : State} (h : Steps s t) : Steps (f s) (f t) := by
  induction h with
  | refl s => exact .refl _
  | head h _ ih => exact .head (ctrlStep_blind hp hf.toBlind (fun _ _ _ _ => deliverExit_blind hf _ _ _ _) h) ih

/-- A change that no step reads, and that places no answer, commutes with a run. -/
theorem runToStop_blind (hf : BlindToBlock f) (hn : ∀ {t}, ctrlStep t = none → ctrlStep (f t) = none) (s : State) :
    runToStop (f s) = f (runToStop s) :=
  runToStop_eq ((steps_runCtrl _ s).blind hp hf) (hn (runToStop_stopped s))

end

/-! ## The changes -/

theorem feed_blind (port : List PortAnswer) (ticks : List Nat) (line : List Bool) :
    BlindToBlock (fun s => s.feed port ticks line) where
  params _ := rfl
  irqs _ := rfl
  clock _ := rfl
  emit _ _ := rfl
  setMode _ _ := rfl
  setReady _ _ := rfl
  setFatal _ _ := rfl
  setSess _ _ := rfl
  setIrqs _ _ := rfl
  port h := ⟨_, congrArg (· ++ port) h, rfl⟩
  ticks h := ⟨_, congrArg (· ++ ticks) h, rfl⟩
  line h := ⟨_, congrArg (· ++ line) h, rfl⟩
  spin _ := rfl
  setSpin _ _ := rfl
  setBlock _ _ _ _ := rfl

theorem feed_passive (port : List PortAnswer) (ticks : List Nat) (line : List Bool) :
    Passive (fun s => s.feed port ticks line) where
  seq _ := rfl
  goTo _ _ _ := rfl
  emit _ _ := rfl
  endOk _ _ _ := rfl
  endError _ _ := rfl

/-- Settles O52: placing answers behind those that are placed commutes with every step, so a run may be cut where it
stops. -/
theorem answersMayComeInPieces : Obligations.AnswersMayComeInPieces := by
  unfold Obligations.AnswersMayComeInPieces
  intro s port ticks line
  have hrun : Steps s (runToStop s) := steps_runCtrl _ s
  exact (runToStop_steps (hrun.blind (feed_passive port ticks line) (feed_blind port ticks line))).symm

/-- The host's acts are read by no step. -/
theorem host_blind (acts : List HostAct) : BlindToBlock (fun s => { s with host := acts }) where
  params _ := rfl
  irqs _ := rfl
  clock _ := rfl
  emit _ _ := rfl
  setMode _ _ := rfl
  setReady _ _ := rfl
  setFatal _ _ := rfl
  setSess _ _ := rfl
  setIrqs _ _ := rfl
  port h := ⟨_, h, rfl⟩
  ticks h := ⟨_, h, rfl⟩
  line h := ⟨_, h, rfl⟩
  spin _ := rfl
  setSpin _ _ := rfl
  setBlock _ _ _ _ := rfl

theorem host_passive (acts : List HostAct) : Passive (fun s => { s with host := acts }) where
  seq _ := rfl
  goTo _ _ _ := rfl
  emit _ _ := rfl
  endOk _ _ _ := rfl
  endError _ _ := rfl

/-- A run does not read the host's acts. -/
theorem runToStop_host (acts : List HostAct) (s : State) :
    runToStop { s with host := acts } = { runToStop s with host := acts } :=
  runToStop_blind (host_passive acts) (host_blind acts) (by simp [ctrlStep_eq_none, awaitsAnswer]) s

/-- Nor does the supply of a free answer. -/
theorem supply_host (acts : List HostAct) (s : State) : supply { s with host := acts } = { supply s with host := acts } := by
  obtain ⟨_, _, _, _, _, _, _, _, seq, _, _, _, _, _, _, _, _, _, _, _, _, port, ticks, line, _⟩ := s
  cases seq with
  | idle => rfl
  | busy op todo =>
    cases todo with
    | nil => rfl
    | cons m rest =>
      simp only [supply]
      cases sourceOf m with
      | nowhere => rfl
      | port => cases port <;> rfl
      | timer => cases ticks <;> rfl
      | line => cases line <;> rfl

/-- Nor does the running operation. -/
theorem continueRun_host (acts : List HostAct) (s : State) :
    continueRun { s with host := acts } = { continueRun s with host := acts } := by
  unfold continueRun
  rw [supply_host, runToStop_host]

/-- While an operation runs, an act that is no reset and no CANCEL waits (20 R66, 70 R340). -/
theorem step_of_waiting {s : State} {op : Instr} {todo : List Micro} (hs : s.seq = .busy op todo)
    (hreset : s.host.head? ≠ some .reset) (hcancel : s.host.head? ≠ some .cancel) :
    step s = .next (continueRun s) := by
  simp only [step, hs, stepBusy, Host.Outcome.next.injEq]
  split
  case h_1 hh => exact absurd (by rw [hh]; rfl) hreset
  case h_2 hh => exact absurd (by rw [hh]; rfl) hcancel
  case h_3 => rfl

/-- Settles O8: the steps of an idle machine are `hostActIdle`; while an operation runs, an act that is no reset and no
CANCEL is not read; and `exec` refuses. -/
theorem hostActsOnlyWhileIdle : Obligations.HostActsOnlyWhileIdle := by
  unfold Obligations.HostActsOnlyWhileIdle
  refine ⟨fun s hs hh => ?_, fun s bytes n rest hs => ⟨fun hh => ?_, fun hh => ?_, fun hh => ?_⟩, ?_,
    fun i s op todo hs => exec_busy hs i⟩
  · simp [step, hs, stepIdle, hh]
  · simp [step, hs, stepIdle, hh, hostActIdle]
  · simp [step, hs, stepIdle, hh, hostActIdle]
  · simp [step, hs, stepIdle, hh, hostActIdle]
  · intro s op todo a rest hs hh hreset hcancel
    have hs' : { s with host := [] }.seq = .busy op todo := hs
    refine ⟨_, step_of_waiting hs' (by simp) (by simp), ?_⟩
    rw [step_of_waiting hs (by simpa [hh] using hreset) (by simpa [hh] using hcancel), ← hh]
    exact congrArg _ (continueRun_host s.host { s with host := [] })

/-- TX is read by no step: the bytes that an operation sends are in its steps (20 R66). -/
theorem tx_blind (tx : List Byte) : BlindToBlock (fun s => { s with tx := tx }) where
  params _ := rfl
  irqs _ := rfl
  clock _ := rfl
  emit _ _ := rfl
  setMode _ _ := rfl
  setReady _ _ := rfl
  setFatal _ _ := rfl
  setSess _ _ := rfl
  setIrqs _ _ := rfl
  port h := ⟨_, h, rfl⟩
  ticks h := ⟨_, h, rfl⟩
  line h := ⟨_, h, rfl⟩
  spin _ := rfl
  setSpin _ _ := rfl
  setBlock _ _ _ _ := rfl

theorem tx_passive (tx : List Byte) : Passive (fun s => { s with tx := tx }) where
  seq _ := rfl
  goTo _ _ _ := rfl
  emit _ _ := rfl
  endOk _ _ _ := rfl
  endError _ _ := rfl

/-- A run does not read TX. -/
theorem runToStop_tx (tx : List Byte) (s : State) : runToStop { s with tx := tx } = { runToStop s with tx := tx } :=
  runToStop_blind (tx_passive tx) (tx_blind tx) (by simp [ctrlStep_eq_none, awaitsAnswer]) s

/-- Settles O60: a request is issued with the same steps whatever TX is, and no step reads it. -/
theorem requestsIgnoreTx : Obligations.RequestsIgnoreTx := by
  unfold Obligations.RequestsIgnoreTx
  intro i s t tx hi htx hstx h
  obtain hidle | ⟨op, todo, hbusy⟩ := s.seq.idle_or_busy
  · have hperm : permitted i { s with tx := tx } = permitted i s := by
      rcases hi with rfl | rfl <;> simp [permitted, matrixRow, noCondition, htx, hstx]
    have hsteps : stepsOf i { s with tx := tx } = stepsOf i s := by rcases hi with rfl | rfl <;> rfl
    rw [exec_idle hidle, Host.Outcome.next.injEq] at h
    rw [exec_idle (s := { s with tx := tx }) hidle, hperm, hsteps, ← h]
    split
    · exact congrArg _ (runToStop_tx tx (s.goTo i (stepsOf i s)))
    · rfl
  · rw [exec_busy hbusy] at h
    nomatch h

end Sys2Proof.Machine
end

section
/-! SUPPORT. What a run of CTRL leaves alone and what it records (00 R13, 20 R60, R61), and the codes it ends with
(60 R270): both said of one step and handed on along the run. -/

namespace Sys2Proof.Machine

/-! ## The latches, the clock and the trace -/

/-- `t` is `s` some way on in its run: the operand latches are those of `s`, time has not gone back, and the trace has
grown by one transaction for each answer taken and one timer read for each advance taken. -/
structure Progress (s t : State) : Prop where
  params : t.params = s.params
  opc : t.opc = s.opc
  imm : t.imm = s.imm
  tx : t.tx = s.tx
  rxcap : t.rxcap = s.rxcap
  cfg : t.cfg = s.cfg
  host : t.host = s.host
  clock : s.clock ≤ t.clock
  trace : ∃ events, t.trace = s.trace ++ events ∧
    (events.filter isTransaction).length + t.port.length = s.port.length ∧
    (timeReads events).length + t.ticks.length = s.ticks.length

theorem Progress.refl (s : State) : Progress s s :=
  ⟨rfl, rfl, rfl, rfl, rfl, rfl, rfl, Nat.le_refl _, [], (List.append_nil _).symm, by simp, by simp [timeReads]⟩

theorem Progress.trans {s t u : State} (h : Progress s t) (r : Progress t u) : Progress s u := by
  obtain ⟨e1, h1, p1, k1⟩ := h.trace
  obtain ⟨e2, h2, p2, k2⟩ := r.trace
  refine ⟨r.params.trans h.params, r.opc.trans h.opc, r.imm.trans h.imm, r.tx.trans h.tx, r.rxcap.trans h.rxcap,
    r.cfg.trans h.cfg, r.host.trans h.host, Nat.le_trans h.clock r.clock, e1 ++ e2, by rw [h2, h1, List.append_assoc],
    ?_, ?_⟩
  · rw [List.filter_append, List.length_append]; omega
  · simp only [timeReads, List.filter_append, List.length_append] at *; omega

/-- What a step writes is progress. -/
theorem Moved.progress {m : Micro} {s u : State} (h : Moved m s u) : Progress s u := by
  have hclock := h.clock
  have htrace := h.trace
  obtain ⟨_, _, _, _, _, _, _, _, _, _, _, _, rfl⟩ := h.eq
  exact ⟨rfl, rfl, rfl, rfl, rfl, rfl, rfl, hclock, htrace⟩

/-- How a step leaves the sequencer is progress. -/
theorem Ended.progress {op : Instr} {u t : State} (h : Ended op u t) : Progress u t := by
  rcases h with ⟨_, rfl⟩ | ⟨msg, _, rfl⟩ | ⟨_, _, rfl⟩ | ⟨_, rfl⟩
  case inr.inl =>
    exact ⟨rfl, rfl, rfl, rfl, rfl, rfl, rfl, Nat.le_refl _, [.log msg], rfl, by simp [isTransaction], by simp [timeReads]⟩
  all_goals
    exact ⟨rfl, rfl, rfl, rfl, rfl, rfl, rfl, Nat.le_refl _, [], (List.append_nil _).symm, by simp, by simp [timeReads]⟩

/-- One step of CTRL is progress. -/
theorem ctrlStep_progress {s t : State} (h : ctrlStep s = some t) : Progress s t := by
  rcases ctrlStep_effect h with ⟨op, -, rfl⟩ | ⟨op, m, rest, u, -, hmoved, hended⟩
  · exact (endOk_ended op 0 none s).progress
  · exact hmoved.progress.trans hended.progress

/-- A run is progress. -/
theorem runToStop_progress (s : State) : Progress s (runToStop s) :=
  runToStop_keeps (P := Progress s) (fun h hp => hp.trans (ctrlStep_progress h)) (Progress.refl s)

/-- An operation is progress, refused or not. -/
theorem exec_progress {i : Instr} {s t : State} (h : exec i s = .next t) : Progress s t := by
  rcases exec_next_cases h with rfl | rfl
  · exact ⟨rfl, rfl, rfl, rfl, rfl, rfl, rfl, Nat.le_refl _, [], (List.append_nil _).symm, by simp, by simp [timeReads]⟩
  · exact (goTo_ended i _ s).progress.trans (runToStop_progress _)

/-- Settles O48: an operation is progress, and only WAIT_FOR_CARD has power over the line. -/
theorem operandLatchesAreReadOnly : Obligations.OperandLatchesAreReadOnly := by
  unfold Obligations.OperandLatchesAreReadOnly
  intro i s t h
  have hp := exec_progress h
  obtain ⟨events, htrace, -, -⟩ := hp.trace
  refine ⟨hp.params, hp.opc, hp.imm, hp.tx, hp.rxcap, hp.cfg, hp.host, ⟨events, htrace⟩, hp.clock, fun hi => ?_⟩
  refine exec_kept (c := .line) h ?_
  cases i <;> first | exact absurd rfl hi | simp [powersOf]

/-- Settles O50: the counts are part of progress. -/
theorem everyAnswerIsOneEvent : Obligations.EveryAnswerIsOneEvent := by
  unfold Obligations.EveryAnswerIsOneEvent
  intro i s t h
  exact (exec_progress h).trace

/-! ## The codes -/

/-- Every error has a code of the table (60 R270). -/
theorem errCode_le (e : Err) : (errCode e).toNat ≤ 0x11 := by cases e <;> simp [errCode]

/-- No error has the code Ok. -/
theorem errCode_ne_ok (e : Err) : errCode e ≠ 0x00 := by cases e <;> simp [errCode]

/-- A step of CTRL that ends the operation gives it a code of the table. -/
theorem ctrlStep_code {s t : State} (h : ctrlStep s = some t) (ht : t.seq = .idle) : t.status.toNat ≤ 0x11 := by
  rcases ctrlStep_effect h with ⟨op, -, rfl⟩ | ⟨op, m, rest, u, -, -, hended⟩
  · simp [statusOk]
  · rcases hended with ⟨_, rfl⟩ | ⟨_, _, rfl⟩ | ⟨_, _, rfl⟩ | ⟨e, rfl⟩
    · nomatch ht
    · nomatch ht
    · simp [statusOk]
    · exact errCode_le e

/-- Settles O10: a refused operation has the code 0xFF, and the last step of any other gives it a code of the table. -/
theorem endedOperationHasATableCode : Obligations.EndedOperationHasATableCode := by
  unfold Obligations.EndedOperationHasATableCode
  intro i s t hs h ht
  cases hp : permitted i s
  · rw [exec_not_permitted hs hp] at h
    cases h
    exact .inl ⟨rfl, rfl⟩
  · rw [exec_permitted hs hp] at h
    cases h
    refine .inr ⟨rfl, ?_⟩
    exact runToStop_keeps (P := fun u => u.seq = .idle → u.status.toNat ≤ 0x11)
      (fun hstep _ hidle => ctrlStep_code hstep hidle) (fun hidle => nomatch hidle) ht

end Sys2Proof.Machine
end

section
/-! SUPPORT. A plan played from a state: the exits that go on, one after another, whatever operation they belong to and
whatever steps stand behind the plan. A run of an operation is its plan played to where it waits, raises an error,
returns, or has no step left. -/

namespace Sys2Proof.Machine

/-- From `s` the plan `l` is played to `t` with the plan `l'` left. -/
inductive Plays : State → List Micro → State → List Micro → Prop where
  | refl (s : State) (l : List Micro) : Plays s l s l
  | step {s u t : State} {m : Micro} {new l l' : List Micro} (h : act m s = some (.goes u new))
    (r : Plays u (new ++ l) t l') : Plays s (m :: l) t l'

theorem Plays.single {s u : State} {m : Micro} {new l : List Micro} (h : act m s = some (.goes u new)) :
    Plays s (m :: l) u (new ++ l) := .step h (.refl _ _)

theorem Plays.trans {s t u : State} {l l' l'' : List Micro} (h : Plays s l t l') (r : Plays t l' u l'') :
    Plays s l u l'' := by
  induction h with
  | refl _ _ => exact r
  | step h _ ih => exact .step h (ih r)

/-- A property of a state and a plan that every exit that goes on keeps is kept by a play. -/
theorem Plays.keeps {P : State → List Micro → Prop}
    (hP : ∀ {s u : State} {m : Micro} {new l : List Micro}, act m s = some (.goes u new) → P s (m :: l) → P u (new ++ l))
    {s t : State} {l l' : List Micro} (h : Plays s l t l') (hs : P s l) : P t l' := by
  induction h with
  | refl _ _ => exact hs
  | step h _ ih => exact ih (hP h hs)

/-- A play of a plan with a tail stays in front of the tail, or plays the plan to its end and goes on in the tail. -/
theorem Plays.split {l tail : List Micro} {s t : State} {l' : List Micro} (h : Plays s (l ++ tail) t l') :
    (∃ l1, l' = l1 ++ tail ∧ Plays s l t l1) ∨ ∃ u, Plays s l u [] ∧ Plays u tail t l' := by
  generalize hl : l ++ tail = todo at h
  induction h generalizing l with
  | refl s _ => exact .inl ⟨l, hl.symm, .refl _ _⟩
  | @step s u t m new rest l' h r ih =>
    cases l with
    | nil =>
      simp only [List.nil_append] at hl
      subst hl
      exact .inr ⟨s, .refl _ _, .step h r⟩
    | cons q l2 =>
      simp only [List.cons_append, List.cons.injEq] at hl
      obtain ⟨rfl, rfl⟩ := hl
      rcases ih (l := new ++ l2) (List.append_assoc _ _ _) with ⟨l1, he, hp⟩ | ⟨w, hp, hq⟩
      · exact .inl ⟨l1, he, .step h hp⟩
      · exact .inr ⟨w, .step h hp, hq⟩

/-! ## Plays and runs -/

/-- The sequencer's position is read by no step. -/
theorem seq_blind (q : Seq) : BlindToBlock (fun s => { s with seq := q }) where
  params _ := rfl
  irqs _ := rfl
  clock _ := rfl
  emit _ _ := rfl
  setMode _ _ := rfl
  setReady _ _ := rfl
  setFatal _ _ := rfl
  setSess _ _ := rfl
  setIrqs _ _ := rfl
  port h := ⟨_, h, rfl⟩
  ticks h := ⟨_, h, rfl⟩
  line h := ⟨_, h, rfl⟩
  spin _ := rfl
  setSpin _ _ := rfl
  setBlock _ _ _ _ := rfl

/-- A step of CTRL in operation `op`, from its exit at the bare state. -/
theorem ctrlStep_goTo (op : Instr) {m : Micro} (rest : List Micro) {s : State} {x : Exit} (h : act m s = some x) :
    ctrlStep (s.goTo op (m :: rest)) = some (x.resume op rest) := by
  have hx : act m (s.goTo op (m :: rest)) = _ :=
    act_blind (seq_blind (.busy op (m :: rest))).toBlind (fun _ _ _ _ => deliverExit_blind (seq_blind _) _ _ _ _) h
  rw [ctrlStep_eq_act (State.goTo_seq _ _ _), hx]
  cases x with
  | goes u new => rfl
  | returns u v rx => rfl
  | raises u e =>
    simp only [Exit.map, Option.map_some, Exit.resume, raiseErr]
    cases unwind e rest <;> rfl

/-- A play is a chain of steps of CTRL, in any operation and with any tail. -/
theorem Plays.steps {s t : State} {l l' : List Micro} (h : Plays s l t l') (op : Instr) (tail : List Micro) :
    Steps (s.goTo op (l ++ tail)) (t.goTo op (l' ++ tail)) := by
  induction h with
  | refl _ _ => exact .refl _
  | @step s u t m new l l' h _ ih =>
    have hstep := ctrlStep_goTo op (l ++ tail) h
    rw [Exit.resume, ← List.append_assoc] at hstep
    exact .head hstep ih

/-- Where a plan comes to, in operation `op` with the steps `tail` behind it: `t` is the whole run. -/
inductive Reaches (op : Instr) (tail : List Micro) (s : State) (l : List Micro) (t : State) : Prop where
  /-- it waits for an answer -/
  | waits {u : State} {m : Micro} {rest : List Micro} (h : Plays s l u (m :: rest)) (hm : act m u = none)
    (ht : t = u.goTo op (m :: rest ++ tail))
  /-- it raises an error -/
  | raises {u w : State} {m : Micro} {rest : List Micro} {e : Err} (h : Plays s l u (m :: rest))
    (hm : act m u = some (.raises w e)) (ht : t = runToStop (raiseErr e op (rest ++ tail) w))
  /-- it returns -/
  | returns {u w : State} {m : Micro} {rest : List Micro} {v : Nat} {rx : Option (List Byte)} (h : Plays s l u (m :: rest))
    (hm : act m u = some (.returns w v rx)) (ht : t = endOk v rx w)
  /-- it has no step left, and the run goes on in the tail -/
  | passes {u : State} (h : Plays s l u []) (ht : t = runToStop (u.goTo op tail))

/-- An exit that goes on lowers the budget. -/
theorem budget_goes (op : Instr) {m : Micro} {s u : State} {new l : List Micro} (h : act m s = some (.goes u new)) :
    budget (u.goTo op (new ++ l)) < budget (s.goTo op (m :: l)) :=
  budget_ctrlStep (ctrlStep_goTo op l h)

/-- Every plan comes to one of the four. -/
theorem plan_reaches (op : Instr) (tail : List Micro) (s : State) (l : List Micro) :
    Reaches op tail s l (runToStop (s.goTo op (l ++ tail))) := by
  induction hn : budget (s.goTo op l) using Nat.strong_induction_on generalizing s l with
  | _ n ih =>
    cases l with
    | nil => exact .passes (.refl _ _) rfl
    | cons m rest =>
      cases hx : act m s with
      | none =>
        refine .waits (.refl _ _) hx (runToStop_eq (.refl _) ?_)
        rw [ctrlStep_eq_none, awaitsAnswer]
        exact .inr ((act_eq_none m s).mp hx)
      | some x =>
        have hstep := runToStop_steps (Steps.single (ctrlStep_goTo op (rest ++ tail) hx))
        rw [List.cons_append, hstep]
        cases x with
        | raises w e => exact .raises (.refl _ _) hx rfl
        | returns w v rx => exact .returns (.refl _ _) hx (runToStop_idle (.refl _) rfl)
        | goes u new =>
          subst hn
          have hrun := ih _ (budget_goes op hx) u (new ++ rest) rfl
          rw [List.append_assoc] at hrun
          cases hrun with
          | waits h hm ht => exact .waits (.step hx h) hm ht
          | raises h hm ht => exact .raises (.step hx h) hm ht
          | returns h hm ht => exact .returns (.step hx h) hm ht
          | passes h ht => exact .passes (.step hx h) ht

/-! ## What a play keeps -/

/-- An exit that goes on hands the lack of a power on. -/
theorem goes_may {c : Power} {s u : State} {m : Micro} {new l : List Micro} (h : act m s = some (.goes u new))
    (hs : ∀ q ∈ m :: l, q.may c = false) : ∀ q ∈ new ++ l, q.may c = false := by
  intro q hq
  rcases List.mem_append.mp hq with hq | hq
  · by_contra hne
    have hm := puts_may (act_puts h) hq (by simpa using hne)
    rw [hs m List.mem_cons_self] at hm
    nomatch hm
  · exact hs q (List.mem_cons_of_mem _ hq)

/-- A play without a power leaves its register. -/
theorem Plays.kept {c : Power} {s t : State} {l l' : List Micro} (h : Plays s l t l') (hs : ∀ q ∈ l, q.may c = false) :
    c.kept s t ∧ ∀ q ∈ l', q.may c = false := by
  refine h.keeps (P := fun u k => c.kept s u ∧ ∀ q ∈ k, q.may c = false) ?_ ⟨.refl c s, hs⟩
  rintro a b m new k hgo ⟨hkept, hmay⟩
  exact ⟨hkept.trans (act_kept hgo (hmay m List.mem_cons_self)), goes_may hgo hmay⟩

/-- A play is progress, and leaves the result latches, the count of free values and the sequencer's position. -/
theorem Plays.progress {s t : State} {l l' : List Micro} (h : Plays s l t l') : Progress s t ∧ t.status = s.status ∧
    t.value = s.value ∧ t.errinfo = s.errinfo ∧ t.rx = s.rx ∧ t.draws = s.draws ∧ t.seq = s.seq := by
  refine h.keeps (P := fun u _ => Progress s u ∧ u.status = s.status ∧ u.value = s.value ∧ u.errinfo = s.errinfo ∧
    u.rx = s.rx ∧ u.draws = s.draws ∧ u.seq = s.seq) ?_ ⟨.refl s, rfl, rfl, rfl, rfl, rfl, rfl⟩
  rintro a b m new k hgo ⟨hp, hrest⟩
  have hmoved := act_moved hgo
  refine ⟨hp.trans hmoved.progress, ?_⟩
  obtain ⟨_, _, _, _, _, _, _, _, _, _, _, _, heq⟩ := hmoved.eq
  simp only [Exit.state] at heq
  rw [heq]
  exact hrest

/-- A play leaves FSC and SPIN: only a delivery that returns writes them. -/
theorem Plays.block {s t : State} {l l' : List Micro} (h : Plays s l t l') : t.fsc = s.fsc ∧ t.spin = s.spin := by
  refine h.keeps (P := fun u _ => u.fsc = s.fsc ∧ u.spin = s.spin) ?_ ⟨rfl, rfl⟩
  rintro a b m new k hgo ⟨hfsc, hspin⟩
  rw [← hfsc, ← hspin]
  by_cases hd : ∃ x data bits, m = .deliver x data bits
  · obtain ⟨x, data, bits, rfl⟩ := hd
    simp only [act, Option.some.injEq] at hgo
    rcases deliverExit_cases x data bits a with he | ⟨-, _, -, he⟩ | ⟨_, _, _, -, -, he⟩ <;> rw [hgo] at he
    · rw [show b = a from he]; exact ⟨rfl, rfl⟩
    · nomatch he
    · nomatch he
  · exact (act_moved hgo).block fun x data bits he => hd ⟨x, data, bits, he⟩

/-- An error passes the steps that catch none. -/
theorem raiseErr_append {rest : List Micro} (h : ∀ q ∈ rest, q.may .catches = false) (e : Err) (op : Instr)
    (tail : List Micro) (s : State) : raiseErr e op (rest ++ tail) s = raiseErr e op tail s := by
  have hu : unwind e (rest ++ tail) = unwind e tail := by
    induction rest with
    | nil => rfl
    | cons m l ih =>
      have hl := ih fun q hq => h q (List.mem_cons_of_mem _ hq)
      have hm := h m List.mem_cons_self
      cases m <;> first | exact hl | simp [Micro.may] at hm
  rw [raiseErr, raiseErr, hu]

/-- An error in a plan with no clean-up left ends the operation. -/
theorem raiseErr_of_no_catch {todo : List Micro} (h : ∀ q ∈ todo, q.may .catches = false) (e : Err) (op : Instr)
    (s : State) : raiseErr e op todo s = endError e s := by
  rw [← raiseErr_nil e op, ← raiseErr_append h e op [], List.append_nil]

/-- How a permitted operation with no clean-up comes to a stop. -/
inductive Stops (op : Instr) (s : State) (l : List Micro) (t : State) : Prop where
  /-- it waits for an answer -/
  | waits {u : State} {m : Micro} {rest : List Micro} (h : Plays s l u (m :: rest)) (hm : act m u = none)
    (ht : t = u.goTo op (m :: rest))
  /-- it ends with an error -/
  | raises {u w : State} {m : Micro} {rest : List Micro} {e : Err} (h : Plays s l u (m :: rest))
    (hm : act m u = some (.raises w e)) (ht : t = endError e w)
  /-- a step returns -/
  | returns {u w : State} {m : Micro} {rest : List Micro} {v : Nat} {rx : Option (List Byte)} (h : Plays s l u (m :: rest))
    (hm : act m u = some (.returns w v rx)) (ht : t = endOk v rx w)
  /-- it has no step left and returns 0 -/
  | done {u : State} (h : Plays s l u []) (ht : t = endOk 0 none u)

theorem runToStop_nil (op : Instr) (s : State) : runToStop (s.goTo op []) = endOk 0 none s :=
  runToStop_idle (.single rfl) rfl

/-- Every permitted operation with no clean-up stops in one of four ways. -/
theorem exec_stops {i : Instr} {s t : State} (hs : s.seq = .idle) (hp : permitted i s = true) (hc : .catches ∉ powersOf i)
    (h : exec i s = .next t) : Stops i s (stepsOf i s) t := by
  rw [exec_permitted hs hp, Host.Outcome.next.injEq] at h
  have hmay := may_of_stepsOf (s := s) hc
  have hrun := plan_reaches i [] s (stepsOf i s)
  rw [List.append_nil, h] at hrun
  cases hrun with
  | waits h hm ht => exact .waits h hm (by simpa using ht)
  | returns h hm ht => exact .returns h hm ht
  | passes h ht => exact .done h (by rw [ht, runToStop_nil])
  | @raises u w m rest e h hm ht =>
    refine .raises h hm ?_
    rw [ht, List.append_nil, raiseErr_of_no_catch fun q hq => (h.kept hmay).2 q (List.mem_cons_of_mem _ hq),
      runToStop_idle (.refl _) (endError_seq _ _)]

end Sys2Proof.Machine
end

section
/-! SUPPORT. Frames in phases. An operation that writes a register in the middle of its steps is cut there: either its run
comes to a stop in the first part, and keeps what that part has no power over, or the first part is over and the run goes
on in the second. -/

namespace Sys2Proof.Machine

/-! ## Runs of the first steps -/

/-- A run from its first step's exit. -/
theorem runToStop_cons (op : Instr) {m : Micro} (rest : List Micro) {s : State} {x : Exit} (h : act m s = some x) :
    runToStop (s.goTo op (m :: rest)) = runToStop (x.resume op rest) :=
  runToStop_steps (.single (ctrlStep_goTo op rest h))

/-- A run stops where the answer is missing. -/
theorem runToStop_waits (op : Instr) {m : Micro} (rest : List Micro) {s : State} (h : act m s = none) :
    runToStop (s.goTo op (m :: rest)) = s.goTo op (m :: rest) := by
  refine runToStop_eq (.refl _) ?_
  rw [ctrlStep_eq_none, awaitsAnswer]
  exact .inr ((act_eq_none m s).mp h)

/-- A run may be cut after a play. -/
theorem Plays.run {s u : State} {l l' : List Micro} (h : Plays s l u l') (op : Instr) (tail : List Micro) :
    runToStop (s.goTo op (l ++ tail)) = runToStop (u.goTo op (l' ++ tail)) :=
  runToStop_steps (h.steps op tail)

/-- A run keeps what its steps have no power over. -/
theorem runToStop_kept {c : Power} {op : Instr} {s : State} {l : List Micro} (h : ∀ q ∈ l, q.may c = false) :
    c.kept s (runToStop (s.goTo op l)) := by
  have hrun : Steps (s.goTo op l) (runToStop (s.goTo op l)) := steps_runCtrl _ _
  exact ((goTo_ended op l s).kept c).trans (hrun.kept h).1

/-- `t` is where a run from `s` came to a stop inside the plan `l`: it keeps what the plan has no power over, and it has not
ended Ok. -/
structure Halts (s : State) (l : List Micro) (t : State) : Prop where
  kept {c : Power} (h : ∀ q ∈ l, q.may c = false) : c.kept s t
  notOk (h : t.seq = .idle) : t.status ≠ 0x00

/-- A plan that cannot return is played to its end, or the run comes to a stop inside it. -/
theorem passes_or_halts (op : Instr) {s : State} {l tail : List Micro} (hc : ∀ q ∈ l ++ tail, q.may .catches = false)
    (hr : ∀ q ∈ l, q.may .returns = false) :
    (∃ u, Plays s l u [] ∧ runToStop (s.goTo op (l ++ tail)) = runToStop (u.goTo op tail)) ∨
      Halts s l (runToStop (s.goTo op (l ++ tail))) := by
  cases plan_reaches op tail s l with
  | passes h ht => exact .inl ⟨_, h, ht⟩
  | returns h hm _ =>
    have hmay := (h.kept hr).2 _ List.mem_cons_self
    rcases act_returns hm with rfl | ⟨_, rfl⟩ | ⟨_, _, _, rfl⟩ <;> simp [Micro.may, Micro.xcv?] at hmay
  | waits h _ ht =>
    rw [ht]
    exact .inr { kept := fun hmay => (h.kept hmay).1.trans ((goTo_ended op _ _).kept _), notOk := fun hi => nomatch hi }
  | @raises u w m rest e h hm ht =>
    have hcatch : ∀ q ∈ rest ++ tail, q.may .catches = false := by
      intro q hq
      rcases List.mem_append.mp hq with hq | hq
      · exact (h.kept fun r hr => hc r (List.mem_append_left _ hr)).2 q (List.mem_cons_of_mem _ hq)
      · exact hc q (List.mem_append_right _ hq)
    rw [ht, raiseErr_of_no_catch hcatch, runToStop_idle (.refl _) (endError_seq _ _)]
    refine .inr { kept := fun hmay => ?_, notOk := fun _ => errCode_ne_ok e }
    obtain ⟨hkept, hrest⟩ := h.kept hmay
    exact (hkept.trans (act_kept hm (hrest m List.mem_cons_self))).trans
      (Ended.kept (op := op) (.inr (.inr (.inr ⟨e, rfl⟩))) _)

/-- Plain steps have power over IRQS and TX_DRIVER only. -/
theorem plain_may {l : List Micro} (hl : l.all Micro.plain = true) {c : Power} (hirqs : c ≠ .irqs) (hdriver : c ≠ .driver) :
    ∀ q ∈ l, q.may c = false := by
  intro q hq
  have hplain := List.all_eq_true.mp hl q hq
  cases q <;> simp only [Micro.plain, reduceCtorEq] at hplain <;> cases c <;>
    first | rfl | exact absurd rfl hirqs | exact absurd rfl hdriver | skip
  all_goals
    rename_i w
    cases w <;> first | rfl | nomatch hplain

/-! ## MODE_ON, MODE_OFF, FIELD_ON, FIELD_OFF -/

/-- After `x[MODE] <- v`, steps that do not set MODE leave it. -/
theorem runToStop_setMode {op : Instr} {v : Mode} {s : State} {l : List Micro} (h : ∀ q ∈ l, q.may .mode = false) :
    (runToStop (s.goTo op (.setMode v :: l))).mode = v := by
  rw [runToStop_cons op l rfl]
  exact runToStop_kept (c := .mode) (s := { s with mode := v }) h

/-- Settles O54: the frame is the table of powers; MODE is written by the first step. -/
theorem modeAndFieldFrame : Obligations.ModeAndFieldFrame := by
  unfold Obligations.ModeAndFieldFrame
  intro i s t hi hs h
  have hkept : ∀ {c : Power}, c ∉ powersOf i → c.kept s t := fun hc => exec_kept h hc
  have hblock : Power.block.kept s t := hkept (by revert hi; cases i <;> simp [powersOf])
  refine ⟨hkept (c := .ready) (by revert hi; cases i <;> simp [powersOf]),
    hkept (c := .fatal) (by revert hi; cases i <;> simp [powersOf]),
    hkept (c := .sess) (by revert hi; cases i <;> simp [powersOf]), hblock.1, hblock.2,
    fun hne => hkept (c := .irqs) (by revert hi hne; cases i <;> simp [powersOf]), ?_⟩
  cases hp : permitted i s
  · rw [exec_not_permitted hs hp] at h
    cases h
    simp [refuse]
  · have hrun := h
    rw [exec_permitted hs hp, Host.Outcome.next.injEq] at hrun
    simp only [List.mem_cons, List.not_mem_nil, or_false] at hi
    rcases hi with rfl | rfl | rfl | rfl
    · rw [← hrun]
      exact runToStop_setMode (plain_may rfl (by simp) (by simp))
    · rw [← hrun]
      exact runToStop_setMode (by decide)
    · exact hkept (c := .mode) (by simp [powersOf])
    · exact hkept (c := .mode) (by simp [powersOf])

/-! ## INIT, the measurements, CAL_CAP -/

/-- READY after INIT: set by the last step, once every other is over. -/
theorem init_ready {s t : State} (hs : s.seq = .idle) (hp : permitted .init s = true) (h : exec .init s = .next t) :
    t.ready = if t.seq = .idle ∧ t.status = 0x00 then true else s.ready := by
  rw [exec_permitted hs hp, Host.Outcome.next.injEq] at h
  have hcut : ∃ l, l.all Micro.plain = true ∧ stepsOf .init s = l ++ [.setReady] := ⟨_, by simp [Micro.plain], rfl⟩
  obtain ⟨l, hl, hsteps⟩ := hcut
  rw [hsteps] at h
  have hcatch : ∀ q ∈ l ++ [.setReady], q.may .catches = false := by
    rw [← hsteps]; exact may_of_stepsOf (by simp [powersOf])
  rcases passes_or_halts .init hcatch (plain_may hl (by simp) (by simp)) with ⟨u, -, hrun⟩ | hhalts
  · rw [runToStop_cons .init [] rfl] at hrun
    have ht : t = endOk 0 none { u with ready := true } := h.symm.trans (hrun.trans (runToStop_nil _ _))
    rw [ht]
    rfl
  · rw [h] at hhalts
    rw [if_neg fun hok => hhalts.notOk hok.1 hok.2]
    exact hhalts.kept (c := .ready) (plain_may hl (by simp) (by simp))

/-- An exit that goes on leaves FATAL: only a fault of CAL_CAP sets it. -/
theorem goes_fatal {m : Micro} {s u : State} {new : List Micro} (h : act m s = some (.goes u new)) : u.fatal = s.fatal := by
  by_cases hm : m.setsRegs = false
  · exact congrArg Regs.fatal (act_goes_regs h hm)
  · exact (act_moved h).fatal (by rintro dl rfl; exact hm rfl)

/-- So does an exit that returns. -/
theorem returns_fatal {m : Micro} {s u : State} {v : Nat} {rx : Option (List Byte)} (h : act m s = some (.returns u v rx)) :
    u.fatal = s.fatal := by
  by_cases hm : ∃ dl, m = .pollCal dl
  · obtain ⟨dl, rfl⟩ := hm
    simp only [act] at h
    rcases ask_eq_some h with ⟨c, ps, -, hx⟩ | ⟨w, ps, -, hx⟩
    · nomatch hx
    · rw [(calExit_returns_regs hx.symm).1]
      rfl
  · exact (act_moved h).fatal (not_exists.mp hm)

/-- The steps that are of no exchange and raise no error by themselves, as all of CAL_CAP's. -/
def Micro.calibrates (m : Micro) : Prop := m.may .irqs = false ∧ ∀ e, m ≠ .raise e

theorem goes_calibrates {m q : Micro} {s u : State} {new : List Micro} (h : act m s = some (.goes u new))
    (hm : m.calibrates) (hq : q ∈ new) : q.calibrates := by
  have hirqs : q.may .irqs = false := by
    by_contra hne
    have hm' := puts_may (act_puts h) hq (by simpa using hne)
    rw [hm.1] at hm'
    nomatch hm'
  refine ⟨hirqs, ?_⟩
  rintro e rfl
  have hputs := act_puts h
  have hmay := hm.1
  cases hputs <;> simp [Micro.may, Micro.xcv?] at hq hmay
  rename_i w now
  cases w <;> simp [startTimed] at hq

/-- Such a step sets FATAL exactly when the error it raises is CalibrationFault (42 R157). -/
theorem raises_fatal {m : Micro} {s u : State} {e : Err} (h : act m s = some (.raises u e)) (hm : m.calibrates) :
    u.fatal = if errCode e = 0x10 then true else s.fatal := by
  by_cases hp : ∃ dl, m = .pollCal dl
  · obtain ⟨dl, rfl⟩ := hp
    simp only [act] at h
    rcases ask_eq_some h with ⟨c, ps, -, hx⟩ | ⟨w, ps, -, hx⟩
    · cases hx
      rfl
    · unfold calExit at hx
      split at hx
      · cases hx
        rfl
      · split at hx <;> nomatch hx
  · have hfatal := (act_moved h).fatal (not_exists.mp hp)
    have hcode : errCode e ≠ 0x10 := by
      have hmay := hm.1
      cases act_raises h <;> simp [Micro.may, Micro.xcv?, errCode] at hmay ⊢
      case calFault dl => exact hp ⟨dl, rfl⟩
      case raise => exact absurd rfl (hm.2 _)
    rw [if_neg hcode]
    exact hfatal

/-- FATAL after CAL_CAP: set with CalibrationFault and with no other end. -/
theorem calCap_fatal {s t : State} (hs : s.seq = .idle) (hp : permitted .calCap s = true) (h : exec .calCap s = .next t) :
    t.fatal = if t.seq = .idle ∧ t.status = 0x10 then true else s.fatal := by
  have hplays : ∀ {u l}, Plays s (stepsOf .calCap s) u l → u.fatal = s.fatal ∧ ∀ q ∈ l, q.calibrates := by
    intro u l hplay
    refine hplay.keeps (P := fun u l => u.fatal = s.fatal ∧ ∀ q ∈ l, q.calibrates) ?_ ⟨rfl, ?_⟩
    · rintro a b m new k hgo ⟨hfatal, hcal⟩
      refine ⟨(goes_fatal hgo).trans hfatal, fun q hq => ?_⟩
      rcases List.mem_append.mp hq with hq | hq
      · exact goes_calibrates hgo (hcal m List.mem_cons_self) hq
      · exact hcal q (List.mem_cons_of_mem _ hq)
    · simp [stepsOf, calCapSteps, Micro.calibrates, Micro.may, Micro.xcv?]
  cases exec_stops hs hp (by simp [powersOf]) h with
  | waits hplay _ ht =>
    rw [ht]
    exact (hplays hplay).1
  | done hplay ht =>
    rw [ht]
    exact (hplays hplay).1
  | returns hplay hm ht =>
    rw [ht]
    exact (returns_fatal hm).trans (hplays hplay).1
  | @raises u w m rest e hplay hm ht =>
    obtain ⟨hfatal, hcal⟩ := hplays hplay
    have hw := raises_fatal hm (hcal m List.mem_cons_self)
    rw [hfatal] at hw
    rw [ht]
    simpa using hw

/-- Settles O55: the frame is the table of powers; READY and FATAL are those of `init_ready` and `calCap_fatal`. -/
theorem initAndMeasurementFrame : Obligations.InitAndMeasurementFrame := by
  unfold Obligations.InitAndMeasurementFrame
  intro i s t hi hs h
  have hkept : ∀ {c : Power}, c ∉ powersOf i → c.kept s t := fun hc => exec_kept h hc
  have hblock : Power.block.kept s t := hkept (by revert hi; cases i <;> simp [powersOf])
  refine ⟨hkept (c := .mode) (by revert hi; cases i <;> simp [powersOf]),
    hkept (c := .sess) (by revert hi; cases i <;> simp [powersOf]), hblock.1, hblock.2,
    fun he => hkept (c := .irqs) (by rw [he]; simp [powersOf]), ?_, ?_⟩
  · by_cases he : i = .init
    · subst he
      cases hp : permitted .init s
      · rw [exec_not_permitted hs hp] at h
        cases h
        simp [refuse, statusRefused]
      · simpa using init_ready hs hp h
    · rw [if_neg fun hn => he hn.1]
      exact hkept (c := .ready) (by revert hi he; cases i <;> simp [powersOf])
  · by_cases he : i = .calCap
    · subst he
      cases hp : permitted .calCap s
      · rw [exec_not_permitted hs hp] at h
        cases h
        simp [refuse, statusRefused]
      · simpa using calCap_fatal hs hp h
    · rw [if_neg fun hn => he hn.1]
      exact hkept (c := .fatal) (by revert hi he; cases i <;> simp [powersOf])

end Sys2Proof.Machine
end

section
/-! SUPPORT. WAIT_FOR_CARD, START_A and SESSION_END in phases (43 R170 to R172; 44 R190 to R196). -/

namespace Sys2Proof.Machine

/-! ## WAIT_FOR_CARD -/

/-- From S2 on WAIT_FOR_CARD is in Wakeup; it clears IRQS on the way and does not refresh it again. -/
theorem waitForCardSteps_eq (p : Params) (mode : Mode) (cfg : List Byte) :
    ∃ arm sleep, (arm.all Micro.plain = true ∧ sleep.all Micro.plain = true ∧ ∀ q ∈ sleep, q.may .irqs = false) ∧
      waitForCardSteps p mode cfg = (if mode ≠ .on then modeOnSteps p else []) ++
        .setMode .wakeup :: (arm ++ .zeroIrqs :: (sleep ++ [.waitRise none])) := by
  refine ⟨[.cmd .stop, .write (.opControl {}), .write .opModeIso14443aInitiator] ++
      allMethods.flatMap (methodSteps p cfg) ++ (List.range (nIrq p)).map .drainIrq,
    [.write (.wuTimerControl (wuTimerControlOf cfg)), .write (.opControl { wu := true })] ++ maskSteps p cfg,
    ⟨?_, ?_, ?_⟩, by simp [waitForCardSteps, irqClear]⟩
  · simp [allMethods, Micro.plain]
  · simp [maskSteps, Micro.plain]
  · intro q hq
    rcases List.mem_append.mp hq with hq | hq
    · simp only [List.mem_cons, List.not_mem_nil, or_false] at hq
      rcases hq with rfl | rfl <;> rfl
    · exact Bool.eq_false_iff.mpr fun h => by simpa using within_iff.mp (within_masks p cfg) q hq _ h

/-- The run of WAIT_FOR_CARD from S2 on: MODE is Wakeup, and an Ok end leaves IRQS 0. -/
theorem runToStop_wakeup {s : State} {arm sleep : List Micro} (harm : arm.all Micro.plain = true)
    (hsleep : sleep.all Micro.plain = true) (hirqs : ∀ q ∈ sleep, q.may .irqs = false) {t : State}
    (ht : runToStop (s.goTo .waitForCard (.setMode .wakeup :: (arm ++ .zeroIrqs :: (sleep ++ [.waitRise none])))) = t) :
    t.mode = .wakeup ∧ (t.seq = .idle → t.status = 0x00 → t.irqs = 0) := by
  have hrest : ∀ {c : Power}, c ≠ .irqs → c ≠ .driver → c ≠ .line →
      ∀ q ∈ arm ++ .zeroIrqs :: (sleep ++ [.waitRise none]), q.may c = false := by
    intro c h1 h2 h3 q hq
    simp only [List.mem_append, List.mem_cons, List.not_mem_nil, or_false] at hq
    rcases hq with hq | rfl | hq | rfl
    · exact plain_may harm h1 h2 q hq
    · exact plain_may (l := [.zeroIrqs]) rfl h1 h2 _ List.mem_cons_self
    · exact plain_may hsleep h1 h2 q hq
    · cases c <;> first | rfl | exact absurd rfl h3
  refine ⟨ht ▸ runToStop_setMode (hrest (by simp) (by simp) (by simp)), fun hidle hok => ?_⟩
  rw [runToStop_cons .waitForCard _ rfl] at ht
  rcases passes_or_halts .waitForCard (s := { s with mode := .wakeup }) (hrest (c := .catches) (by simp) (by simp) (by simp))
      (plain_may harm (by simp) (by simp)) with ⟨u, -, hrun⟩ | hhalts
  · rw [runToStop_cons .waitForCard _ rfl] at hrun
    have ht' : runToStop (State.goTo { u with irqs := 0 } .waitForCard (sleep ++ [.waitRise none])) = t :=
      hrun.symm.trans ht
    rw [← ht']
    refine runToStop_kept (c := .irqs) (s := { u with irqs := 0 }) fun q hq => ?_
    rcases List.mem_append.mp hq with hq | hq
    · exact hirqs q hq
    · rw [List.mem_singleton.mp hq]
      rfl
  · exact absurd hok ((show runToStop _ = t from ht) ▸ hhalts.notOk (by exact ht ▸ hidle))

/-- MODE of an accepted WAIT_FOR_CARD that `events` have happened to: Wakeup once S1 is over, On before. -/
def WakeMode (s t : State) (events : List Event) : Prop :=
  t.mode = if s.mode = .on ∨ .write (.txDriver s.params.dResNominal) ∈ events then .wakeup else .on

/-- What is claimed of an accepted WAIT_FOR_CARD. -/
def WakeFrame (s t : State) : Prop :=
  (∃ events, t.trace = s.trace ++ events ∧ WakeMode s t events) ∧
    (t.seq = .idle → t.status = 0x00 → t.mode = .wakeup ∧ t.irqs = 0)

/-- A stop in S1: the write of TX_DRIVER is not among the events, MODE is On. -/
theorem wakeFrame_of_halts {s t : State} {l : List Micro} (hs : s.mode ≠ .on) (h : Halts { s with mode := .on } l t)
    (hmode : ∀ q ∈ l, q.may .mode = false) (hdriver : ∀ q ∈ l, q.may .driver = false) : WakeFrame s t := by
  obtain ⟨events, htrace, hnot⟩ := h.kept hdriver
  have hon : t.mode = .on := h.kept hmode
  refine ⟨⟨events, htrace, ?_⟩, fun hidle hok => absurd hok (h.notOk hidle)⟩
  rw [WakeMode, if_neg (by simp [hs, hnot]), hon]

/-- The write of TX_DRIVER, the last step of S1: once it has completed MODE is Wakeup. -/
theorem wakeFrame_driver {s u t : State} {rest : List Micro} {before : List Event} (hs : s.mode ≠ .on)
    (htrace : u.trace = s.trace ++ before) (hnot : ∀ d, .write (.txDriver d) ∉ before) (hon : u.mode = .on)
    (hc : ∀ q ∈ rest, q.may .catches = false)
    (hwake : ∀ w : State, runToStop (w.goTo .waitForCard (.setMode .wakeup :: rest)) = t →
      t.mode = .wakeup ∧ (t.seq = .idle → t.status = 0x00 → t.irqs = 0))
    (ht : runToStop (u.goTo .waitForCard (.write (.txDriver s.params.dResNominal) :: .setMode .wakeup :: rest)) = t) :
    WakeFrame s t := by
  cases hx : act (.write (.txDriver s.params.dResNominal)) u with
  | none =>
    rw [runToStop_waits _ _ hx] at ht
    subst ht
    refine ⟨⟨before, htrace, ?_⟩, fun hidle => nomatch hidle⟩
    rw [WakeMode, if_neg (by simp [hs, hnot])]
    exact hon
  | some x =>
    rw [runToStop_cons _ _ hx] at ht
    simp only [act] at hx
    rcases ask_eq_some hx with ⟨c, ps, -, rfl⟩ | ⟨v, ps, -, rfl⟩
    · rw [Exit.resume, raiseErr_of_no_catch (by simpa [Micro.may] using hc),
        runToStop_idle (.refl _) (endError_seq _ _)] at ht
      subst ht
      refine ⟨⟨before ++ [.fail (.write (.txDriver s.params.dResNominal)) c], ?_, ?_⟩,
        fun _ hok => absurd hok (errCode_ne_ok (.interface c))⟩
      · simp [htrace, State.emit, State.usePort]
      · rw [WakeMode, if_neg (by simp [hs, hnot])]
        exact hon
    · obtain ⟨hmode, hok⟩ := hwake _ ht
      refine ⟨?_, fun hidle hst => ⟨hmode, hok hidle hst⟩⟩
      obtain ⟨after, hafter, -⟩ := (ht ▸ runToStop_progress _ : Progress _ t).trace
      refine ⟨before ++ [.write (.txDriver s.params.dResNominal)] ++ after, ?_, ?_⟩
      · rw [hafter]
        simp [Exit.resume, State.goTo, State.emit, State.usePort, htrace]
      · rw [WakeMode, if_pos (by simp), hmode]

/-- S1 of WAIT_FOR_CARD, from a MODE that is not On: the steps of MODE_ON up to the write of TX_DRIVER, then that write. -/
theorem wakeFrame_modeOn {s t : State} {rest : List Micro} (hs : s.mode ≠ .on)
    (hc : ∀ q ∈ rest, q.may .catches = false)
    (hwake : ∀ u : State, runToStop (u.goTo .waitForCard (.setMode .wakeup :: rest)) = t →
      t.mode = .wakeup ∧ (t.seq = .idle → t.status = 0x00 → t.irqs = 0))
    (ht : runToStop (s.goTo .waitForCard (modeOnSteps s.params ++ .setMode .wakeup :: rest)) = t) : WakeFrame s t := by
  have hcut : modeOnSteps s.params ++ .setMode .wakeup :: rest =
      .setMode .on :: (([.write (.opControl { en := true }), .pollOsc, .modifyOpControl .efdAuto] : List Micro) ++
        .write (.txDriver s.params.dResNominal) :: .setMode .wakeup :: rest) := rfl
  rw [hcut, runToStop_cons .waitForCard _ rfl] at ht
  rcases passes_or_halts .waitForCard (s := { s with mode := .on })
      (l := [.write (.opControl { en := true }), .pollOsc, .modifyOpControl .efdAuto])
      (tail := .write (.txDriver s.params.dResNominal) :: .setMode .wakeup :: rest)
      (by simpa [Micro.may] using hc) (by decide) with ⟨u, hplay, hrun⟩ | hhalts
  · obtain ⟨before, htrace, hnot⟩ := (hplay.kept (c := .driver) (by decide)).1
    exact wakeFrame_driver hs htrace hnot (hplay.kept (c := .mode) (by decide)).1 hc hwake (hrun.symm.trans ht)
  · exact wakeFrame_of_halts hs (ht ▸ hhalts) (by decide) (by decide)

/-- Settles O56: S1 is MODE_ON's steps where MODE was not On, and S2 sets Wakeup. -/
theorem waitForCardFrame : Obligations.WaitForCardFrame := by
  unfold Obligations.WaitForCardFrame
  intro s t hs h
  have hblock : Power.block.kept s t := exec_kept h (by simp [powersOf])
  have hframe : permitted .waitForCard s = true → WakeFrame s t := by
    intro hp
    have hcatch := may_of_stepsOf (i := .waitForCard) (s := s) (c := .catches) (by simp [powersOf])
    have hrun := h
    rw [exec_permitted hs hp, Host.Outcome.next.injEq] at hrun
    obtain ⟨arm, sleep, ⟨harm, hsleep, hirqs⟩, hsteps⟩ := waitForCardSteps_eq s.params s.mode s.cfg
    rw [stepsOf, hsteps] at hcatch hrun
    by_cases hon : s.mode = .on
    · rw [if_neg (not_not.mpr hon), List.nil_append] at hrun
      obtain ⟨hmode, hok⟩ := runToStop_wakeup harm hsleep hirqs hrun
      obtain ⟨events, htrace, -⟩ := (exec_progress h).trace
      refine ⟨⟨events, htrace, ?_⟩, fun hidle hst => ⟨hmode, hok hidle hst⟩⟩
      rw [WakeMode, if_pos (.inl hon), hmode]
    · rw [if_pos hon] at hrun hcatch
      exact wakeFrame_modeOn hon
        (fun q hq => hcatch q (List.mem_append_right _ (List.mem_cons_of_mem _ hq)))
        (fun u hu => runToStop_wakeup harm hsleep hirqs hu) hrun
  refine ⟨exec_kept (c := .ready) h (by simp [powersOf]), exec_kept (c := .fatal) h (by simp [powersOf]),
    exec_kept (c := .sess) h (by simp [powersOf]), hblock.1, hblock.2, fun hp => (hframe hp).1, ?_⟩
  cases hp : permitted .waitForCard s
  · rw [exec_not_permitted hs hp] at h
    cases h
    intro _ hst
    simp [refuse, statusRefused] at hst
  · exact (hframe hp).2

/-! ## Attempted halves -/

/-- The steps of the attempted halves: their errors are transport errors. -/
def Micro.attempts : Micro → Bool
  | .setMode _ => true
  | .cmd _ => true
  | .write _ => true
  | .modifyOpControl _ => true
  | _ => false

theorem attempts_may {m : Micro} (hm : m.attempts = true) {c : Power} (hc : c ≠ .mode) (hd : c ≠ .driver) :
    m.may c = false := by
  cases m <;> simp only [Micro.attempts, reduceCtorEq] at hm <;> cases c <;>
    first | rfl | exact absurd rfl hc | exact absurd rfl hd

theorem attempts_goes {m : Micro} {s u : State} {new : List Micro} (h : act m s = some (.goes u new))
    (hm : m.attempts = true) : new.all Micro.attempts = true := by
  cases act_puts h <;> first | rfl | nomatch hm

theorem attempts_raises {m : Micro} {s u : State} {e : Err} (h : act m s = some (.raises u e))
    (hm : m.attempts = true) : ∃ c, e = .interface c := by
  cases act_raises h <;> first | exact ⟨_, rfl⟩ | nomatch hm

/-- An attempted half waits for an answer, or the run goes on behind it, its registers written as the half may. -/
theorem attempt_passes_or_waits (op : Instr) {s : State} {l tail : List Micro} {a : Attempt}
    (hl : l.all Micro.attempts = true) :
    (∃ u, (∀ c : Power, (∀ q ∈ l, q.may c = false) → c.kept s u) ∧
      runToStop (s.goTo op (l ++ .attemptEnd a :: tail)) = runToStop (u.goTo op tail)) ∨
    ((runToStop (s.goTo op (l ++ .attemptEnd a :: tail))).seq ≠ .idle ∧
      ∀ c : Power, (∀ q ∈ l, q.may c = false) → c.kept s (runToStop (s.goTo op (l ++ .attemptEnd a :: tail)))) := by
  have hstays : ∀ {u l'}, Plays s l u l' → l'.all Micro.attempts = true := by
    intro u l' h
    refine h.keeps (P := fun _ k => k.all Micro.attempts = true) (fun hgo hk => ?_) hl
    simp only [List.all_cons, List.all_append, Bool.and_eq_true] at hk ⊢
    exact ⟨attempts_goes hgo hk.1, hk.2⟩
  cases plan_reaches op (.attemptEnd a :: tail) s l with
  | waits h _ ht =>
    rw [ht]
    exact .inr ⟨(fun hi => nomatch hi), fun c hc => (h.kept hc).1.trans ((goTo_ended op _ _).kept _)⟩
  | returns h hm _ =>
    have hmay := List.all_eq_true.mp (hstays h) _ List.mem_cons_self
    rcases act_returns hm with rfl | ⟨_, rfl⟩ | ⟨_, _, _, rfl⟩ <;> nomatch hmay
  | @passes u h ht =>
    refine .inl ⟨u, fun c hc => (h.kept hc).1, ?_⟩
    rw [ht, runToStop_cons op tail rfl]
    rfl
  | @raises u w m rest e h hm ht =>
    have hall := hstays h
    simp only [List.all_cons, Bool.and_eq_true] at hall
    obtain ⟨c, rfl⟩ := attempts_raises hm hall.1
    have hcatch : ∀ q ∈ rest, q.may .catches = false :=
      fun q hq => attempts_may (List.all_eq_true.mp hall.2 q hq) (by simp) (by simp)
    rw [raiseErr_append hcatch] at ht
    refine .inl ⟨w.emit (.log (attemptLog a c)), fun d hd => ?_, ht⟩
    obtain ⟨hkept, hrest⟩ := h.kept hd
    exact (hkept.trans (act_kept hm (hrest m List.mem_cons_self))).trans
      (Power.kept_of_eq rfl rfl ⟨rfl, rfl⟩ rfl ⟨[.log (attemptLog a c)], rfl, by simp⟩)

/-! ## SESSION_END -/

/-- The run of SESSION_END: it waits with SESS as it was, or ends Ok with MODE Off and no session (44 R196). -/
theorem sessionEnd_ends {s t : State} (ht : runToStop (s.goTo .sessionEnd sessionEndSteps) = t) :
    (t.seq ≠ .idle ∧ t.sess = s.sess) ∨ (t.seq = .idle ∧ t.status = 0x00 ∧ t.mode = .off ∧ t.sess = .none) := by
  have hcut : sessionEndSteps = fieldOffSteps ++ .attemptEnd .fieldOff ::
      .setMode .off :: (([.cmd .stop, .write (.opControl {})] : List Micro) ++ .attemptEnd .modeOff :: [.setSess .none]) := rfl
  rw [hcut] at ht
  rcases attempt_passes_or_waits .sessionEnd (s := s) (l := fieldOffSteps) (a := .fieldOff)
      (tail := .setMode .off :: (([.cmd .stop, .write (.opControl {})] : List Micro) ++ .attemptEnd .modeOff ::
        [.setSess .none])) rfl with ⟨u, hkept, hrun⟩ | ⟨hbusy, hkept⟩
  · rw [ht, runToStop_cons .sessionEnd _ rfl] at hrun
    have hsess : u.sess = s.sess := hkept .sess (by decide)
    rcases attempt_passes_or_waits .sessionEnd (s := { u with mode := .off }) (a := .modeOff)
        (l := [.cmd .stop, .write (.opControl {})]) (tail := [.setSess .none]) rfl with ⟨w, hkept', hrun'⟩ | ⟨hbusy, hkept'⟩
    · have hmode : w.mode = .off := hkept' .mode (by decide)
      rw [runToStop_cons .sessionEnd _ rfl] at hrun'
      have hend : t = endOk 0 none { w with sess := .none } := hrun.trans (hrun'.trans (runToStop_nil _ _))
      subst hend
      exact .inr ⟨rfl, rfl, hmode, rfl⟩
    · have hend : t = runToStop (State.goTo { u with mode := .off } .sessionEnd
        ([.cmd .stop, .write (.opControl {})] ++ .attemptEnd .modeOff :: [.setSess .none])) := hrun
      rw [← hend] at hbusy hkept'
      exact .inl ⟨hbusy, Eq.trans (hkept' .sess (by decide)) hsess⟩
  · rw [ht] at hbusy hkept
    exact .inl ⟨hbusy, hkept .sess (by decide)⟩

end Sys2Proof.Machine
end

section
/-! SUPPORT. START_A (44 R190 to R193): S1 and S2 are MODE_ON and FIELD_ON, whose errors go to path F; behind the guard only
the timer is read. And the transport fault of any other operation (20 R60). -/

namespace Sys2Proof.Machine

/-! ## Path F -/

/-- Path F waits with the session as it was, or ends with the error it was given, MODE Off (44 R192). -/
theorem pathF_ends {op : Instr} {s t : State} {e : Err} (ht : runToStop (s.goTo op (pathF e)) = t) :
    (t.seq ≠ .idle ∧ t.sess = s.sess) ∨ (t.status = errCode e ∧ t.mode = .off ∧ t.sess = s.sess) := by
  have hcut : pathF e =
      .setMode .off :: (([.cmd .stop, .write (.opControl {})] : List Micro) ++ .attemptEnd .modeOff :: [.raise e]) := rfl
  rw [hcut, runToStop_cons op _ rfl] at ht
  rcases attempt_passes_or_waits op (s := { s with mode := .off }) (a := .modeOff)
      (l := [.cmd .stop, .write (.opControl {})]) (tail := [.raise e]) rfl with ⟨u, hkept, hrun⟩ | ⟨hbusy, hkept⟩
  · have hmode : u.mode = .off := hkept .mode (by decide)
    have hsess : u.sess = s.sess := hkept .sess (by decide)
    rw [runToStop_cons op _ rfl] at hrun
    have hend : t = endError e u := ht.symm.trans (hrun.trans (runToStop_idle (.refl _) (endError_seq _ _)))
    subst hend
    exact .inr ⟨rfl, hmode, hsess⟩
  · have hend : t = runToStop (State.goTo { s with mode := .off } op
      ([.cmd .stop, .write (.opControl {})] ++ .attemptEnd .modeOff :: [.raise e])) := ht.symm
    rw [← hend] at hbusy hkept
    exact .inl ⟨hbusy, hkept .sess (by decide)⟩

/-! ## The guard interval -/

/-- The steps of a `Delay`: timer reads and yields (60 R285). -/
def Micro.delays : Micro → Bool
  | .startTimer (.delay _) => true
  | .delayUntil _ => true
  | .yield => true
  | _ => false

theorem delays_goes {m : Micro} {s u : State} {new : List Micro} (h : act m s = some (.goes u new))
    (hm : m.delays = true) : new.all Micro.delays = true := by
  cases act_puts h
  case started w now => cases w <;> first | rfl | nomatch hm
  all_goals first | rfl | nomatch hm

theorem delays_ne_raises {m : Micro} {s u : State} {e : Err} (hm : m.delays = true) : act m s ≠ some (.raises u e) := by
  intro h
  cases m <;> simp only [Micro.delays, reduceCtorEq] at hm <;> simp only [act] at h
  case yield => nomatch h
  case startTimer | delayUntil =>
    obtain ⟨d, ts, -, hx⟩ := askTime_eq_some h
    nomatch hx

/-- S3 and S4 of START_A: they wait, or they end Ok with SESS = A (44 R190, R191). -/
theorem startA_delay_ends {s t : State} {d : Nat}
    (ht : runToStop (s.goTo .startA [.startTimer (.delay d), .setSess .a]) = t) :
    (t.seq ≠ .idle ∧ t.sess = s.sess) ∨ (t.seq = .idle ∧ t.status = 0x00 ∧ t.mode = s.mode ∧ t.sess = .a) := by
  have hstays : ∀ {u l'}, Plays s [.startTimer (.delay d)] u l' → l'.all Micro.delays = true := by
    intro u l' h
    refine h.keeps (P := fun _ k => k.all Micro.delays = true) (fun hgo hk => ?_) rfl
    simp only [List.all_cons, List.all_append, Bool.and_eq_true] at hk ⊢
    exact ⟨delays_goes hgo hk.1, hk.2⟩
  rw [← List.singleton_append] at ht
  cases plan_reaches .startA [.setSess .a] s [.startTimer (.delay d)] with
  | waits h _ hend =>
    rw [ht] at hend
    subst hend
    exact .inl ⟨(fun hi => nomatch hi), (h.kept (c := .sess) (by simp [Micro.may, Micro.xcv?])).1⟩
  | raises h hm _ => exact absurd hm (delays_ne_raises (List.all_eq_true.mp (hstays h) _ List.mem_cons_self))
  | returns h hm _ =>
    have hd := List.all_eq_true.mp (hstays h) _ List.mem_cons_self
    rcases act_returns hm with rfl | ⟨_, rfl⟩ | ⟨_, _, _, rfl⟩ <;> nomatch hd
  | @passes u h hend =>
    rw [ht, runToStop_cons .startA _ rfl] at hend
    have hend' : t = endOk 0 none { u with sess := .a } := hend.trans (runToStop_nil _ _)
    subst hend'
    exact .inr ⟨rfl, rfl, (h.kept (c := .mode) (by simp [Micro.may])).1, rfl⟩

/-! ## START_A -/

/-- An error of S1 or S2 goes to path F. -/
theorem raiseErr_startA {rest tail : List Micro} (h : ∀ q ∈ rest, q.may .catches = false) (e : Err) (op : Instr)
    (s : State) : raiseErr e op (rest ++ .startAGuard :: tail) s = s.goTo op (pathF e) := by
  rw [raiseErr_append h]
  rfl

/-- The run of START_A: it waits with SESS as it was, ends Ok in a session with MODE On, or ends in error with MODE Off and
SESS as it was. -/
theorem startA_ends {s t : State} (ht : runToStop (s.goTo .startA (startASteps s.params)) = t) :
    (t.seq ≠ .idle ∧ t.sess = s.sess) ∨ (t.seq = .idle ∧ t.status = 0x00 ∧ t.mode = .on ∧ t.sess = .a) ∨
      (t.status ≠ 0x00 ∧ t.mode = .off ∧ t.sess = s.sess) := by
  have hcut : ∃ l, l.all Micro.plain = true ∧ startASteps s.params =
      .setMode .on :: (l ++ [.startAGuard, .startTimer (.delay s.params.tGuard), .setSess .a]) :=
    ⟨enableOsc ++ [.modifyOpControl .efdAuto, .write (.txDriver s.params.dResNominal)] ++ fieldOnSteps s.params,
      by simp [Micro.plain], by simp [startASteps, modeOnSteps]⟩
  obtain ⟨l, hl, hsteps⟩ := hcut
  rw [hsteps, runToStop_cons .startA _ rfl] at ht
  have hmay : ∀ {c : Power}, c ≠ .irqs → c ≠ .driver → ∀ q ∈ l, q.may c = false := fun h1 h2 => plain_may hl h1 h2
  have hrun : Reaches .startA [.startAGuard, .startTimer (.delay s.params.tGuard), .setSess .a] { s with mode := .on } l t :=
    ht ▸ plan_reaches _ _ _ _
  cases hrun with
  | waits h _ hend =>
    subst hend
    exact .inl ⟨(fun hi => nomatch hi), (h.kept (hmay (c := .sess) (by simp) (by simp))).1⟩
  | returns h hm _ =>
    have hret := (h.kept (hmay (c := .returns) (by simp) (by simp))).2 _ List.mem_cons_self
    rcases act_returns hm with rfl | ⟨_, rfl⟩ | ⟨_, _, _, rfl⟩ <;> simp [Micro.may, Micro.xcv?] at hret
  | @raises u w m rest e h hm hend =>
    have hcatch := (h.kept (hmay (c := .catches) (by simp) (by simp))).2
    rw [raiseErr_startA fun q hq => hcatch q (List.mem_cons_of_mem _ hq)] at hend
    obtain ⟨hkept, hrest⟩ := h.kept (hmay (c := .sess) (by simp) (by simp))
    have hsess : w.sess = s.sess := hkept.trans (act_kept hm (hrest m List.mem_cons_self))
    rcases pathF_ends hend.symm with ⟨hbusy, hs⟩ | ⟨hst, hmode, hs⟩
    · exact .inl ⟨hbusy, hs.trans hsess⟩
    · exact .inr (.inr ⟨by rw [hst]; exact errCode_ne_ok e, hmode, hs.trans hsess⟩)
  | @passes u h hend =>
    have hmode : u.mode = .on := (h.kept (hmay (c := .mode) (by simp) (by simp))).1
    have hsess : u.sess = s.sess := (h.kept (hmay (c := .sess) (by simp) (by simp))).1
    rw [runToStop_cons .startA _ rfl] at hend
    rcases startA_delay_ends hend.symm with ⟨hbusy, hs⟩ | ⟨hidle, hst, hm, hs⟩
    · exact .inl ⟨hbusy, hs.trans hsess⟩
    · exact .inr (.inl ⟨hidle, hst, hm.trans hmode, hs⟩)

/-- Settles O57: the ends are those of `startA_ends` and `sessionEnd_ends`; the rest is the table of powers. -/
theorem sessionBoundariesFrame : Obligations.SessionBoundariesFrame := by
  unfold Obligations.SessionBoundariesFrame
  intro i s t hi hs h
  have hkept : ∀ {c : Power}, c ∉ powersOf i → c.kept s t := fun hc => exec_kept h hc
  have hblock : Power.block.kept s t := hkept (by revert hi; cases i <;> simp [powersOf])
  refine ⟨hkept (c := .ready) (by revert hi; cases i <;> simp [powersOf]),
    hkept (c := .fatal) (by revert hi; cases i <;> simp [powersOf]), hblock.1, hblock.2,
    fun he => hkept (c := .irqs) (by rw [he]; simp [powersOf]), ?_⟩
  cases hp : permitted i s
  · rw [exec_not_permitted hs hp] at h
    cases h
    exact ⟨fun _ => rfl, by simp, by simp⟩
  · rw [exec_permitted hs hp, Host.Outcome.next.injEq] at h
    simp only [List.mem_cons, List.not_mem_nil, or_false] at hi
    rcases hi with rfl | rfl
    · have hnone : s.sess = .none := by
        obtain ⟨-, -, hsess, -⟩ := permitted_regs hp
        simpa [matrixRow] using hsess
      rcases startA_ends h with ⟨hbusy, hsess⟩ | ⟨hidle, hst, hmode, hsess⟩ | ⟨hst, hmode, hsess⟩
      · exact ⟨fun _ => hsess, fun _ hidle => absurd hidle hbusy, (fun _ _ he => nomatch he)⟩
      · exact ⟨fun hb => absurd hidle hb, fun _ _ _ => .inl ⟨hst, hmode, hsess⟩, (fun _ _ he => nomatch he)⟩
      · exact ⟨fun _ => hsess, fun _ _ _ => .inr ⟨hst, hmode, hsess.trans hnone⟩, (fun _ _ he => nomatch he)⟩
    · rcases sessionEnd_ends h with ⟨hbusy, hsess⟩ | ⟨hidle, hst, hmode, hsess⟩
      · exact ⟨fun _ => hsess, by simp, fun _ hidle => absurd hidle hbusy⟩
      · exact ⟨fun hb => absurd hidle hb, by simp, fun _ _ _ => ⟨hst, hmode, hsess⟩⟩

/-! ## A transport fault -/

/-- A step that makes a transaction which fails raises Interface, with the failure recorded (20 R60). -/
theorem act_of_fail {m : Micro} {tr : Txn} {s : State} {err : BusErr} {ps : List PortAnswer}
    (ht : transactionOf m = some tr) (hp : s.port = .fail err :: ps) :
    act m s = some (.raises ((s.usePort ps).emit (.fail tr err)) (.interface err)) := by
  cases m <;> simp only [transactionOf, Option.some.injEq, reduceCtorEq] at ht <;> subst ht <;> simp [act, ask, hp]

/-- Where an answer is placed ENV gives none (93 U3). -/
theorem supply_of_port {s : State} {op : Instr} {m : Micro} {todo : List Micro} {tr : Txn} (hs : s.seq = .busy op (m :: todo))
    (ht : transactionOf m = some tr) (hp : s.port ≠ []) : supply s = s := by
  have hsource : sourceOf m = .port := by
    cases m <;> first | rfl | nomatch ht
  have hempty : s.port.isEmpty = false := by simpa using hp
  simp [supply, hs, hsource, hempty]

/-- Settles O28: the failing step raises Interface, which finds no clean-up. -/
theorem portFaultEndsTheOperation : Obligations.PortFaultEndsTheOperation := by
  unfold Obligations.PortFaultEndsTheOperation
  intro s op m todo tr err ps hs ht hp hhost htodo
  have hcatch : ∀ q ∈ todo, q.may .catches = false := by
    intro q hq
    obtain ⟨hguard, hattempt⟩ := htodo q hq
    cases q <;> first | rfl | exact absurd rfl hguard | exact absurd rfl (hattempt _)
  have hrun : step s = .next (runToStop (s.goTo op (m :: todo))) := by
    rw [State.goTo_self hs]
    simp [step, hs, stepBusy, hhost, continueRun, supply_of_port hs ht (by simp [hp])]
  rw [hrun, runToStop_cons op todo (act_of_fail ht hp), Exit.resume, raiseErr_of_no_catch hcatch,
    runToStop_idle (.refl _) (endError_seq _ _)]
  exact ⟨_, _, _, rfl⟩

end Sys2Proof.Machine
end

section
/-! SUPPORT. Every error of START_A's first two steps (44 R192). MODE_ON and FIELD_ON alone are played in START_A, so where
one of them alone ends with an error START_A raises the same one, and goes to path F with it. -/

namespace Sys2Proof.Machine

/-! ## Plays of a part of the steps -/

/-- Steps behind a plan do not change how it is played. -/
theorem Plays.append {s t : State} {l l' : List Micro} (h : Plays s l t l') (tail : List Micro) :
    Plays s (l ++ tail) t (l' ++ tail) := by
  induction h with
  | refl s l => exact .refl _ _
  | @step s u t m new l l' h _ ih => exact .step h (List.append_assoc new l tail ▸ ih)

/-- A change that no step reads commutes with a play. -/
theorem Plays.blind {f : State → State} (hf : BlindToBlock f) {s t : State} {l l' : List Micro} (h : Plays s l t l') :
    Plays (f s) l (f t) l' := by
  induction h with
  | refl s l => exact .refl _ _
  | step h _ ih => exact .step (act_blind hf.toBlind (fun _ _ _ _ => deliverExit_blind hf _ _ _ _) h) ih

/-- The result latches, the count of free values and the sequencer's position of `a`. -/
def withResults (a s : State) : State :=
  { s with status := a.status, value := a.value, errinfo := a.errinfo, rx := a.rx, draws := a.draws, seq := a.seq }

/-- They are read by no step. -/
theorem withResults_blind (a : State) : BlindToBlock (withResults a) where
  params _ := rfl
  irqs _ := rfl
  clock _ := rfl
  emit _ _ := rfl
  setMode _ _ := rfl
  setReady _ _ := rfl
  setFatal _ _ := rfl
  setSess _ _ := rfl
  setIrqs _ _ := rfl
  port h := ⟨_, h, rfl⟩
  ticks h := ⟨_, h, rfl⟩
  line h := ⟨_, h, rfl⟩
  spin _ := rfl
  setSpin _ _ := rfl
  setBlock _ _ _ _ := rfl

/-- An operation with no clean-up that has ended with an error has raised it. -/
theorem exec_raised {i : Instr} {s t : State} (hs : s.seq = .idle) (hp : permitted i s = true) (hc : .catches ∉ powersOf i)
    (h : exec i s = .next t) (ht : t.seq = .idle) (hst : t.status ≠ 0x00) :
    ∃ u m rest w e, Plays s (stepsOf i s) u (m :: rest) ∧ act m u = some (.raises w e) ∧ t = endError e w := by
  cases exec_stops hs hp hc h with
  | waits _ _ he => subst he; nomatch ht
  | returns _ _ he => subst he; exact absurd rfl hst
  | done _ he => subst he; exact absurd rfl hst
  | raises h hm he => exact ⟨_, _, _, _, _, h, hm, he⟩

/-- An operation that cannot return and has no clean-up has ended Ok with no step left. -/
theorem exec_done {i : Instr} {s t : State} (hs : s.seq = .idle) (hp : permitted i s = true) (hc : .catches ∉ powersOf i)
    (hr : .returns ∉ powersOf i) (h : exec i s = .next t) (ht : t.seq = .idle) (hst : t.status = 0x00) :
    ∃ u, Plays s (stepsOf i s) u [] ∧ t = endOk 0 none u := by
  cases exec_stops hs hp hc h with
  | waits _ _ he => subst he; nomatch ht
  | done h he => exact ⟨_, h, he⟩
  | raises _ _ he => subst he; exact absurd hst (errCode_ne_ok _)
  | returns h hm _ =>
    have hmay := (h.kept (may_of_stepsOf hr)).2 _ List.mem_cons_self
    rcases act_returns hm with rfl | ⟨_, rfl⟩ | ⟨_, _, _, rfl⟩ <;> simp [Micro.may, Micro.xcv?] at hmay

/-! ## Path F with its answers -/

/-- Path F, for every way MODE_OFF can go (44 R192). -/
theorem steps_pathF {s : State} {op : Instr} {ps : List PortAnswer} {ts : List Nat} {clk : Nat} {irqs : Word32}
    {evs : List Event} (e : Err) (b : ModeOffHalf) :
    Steps (s.running op (pathF e) (b.answers ++ ps) ts clk irqs evs)
      (endError e (State.running { s with mode := .off } op [.raise e] ps ts clk irqs (evs ++ b.events))) :=
  (steps_modeOffHalf (rest := [.raise e]) b).trans (steps_raise e)

/-- The end of path F. -/
theorem runToStop_pathF {w : State} {op : Instr} {e : Err} {b : ModeOffHalf} {ps : List PortAnswer}
    (hp : w.port = b.answers ++ ps) :
    runToStop (w.goTo op (pathF e)) = endError e { w with mode := .off, port := ps, trace := w.trace ++ b.events } := by
  rw [goTo_eq_running hp rfl, runToStop_idle (steps_pathF e b) (endError_seq _ _)]
  rfl

/-! ## START_A raises what MODE_ON and FIELD_ON raise -/

/-- S1 and S2 of START_A have no power over the session and catch no error. -/
theorem startA_may {p : Params} {c : Power} (hc : c = .sess ∨ c = .catches) :
    ∀ q ∈ modeOnSteps p ++ fieldOnSteps p, q.may c = false := by
  intro q hq
  refine Bool.eq_false_iff.mpr fun h => ?_
  rcases List.mem_append.mp hq with hq | hq
  · have := within_iff.mp (within_modeOn p) q hq c h
    rcases hc with rfl | rfl <;> simp at this
  · have := within_iff.mp (within_fieldOn p) q hq c h
    rcases hc with rfl | rfl <;> simp at this

/-- An error raised in S1 or S2 takes START_A through path F; SESS is as it was. -/
theorem exec_startA_raised {s u w : State} {m : Micro} {rest : List Micro} {e : Err} {b : ModeOffHalf}
    {ps : List PortAnswer} (hs : s.seq = .idle) (hp : permitted .startA s = true)
    (h : Plays s (modeOnSteps s.params ++ fieldOnSteps s.params) u (m :: rest)) (hm : act m u = some (.raises w e))
    (hport : w.port = b.answers ++ ps) :
    exec .startA s = .next (endError e { w with
      mode := .off, sess := .none, port := ps, trace := w.trace ++ b.events }) := by
  have hcatch := (h.kept (startA_may (.inr rfl))).2
  obtain ⟨hkept, hrest⟩ := h.kept (startA_may (.inl rfl))
  have hnone : s.sess = .none := by
    obtain ⟨-, -, hsess, -⟩ := permitted_regs hp
    simpa [matrixRow] using hsess
  have hsess : w.sess = .none := Eq.trans (hkept.trans (act_kept hm (hrest m List.mem_cons_self))) hnone
  have hrun : runToStop (s.goTo .startA (stepsOf .startA s)) = runToStop (w.goTo .startA (pathF e)) := by
    rw [stepsOf, startASteps, h.run, List.cons_append, runToStop_cons .startA _ hm, Exit.resume,
      raiseErr_startA fun q hq => hcatch q (List.mem_cons_of_mem _ hq)]
  rw [exec_permitted hs hp, hrun, runToStop_pathF hport, ← hsess]

/-- The matrix asks of MODE_ON what it asks of START_A. -/
theorem permitted_modeOn_of_startA {s : State} (h : permitted .startA s = true) : permitted .modeOn s = true := h

/-- It asks of FIELD_ON that MODE is On beside. -/
theorem permitted_fieldOn_of_startA {s t : State} (h : permitted .startA s = true) (hparams : t.params = s.params)
    (htx : t.tx = s.tx) (hrxcap : t.rxcap = s.rxcap) (hready : t.ready = s.ready) (hfatal : t.fatal = s.fatal)
    (hsess : t.sess = s.sess) (hmode : t.mode = .on) : permitted .fieldOn t = true := by
  simp only [permitted, matrixRow, noCondition] at h ⊢
  simp_all

/-- ERRINFO of a transport error is its value, and no other error has its code (60 R286). -/
theorem errinfoAfter_of_code {e : Err} (h : errCode e = 0x01) (n k : Nat) : errinfoAfter e n = errinfoAfter e k := by
  cases e <;> first | rfl | simp [errCode] at h

/-- Where MODE_ON alone ends with an error. -/
theorem startA_modeOn_fails {s t : State} {b : ModeOffHalf} {ps : List PortAnswer} (hs : s.seq = .idle)
    (hp : permitted .startA s = true) (h : exec .modeOn s = .next t) (ht : t.seq = .idle) (hst : t.status ≠ 0x00)
    (hport : t.port = b.answers ++ ps) :
    ∃ v e r k, (t.status = 0x01 → e = t.errinfo) ∧ exec .startA s = .next { t with
      mode := .off, sess := .none, value := v, errinfo := e, rx := r, draws := k, port := ps,
      trace := t.trace ++ b.events } := by
  obtain ⟨u, m, rest, w, e, hplay, hm, rfl⟩ :=
    exec_raised hs (permitted_modeOn_of_startA hp) (by simp [powersOf]) h ht hst
  refine ⟨_, _, _, _, ?_, exec_startA_raised hs hp (hplay.append _) hm hport⟩
  exact fun _ => rfl

/-- Where MODE_ON ends Ok and FIELD_ON after it with an error. -/
theorem startA_fieldOn_fails {s t u : State} {b : ModeOffHalf} {ps : List PortAnswer} (hs : s.seq = .idle)
    (hp : permitted .startA s = true) (h : exec .modeOn s = .next t) (ht : t.seq = .idle) (hok : t.status = 0x00)
    (hf : exec .fieldOn t = .next u) (hu : u.seq = .idle) (hst : u.status ≠ 0x00) (hport : u.port = b.answers ++ ps) :
    ∃ v e r k, (u.status = 0x01 → e = u.errinfo) ∧ exec .startA s = .next { u with
      mode := .off, sess := .none, value := v, errinfo := e, rx := r, draws := k, port := ps,
      trace := u.trace ++ b.events } := by
  have hpOn := permitted_modeOn_of_startA hp
  obtain ⟨-, -, -, -, -, -, hmode⟩ := modeAndFieldFrame .modeOn s t (by simp) hs h
  have hprog := exec_progress h
  have hpField : permitted .fieldOn t = true :=
    permitted_fieldOn_of_startA hp hprog.params hprog.tx hprog.rxcap (exec_kept (c := .ready) h (by simp [powersOf]))
      (exec_kept (c := .fatal) h (by simp [powersOf])) (exec_kept (c := .sess) h (by simp [powersOf]))
      (by simpa [hpOn] using hmode)
  obtain ⟨a, hplay, rfl⟩ := exec_done hs hpOn (by simp [powersOf]) (by simp [powersOf]) h ht hok
  obtain ⟨c, m, rest, w, e, hplay', hm, rfl⟩ := exec_raised ht hpField (by simp [powersOf]) hf hu hst
  have hfield := hplay'.blind (withResults_blind a)
  have hm' : act m (withResults a c) = some (.raises (withResults a w) e) :=
    act_blind (withResults_blind a).toBlind (fun _ _ _ _ => deliverExit_blind (withResults_blind a) _ _ _ _) hm
  have hparams : stepsOf .fieldOn (endOk 0 none a) = fieldOnSteps s.params := congrArg fieldOnSteps hprog.params
  rw [hparams] at hfield
  refine ⟨_, _, _, _, ?_,
    exec_startA_raised (w := withResults a w) hs hp ((hplay.append _).trans hfield) hm' hport⟩
  exact fun hcode => errinfoAfter_of_code hcode _ _

end Sys2Proof.Machine
end

section
/-! SUPPORT. The ends of the loops (60 R280 to R284): a refresh gathers the status bytes bit by bit, and a loop whose
deadline test comes at or past its deadline raises Timeout. -/

namespace Sys2Proof.Machine

/-! ## What a refresh gathers -/

/-- Bit `j` of a byte put in place `i`. -/
theorem getLsbD_orStatus (irqs : Word32) (i : Nat) (b : Byte) {j : Nat} (hj : j < 32) :
    (orStatus irqs i b).getLsbD j = (irqs.getLsbD j || (decide (j / 8 = i) && b.getLsbD (j % 8))) := by
  simp only [orStatus, BitVec.getLsbD_or, BitVec.getLsbD_shiftLeft, BitVec.getLsbD_setWidth, hj]
  by_cases hlt : j < 8 * i
  · have hne : j / 8 ≠ i := by omega
    simp [hlt, hne]
  · by_cases he : j / 8 = i
    · have hsub : j - 8 * i = j % 8 := by omega
      have hbound : j % 8 < 32 := by omega
      simp [hlt, he, hsub, hbound]
    · have hge : 8 ≤ j - 8 * i := by omega
      simp [hlt, he, BitVec.getLsbD_of_ge b _ hge]

/-- Bit `j` of IRQS after a refresh from register `i` on. -/
theorem getLsbD_gather (vs : List AfeView) (irqs : Word32) (i : Nat) {j : Nat} (hj : j < 32) :
    (gather irqs i vs).getLsbD j = (irqs.getLsbD j ||
      (decide (i ≤ j / 8) && (vs[j / 8 - i]?).elim false fun v => (irqStatusByte v (j / 8)).getLsbD (j % 8))) := by
  induction vs generalizing irqs i with
  | nil => simp [gather]
  | cons v vs ih =>
    rw [gather, ih, getLsbD_orStatus _ _ _ hj]
    by_cases he : j / 8 = i
    · simp [he]
    · by_cases hlt : i < j / 8
      · have hle : i ≤ j / 8 := by omega
        have hsucc : i + 1 ≤ j / 8 := by omega
        have hidx : j / 8 - i = (j / 8 - (i + 1)) + 1 := by omega
        simp [he, hle, hsucc, hidx]
      · have h1 : ¬ i ≤ j / 8 := by omega
        have h2 : ¬ i + 1 ≤ j / 8 := by omega
        simp [he, h1, h2]

/-- Settles O43: the refresh is `steps_refreshAll` with `getLsbD_gather`, the clear `steps_irqClear`. -/
theorem refreshAccumulatesAndClearEmpties : Obligations.RefreshAccumulatesAndClearEmpties := by
  unfold Obligations.RefreshAccumulatesAndClearEmpties
  intro s op todo k vs ps hlen hport
  have hgo : ∀ l, { s with seq := .busy op l } = s.running op l (answered vs ++ ps) s.ticks s.clock s.irqs [] :=
    fun l => goTo_eq_running hport rfl
  refine ⟨⟨gather s.irqs 0 vs, ?_, fun j hj => ?_⟩, ?_⟩
  · rw [hgo, runToStop_steps (steps_refreshAll vs k hlen)]
    rfl
  · simpa using getLsbD_gather vs s.irqs 0 hj
  · rw [hgo, runToStop_steps (steps_irqClear vs hlen)]
    rfl

/-! ## Timeouts -/

section
variable {s : State} {op : Instr} {rest : List Micro} {ps : List PortAnswer} {ts : List Nat} {clk : Nat}
  {irqs : Word32} {evs : List Event}

/-- An error does not depend on the step that raises it. -/
theorem raiseErr_running (e : Err) (l l' : List Micro) :
    raiseErr e op rest (s.running op l ps ts clk irqs evs) = raiseErr e op rest (s.running op l' ps ts clk irqs evs) := by
  unfold raiseErr
  cases unwind e rest <;> rfl

/-- IrqWait that sees its bit goes on. -/
theorem steps_irqSeen (n : IrqName) (dl : Nat) (h : irqSet s.params irqs n = true) :
    Steps (s.running op (.test (.irq n dl) :: rest) ps ts clk irqs evs) (s.running op rest ps ts clk irqs evs) :=
  .single (by simp [ctrlStep, State.running, microStep, testLoop, State.goTo, h])

/-- IrqWait that does not see its bit, at or past its deadline (60 R283). -/
theorem steps_irqLate (n : IrqName) {dl d : Nat} (h : irqSet s.params irqs n = false) (hd : dl ≤ clk + d) :
    Steps (s.running op (.test (.irq n dl) :: rest) ps (d :: ts) clk irqs evs)
      (raiseErr .timeout op rest (s.running op rest ps ts (clk + d) irqs (evs ++ [.time (clk + d)]))) := by
  rw [raiseErr_running _ rest (.deadline (.irq n dl) :: rest)]
  refine .head (t := s.running op (.deadline (.irq n dl) :: rest) ps (d :: ts) clk irqs evs) ?_ (.single ?_)
  · simp [ctrlStep, State.running, microStep, testLoop, State.goTo, h]
  · simp [ctrlStep, State.running, microStep, readNow, testDeadline, pollDeadline, State.readTime, hd]

/-- FIELD_ON that sees neither CAC nor CAT, at or past its deadline (41 R136). -/
theorem steps_fieldLate {dl d : Nat} (hcac : irqSet s.params irqs .cac = false) (hcat : irqSet s.params irqs .cat = false)
    (hd : dl ≤ clk + d) :
    Steps (s.running op (.test (.field (some dl)) :: rest) ps (d :: ts) clk irqs evs)
      (raiseErr .timeout op rest (s.running op rest ps ts (clk + d) irqs (evs ++ [.time (clk + d)]))) := by
  rw [raiseErr_running _ rest (.deadline (.field (some dl)) :: rest)]
  refine .head (t := s.running op (.deadline (.field (some dl)) :: rest) ps (d :: ts) clk irqs evs) ?_ (.single ?_)
  · simp [ctrlStep, State.running, microStep, testLoop, State.goTo, hcac, hcat]
  · simp [ctrlStep, State.running, microStep, readNow, testDeadline, pollDeadline, State.readTime, hd]

/-- IrqWait up to the test after its last refresh (60 R283). -/
theorem steps_irqTest (n : IrqName) (d tick : Nat) (waits : List Round) (last : List AfeView)
    (h : loopGoesOn s.params (fun w => irqSet s.params w n) (clk + tick + d) (clk + tick) irqs waits = true)
    (hl : last.length = nIrq s.params) :
    Steps (s.running op (.startTimer (.irqWait n d) :: rest) (answered (loopViews waits ++ last) ++ ps)
        (tick :: (loopTicks waits ++ ts)) clk irqs evs)
      (s.running op (.test (.irq n (clk + tick + d)) :: rest) ps ts (loopClock (clk + tick) waits)
        (gather (loopIrqs irqs waits) 0 last)
        (evs ++ [.time (clk + tick)] ++ loopEvents (clk + tick) waits ++ statusEvents 0 last)) := by
  refine (steps_startTimer _ tick).trans ?_
  have hrounds := steps_loop (s := s) (op := op) (rest := rest) (ps := ps) (ts := ts) (clk := clk + tick) (irqs := irqs)
    (evs := evs ++ [.time (clk + tick)]) (.irq n (clk + tick + d)) (fun w => irqSet s.params w n) (clk + tick + d) waits
    last (fun d' h1 h2 => steps_irqRound n _ d' h1 h2) h hl
  simpa [startTimed] using hrounds

end

/-- Settles O42: the test after the last refresh sees the bit, or the deadline test after it raises Timeout. -/
theorem irqWaitSeesItsBitOrTimesOut : Obligations.IrqWaitSeesItsBitOrTimesOut := by
  unfold Obligations.IrqWaitSeesItsBitOrTimesOut
  intro s op todo n d tick waits last ps ts t0 clock irqs events hseq hloop hlast hport hticks
  have hself : s = s.running op (.startTimer (.irqWait n d) :: todo) (answered (loopViews waits ++ last) ++ ps)
      (tick :: (loopTicks waits ++ ts)) s.clock s.irqs [] := by
    rw [← goTo_eq_running hport (by simpa using hticks), State.goTo_self hseq]
  have hrun := steps_irqTest (s := s) (op := op) (rest := todo) (ps := ps) (ts := ts) (evs := []) n d tick waits last hloop
    hlast
  rw [← hself] at hrun
  refine ⟨fun hset => ?_, ?_⟩
  · rw [runToStop_steps (hrun.trans (steps_irqSeen n _ hset))]
    simp [State.running, events, t0, clock, irqs]
  · rintro hclear late ts' rfl hlate
    rw [runToStop_steps (hrun.trans (steps_irqLate n hclear hlate))]
    simp [State.running, events, t0, clock, irqs]

/-- Settles O30: FIELD_ON's last refresh shows neither bit, and its deadline test raises Timeout before S8. -/
theorem fieldOnTimesOut : Obligations.FieldOnTimesOut := by
  unfold Obligations.FieldOnTimesOut
  intro s f d late ps ts hs hperm htf hfits hcac hcat hlate hport hticks
  have hrun := steps_fieldOn_issued hfits hport hticks
  rw [htf, Option.map_some] at hrun
  have hend := hrun.trans (steps_fieldLate hcac hcat hlate)
  rw [raiseErr_modifyOpControl, endError_running hs, ← List.append_assoc] at hend
  exact ⟨_, _, _, _, exec_of_steps hs hperm hend hs⟩

/-! ## The measurements -/

/-- CmdWait(c) up to the test after its last refresh (60 R284). -/
theorem steps_cmdTest {s : State} {op : Instr} {rest : List Micro} {ps : List PortAnswer} {ts : List Nat} {clk : Nat}
    {irqs : Word32} {evs : List Event} (cmd : AfeCmd) (c : CmdScript) (hdrain : c.drain.length = nIrq s.params)
    (hlast : c.last.length = nIrq s.params)
    (hloop : loopGoesOn s.params (fun w => irqSet s.params w .dct) (clk + c.tick + tDefault s.params) (clk + c.tick) 0
      c.waits = true) :
    Steps (s.running op (cmdWait s.params cmd ++ rest) (answered c.views ++ ps) (c.ticks ++ ts) clk irqs evs)
      (s.running op (.test (.irq .dct (clk + c.tick + tDefault s.params)) :: rest) ps ts (c.clockAfter clk) c.irqs
        (evs ++ c.events cmd clk)) := by
  have hsteps : cmdWait s.params cmd ++ rest =
      irqClear s.params ++ (.cmd cmd :: .startTimer (.irqWait .dct (tDefault s.params)) :: rest) := by
    simp [cmdWait, irqWait]
  have hviews : answered c.views ++ ps =
      answered c.drain ++ (.done c.send :: (answered (loopViews c.waits ++ c.last) ++ ps)) := by
    simp [answered, CmdScript.views]
  rw [hsteps, hviews]
  refine (steps_irqClear c.drain hdrain).trans ((steps_cmd cmd c.send).trans ?_)
  have hwait := steps_irqTest (s := s) (op := op) (rest := rest) (ps := ps) (ts := ts) (clk := clk) (irqs := 0)
    (evs := evs ++ statusEvents 0 c.drain ++ [.cmd cmd]) .dct (tDefault s.params) c.tick c.waits c.last hloop hlast
  simpa [CmdScript.ticks, CmdScript.events, CmdScript.clockAfter, CmdScript.irqs] using hwait

/-- Each measurement is its own command, the wait for DCT, and the ADC read (42 R150). -/
theorem stepsOf_measure {i : Instr} {cmd : AfeCmd} (s : State)
    (h : (i, cmd) ∈ [(.measAmp, .measAmp), (.measPhase, .measPhase), (.measCap, .measCap)]) :
    stepsOf i s = cmdWait s.params cmd ++ [.returnAdc] := by
  simp only [List.mem_cons, List.not_mem_nil, or_false, Prod.mk.injEq] at h
  rcases h with ⟨rfl, rfl⟩ | ⟨rfl, rfl⟩ | ⟨rfl, rfl⟩ <;> rfl

/-- Settles O32: DCT is not seen in the last refresh, and the deadline test raises Timeout before the ADC read. -/
theorem measurementTimesOut : Obligations.MeasurementTimesOut := by
  unfold Obligations.MeasurementTimesOut
  intro i cmd s c late ps ts hi deadline hs hperm hdrain hlast hloop hdct hlate hport hticks
  have hrun := steps_cmdTest (op := i) (rest := [.returnAdc]) (ps := ps) (ts := late :: ts) (irqs := s.irqs) (evs := [])
    cmd c hdrain hlast hloop
  rw [← goTo_eq_running hport hticks, ← stepsOf_measure s hi] at hrun
  have hend := hrun.trans (steps_irqLate .dct hdct hlate)
  rw [raiseErr_of_no_catch (by simp [Micro.may]), endError_running hs, List.nil_append, ← List.append_assoc] at hend
  exact ⟨_, _, _, _, exec_of_steps hs hperm hend hs⟩

end Sys2Proof.Machine
end

section
/-! SUPPORT. The operations outside a session on the paths on which they succeed (40 R120, 41 R130 to R138, 42 R150 to R157,
44 R190), and CAL_CAP's two errors; the chains of `Laws/Operations.lean` put behind one another. -/

namespace Sys2Proof.Machine

/-! ## Ends -/

/-- A running operation that returns `v`, as an equation on the state it was issued in (60 R270). -/
theorem endOk_value_running {s : State} (hs : s.seq = .idle) (v : Nat) (rx : Option (List Byte)) (op : Instr)
    (todo : List Micro) (ps : List PortAnswer) (ts : List Nat) (clk : Nat) (irqs : Word32) (evs : List Event) :
    endOk v rx (s.running op todo ps ts clk irqs evs) = { s with
      irqs := irqs, status := 0x00, value := BitVec.ofNat 32 v, rx := rx.getD s.rx,
      errinfo := Config.freeErrinfo s.draws, draws := s.draws + 1, port := ps, ticks := ts, clock := clk,
      trace := s.trace ++ evs } := by
  simp [endOk, State.running, statusOk, hs]

/-! ## MODE_ON, MODE_OFF, FIELD_ON, FIELD_OFF -/

/-- Settles O14: the chain of MODE_ON's steps, then `return 0`. -/
theorem modeOnCompletes : Obligations.ModeOnCompletes := by
  unfold Obligations.ModeOnCompletes
  intro s m ps hs hperm hfits hport
  have hrun := steps_modeOn (s := s) (op := .modeOn) (rest := []) (ps := ps) (ts := s.ticks) (clk := s.clock)
    (irqs := s.irqs) (evs := []) m hfits
  rw [List.append_nil, ← goTo_eq_running hport rfl] at hrun
  have hend := hrun.trans steps_end
  rw [endOk_running (s := { s with mode := .on }) hs] at hend
  exact ⟨_, _, exec_of_steps hs hperm hend hs⟩

/-- Settles O15: the chain of MODE_OFF's steps, then `return 0`. -/
theorem modeOffCompletes : Obligations.ModeOffCompletes := by
  unfold Obligations.ModeOffCompletes
  intro s v w ps hs hperm hport
  have hrun := steps_modeOff (s := s) (op := .modeOff) (rest := []) (ps := ps) (ts := s.ticks) (clk := s.clock)
    (irqs := s.irqs) (evs := []) v w
  rw [List.append_nil, ← goTo_eq_running hport rfl] at hrun
  have hend := hrun.trans steps_end
  rw [endOk_running (s := { s with mode := .off }) hs] at hend
  exact ⟨_, _, exec_of_steps hs hperm hend hs⟩

/-- Settles O16: FIELD_ON up to its last refresh, then S8, then `return 0`. -/
theorem fieldOnCompletes : Obligations.FieldOnCompletes := by
  unfold Obligations.FieldOnCompletes
  intro s f v w ps ts hs hperm hfits hcac hcat hport hticks
  have hport' : s.port = answered f.views ++ (answered [v, w] ++ ps) := by simpa [answered] using hport
  have hend := (steps_fieldOn_issued hfits hport' hticks).trans ((steps_fieldDone _ v w hcac hcat).trans steps_end)
  rw [endOk_running hs, ← List.append_assoc] at hend
  exact ⟨_, _, exec_of_steps hs hperm hend hs⟩

/-- Settles O17: the RegModify of OP_CONTROL, then `return 0`. -/
theorem fieldOffCompletes : Obligations.FieldOffCompletes := by
  unfold Obligations.FieldOffCompletes
  intro s v w ps hs hperm hport
  have hrun := (steps_modify (s := s) (op := .fieldOff) (rest := []) (ps := ps) (ts := s.ticks) (clk := s.clock)
    (irqs := s.irqs) (evs := []) .txRxOff v w).trans steps_end
  have hgo : s.goTo .fieldOff (stepsOf .fieldOff s) = _ := goTo_eq_running hport rfl
  rw [endOk_running hs] at hrun
  exact ⟨_, _, exec_of_steps hs hperm (hgo ▸ hrun) hs⟩

/-! ## START_A -/

/-- START_A up to the tests after FIELD_ON's last refresh (44 R190). -/
theorem steps_startA_issued {s : State} {m : ModeOnScript} {f : FieldOnScript} {ps : List PortAnswer} {ts : List Nat}
    (hm : m.fits = true) (hf : f.fits s.params s.clock = true) (hport : s.port = answered (m.views ++ f.views) ++ ps)
    (hticks : s.ticks = f.ticks s.params ++ ts) :
    Steps (s.goTo .startA (stepsOf .startA s))
      (State.running { s with mode := .on } .startA
        (.test (.field (s.params.tFieldOn.map (s.clock + f.tick + ·))) :: .modifyOpControl .txRxOn ::
          [.startAGuard, .startTimer (.delay s.params.tGuard), .setSess .a]) ps ts (f.clockAfter s.params s.clock) f.irqs
        (m.events s.params ++ f.events s.params s.clock)) := by
  have hport' : s.port = answered m.views ++ (answered f.views ++ ps) := by simpa [answered] using hport
  have hsteps : stepsOf .startA s = modeOnSteps s.params ++
      (fieldOnSteps s.params ++ [.startAGuard, .startTimer (.delay s.params.tGuard), .setSess .a]) :=
    List.append_assoc _ _ _
  rw [hsteps, fieldOnSteps_append, goTo_eq_running hport' hticks]
  exact (steps_modeOn m hm).trans (steps_fieldOn (s := { s with mode := .on }) f hf)

/-- Settles O21: MODE_ON, FIELD_ON, the guard interval, SESS <- A, `return 0`. -/
theorem startACompletes : Obligations.StartACompletes := by
  unfold Obligations.StartACompletes
  intro s m f v w tick early late ps ts t0 hs hperm hm hf hcac hcat hearly hlate hport hticks
  have hport' : s.port = answered (m.views ++ f.views) ++ (answered [v, w] ++ ps) := by simpa [answered] using hport
  have hticks' : s.ticks = f.ticks s.params ++ (tick :: (early ++ late :: ts)) := by simpa using hticks
  have hfield := (steps_startA_issued hm hf hport' hticks').trans (steps_fieldDone _ v w hcac hcat)
  have hguard := hfield.trans (steps_startAGuard.trans (steps_startTimer _ tick))
  have hend := hguard.trans ((steps_delay early _ late hearly hlate).trans ((steps_setSess .a).trans steps_end))
  rw [endOk_running (s := { s with mode := .on, sess := .a }) hs] at hend
  refine ⟨Config.freeErrinfo s.draws, s.draws + 1, (exec_of_steps hs hperm hend hs).trans ?_⟩
  simp [t0]

/-- The error of FIELD_ON's loop in START_A goes to path F (44 R192). -/
theorem raiseErr_startA_field {s : State} {ps : List PortAnswer} {ts : List Nat} {clk : Nat} {irqs : Word32}
    {evs : List Event} (e : Err) (l tail : List Micro) :
    raiseErr e .startA (.modifyOpControl .txRxOn :: .startAGuard :: tail) (s.running .startA l ps ts clk irqs evs) =
      s.running .startA (pathF e) ps ts clk irqs evs := rfl

/-- START_A's last refresh of FIELD_ON raises an error, and path F ends with it. -/
theorem exec_startA_field {s : State} {m : ModeOnScript} {f : FieldOnScript} {b : ModeOffHalf} {ps : List PortAnswer}
    {ts ts' : List Nat} {e : Err} {clk : Nat} {evs : List Event} (hs : s.seq = .idle) (hperm : permitted .startA s = true)
    (hm : m.fits = true) (hf : f.fits s.params s.clock = true)
    (hport : s.port = answered (m.views ++ f.views) ++ b.answers ++ ps) (hticks : s.ticks = f.ticks s.params ++ ts)
    (hraise : ∀ {u : State} {rest : List Micro} {qs : List PortAnswer} {before : List Event}, u.params = s.params →
      Steps (u.running .startA (.test (.field (s.params.tFieldOn.map (s.clock + f.tick + ·))) :: rest) qs ts
          (f.clockAfter s.params s.clock) f.irqs before)
        (raiseErr e .startA rest (u.running .startA rest qs ts' clk f.irqs (before ++ evs)))) :
    exec .startA s = .next { s with
      mode := .off, irqs := f.irqs, status := errCode e, value := Config.freeValue s.draws,
      errinfo := errinfoAfter e s.draws, rx := Config.freeRx s.draws, draws := s.draws + 1, port := ps, ticks := ts',
      clock := clk, trace := s.trace ++ m.events s.params ++ f.events s.params s.clock ++ evs ++ b.events } := by
  rw [List.append_assoc] at hport
  have hrun := (steps_startA_issued hm hf hport hticks).trans (hraise rfl)
  rw [raiseErr_startA_field] at hrun
  have hpath := hrun.trans (steps_pathF e b)
  rw [endError_running (s := { s with mode := .off }) hs] at hpath
  simpa using exec_of_steps hs hperm hpath hs

/-- Settles O31: MODE_ON alone, MODE_ON and then FIELD_ON, and the two errors of FIELD_ON's loop with their traces. -/
theorem startAFailureTurnsOff : Obligations.StartAFailureTurnsOff := by
  unfold Obligations.StartAFailureTurnsOff
  refine ⟨fun s t b ps => startA_modeOn_fails, fun s t u b ps => startA_fieldOn_fails, ?_⟩
  intro s m f b ps ts hs hperm hm hf hport hticks
  refine ⟨fun hcac => ?_, ?_⟩
  · have hraise := exec_startA_field (e := .fieldCollision) (ts' := ts) (clk := f.clockAfter s.params s.clock) (evs := [])
      hs hperm hm hf hport hticks (fun {u rest qs before} hparams => by
        rw [List.append_nil, raiseErr_running _ rest (.test (.field _) :: rest)]
        exact steps_field_collision _ (by rw [hparams]; exact hcac))
    rw [List.append_nil] at hraise
    exact ⟨_, _, _, _, hraise⟩
  · rintro hcac hcat d late ts' htf rfl hlate
    refine ⟨_, _, _, _, exec_startA_field (e := .timeout) hs hperm hm hf hport hticks fun {u rest qs before} hparams => ?_⟩
    rw [htf]
    exact steps_fieldLate (by rw [hparams]; exact hcac) (by rw [hparams]; exact hcat) hlate

end Sys2Proof.Machine
end

section
/-! SUPPORT. INIT, the measurements and CAL_CAP with their answers (40 R120, 42 R150 to R157). -/

namespace Sys2Proof.Machine

/-! ## Steps of INIT and of the measurements -/

section
variable {s : State} {op : Instr} {rest : List Micro} {ps : List PortAnswer} {ts : List Nat} {clk : Nat}
  {irqs : Word32} {evs : List Event}

/-- INIT S3 (40 R120). -/
theorem steps_readIdentity (v : AfeView) :
    Steps (s.running op (.readIdentity :: rest) (.done v :: ps) ts clk irqs evs)
      (s.running op rest ps ts clk irqs (evs ++ [.read (.identity v.identity), .log (.identity v.identity)])) :=
  .single (by simp [ctrlStep, State.running, microStep, transact, State.usePort, State.emit, State.goTo])

/-- INIT S5 and S6: the ADC read, and the write of the supply flag that follows from it (40 R123, 30 R98). -/
theorem steps_readVdd (v w : AfeView) :
    Steps (s.running op (.readVdd :: rest) (.done v :: .done w :: ps) ts clk irqs evs)
      (s.running op rest ps ts clk irqs (evs ++ [.read (.adcResult v.adcResult), .log (.vddMv (vddMv v.adcResult)),
        .write (.afeSupply (sup3v v.adcResult))])) := by
  refine .head rfl (.single ?_)
  simp [ctrlStep, State.running, microStep, transact, State.usePort, State.emit, State.goTo]

/-- The fuse step, where there is one (40 R121). -/
theorem steps_fuse (v : AfeView) :
    Steps (s.running op (fuseStep s.params ++ rest)
        (answered (if s.params.hasFuseStep then [v] else []) ++ ps) ts clk irqs evs)
      (s.running op rest ps ts clk irqs
        (evs ++ if s.params.hasFuseStep then [.write .fuseCtrlDisabled] else [])) := by
  unfold fuseStep
  split
  · exact steps_write _ v
  · simpa [answered] using Steps.refl _

/-- The ADC read of a measurement returns its byte (42 R150). -/
theorem steps_returnAdc (v : AfeView) :
    Steps (s.running op (.returnAdc :: rest) (.done v :: ps) ts clk irqs evs)
      (endOk v.adcResult.toNat none
        (s.running op (.returnAdc :: rest) ps ts clk irqs (evs ++ [.read (.adcResult v.adcResult)]))) :=
  .single (by simp [ctrlStep, State.running, microStep, transact, State.usePort, State.emit])

/-- INIT S1 to S4 (40 R120 to R122). -/
theorem steps_initStart (n : InitScript) (hpolls : n.polls.all (fun v => !v.oscOk) = true) (hready : n.ready.oscOk = true) :
    Steps (s.running op (.cmd .setDefault :: (fuseStep s.params ++
          .readIdentity :: .write (.opControl { en := true }) :: .pollOsc :: rest))
        (answered ([n.setDefault] ++ (if s.params.hasFuseStep then [n.fuse] else []) ++ [n.identity, n.enWrite] ++ n.polls ++
          [n.ready]) ++ ps) ts clk irqs evs)
      (s.running op rest ps ts clk irqs (evs ++ ([.cmd .setDefault] ++
        (if s.params.hasFuseStep then [.write .fuseCtrlDisabled] else []) ++
        [.read (.identity n.identity.identity), .log (.identity n.identity.identity), .write (.opControl { en := true })] ++
        n.polls.map (fun _ => .read (.oscStatus false)) ++ [.read (.oscStatus true)]))) := by
  have hviews : answered ([n.setDefault] ++ (if s.params.hasFuseStep then [n.fuse] else []) ++ [n.identity, n.enWrite] ++
        n.polls ++ [n.ready]) ++ ps =
      .done n.setDefault :: (answered (if s.params.hasFuseStep then [n.fuse] else []) ++
        .done n.identity :: .done n.enWrite :: (answered (n.polls ++ [n.ready]) ++ ps)) := by simp [answered]
  have hwait : ∀ v ∈ n.polls, v.oscOk = false := by simpa using hpolls
  rw [hviews]
  have hrun := (steps_cmd (s := s) (op := op) (ts := ts) (clk := clk) (irqs := irqs) (evs := evs) .setDefault
    n.setDefault).trans ((steps_fuse n.fuse).trans ((steps_readIdentity n.identity).trans ((steps_write
      (.opControl { en := true }) n.enWrite).trans
      (steps_pollOsc (rest := rest) (ps := ps) n.polls n.ready hwait hready))))
  simpa using hrun

/-- INIT S5 to S9: the supply voltage, the auxiliary clock, the field detector, the pulse of the regulator's adjustment
(40 R123, R124). -/
theorem steps_initSupply (n : InitScript) :
    Steps (s.running op (.readVdd :: .write .auxClkDisabled :: .modifyOpControl .efdAuto :: .write (.regAdjust true) ::
          .write (.regAdjust false) :: rest)
        (answered [n.adc, n.supply, n.auxClk, n.opcRead, n.opcWrite, n.start1, n.start0] ++ ps) ts clk irqs evs)
      (s.running op rest ps ts clk irqs (evs ++
        [.read (.adcResult n.adc.adcResult), .log (.vddMv n.millivolts),
          .write (.afeSupply (decide (n.millivolts < 3600))), .write .auxClkDisabled,
          .read (.opControl n.opcRead.opControl), .write (.opControl { n.opcRead.opControl with efd := .auto }),
          .write (.regAdjust true), .write (.regAdjust false)])) := by
  have hrun := (steps_readVdd (s := s) (op := op) (ts := ts) (clk := clk) (irqs := irqs) (evs := evs) n.adc n.supply).trans
    ((steps_write .auxClkDisabled n.auxClk).trans ((steps_modify .efdAuto n.opcRead n.opcWrite).trans
      ((steps_write (.regAdjust true) n.start1).trans (steps_write (rest := rest) (ps := ps) (.regAdjust false) n.start0))))
  have hmv : vddMv n.adc.adcResult = n.millivolts := rfl
  have hsup : sup3v n.adc.adcResult = decide (n.millivolts < 3600) := rfl
  rw [hmv, hsup] at hrun
  simpa [answered, applyUpdate] using hrun

end

/-- INIT is its steps S1 to S4, the measurement of the supply, S5 to S9, the adjustment, and READY <- 1 (40 R120). -/
theorem stepsOf_init (s : State) : stepsOf .init s = .cmd .setDefault :: (fuseStep s.params ++
    .readIdentity :: .write (.opControl { en := true }) :: .pollOsc :: (cmdWait s.params .measVdd ++
      .readVdd :: .write .auxClkDisabled :: .modifyOpControl .efdAuto :: .write (.regAdjust true) ::
        .write (.regAdjust false) :: (cmdWait s.params .adjustReg ++ [.setReady]))) := by
  simp [stepsOf, initSteps, enableOsc]

/-- Settles O13: the five parts of INIT behind one another. -/
theorem initCompletes : Obligations.InitCompletes := by
  unfold Obligations.InitCompletes
  intro s n ps ts hs hperm hfits hport hticks
  simp only [InitScript.fits, Bool.and_eq_true] at hfits
  obtain ⟨⟨⟨hpolls, hready⟩, hvdd⟩, hadjust⟩ := hfits
  have hport' : s.port = answered ([n.setDefault] ++ (if s.params.hasFuseStep then [n.fuse] else []) ++
      [n.identity, n.enWrite] ++ n.polls ++ [n.ready]) ++ (answered n.vdd.views ++
        (answered [n.adc, n.supply, n.auxClk, n.opcRead, n.opcWrite, n.start1, n.start0] ++
          (answered n.adjust.views ++ ps))) := by
    rw [hport]
    simp [answered, InitScript.views]
  have hticks' : s.ticks = n.vdd.ticks ++ (n.adjust.ticks ++ ts) := by simpa [InitScript.ticks] using hticks
  have hrun := (steps_initStart (op := .init) (irqs := s.irqs) (evs := []) n hpolls hready).trans
    ((steps_cmdWait .measVdd n.vdd hvdd).trans ((steps_initSupply n).trans
      ((steps_cmdWait (ps := ps) (ts := ts) .adjustReg n.adjust hadjust).trans (steps_setReady.trans steps_end))))
  rw [← goTo_eq_running hport' hticks', ← stepsOf_init, endOk_running (s := { s with ready := true }) hs] at hrun
  refine ⟨Config.freeErrinfo s.draws, s.draws + 1, (exec_of_steps hs hperm hrun hs).trans ?_⟩
  simp [InitScript.events]

/-- Settles O18: CmdWait with the measurement's command, then the ADC read. -/
theorem measurementsComplete : Obligations.MeasurementsComplete := by
  unfold Obligations.MeasurementsComplete
  intro i cmd s c adc ps ts hi hs hperm hfits hport hticks
  have hport' : s.port = answered c.views ++ .done adc :: ps := by simpa [answered] using hport
  have hrun := (steps_cmdWait (op := i) (irqs := s.irqs) (evs := []) cmd c hfits).trans
    (steps_returnAdc (rest := []) (ps := ps) (ts := ts) adc)
  rw [← goTo_eq_running hport' hticks, ← stepsOf_measure s hi, endOk_value_running hs, BitVec.ofNat_toNat] at hrun
  refine ⟨Config.freeErrinfo s.draws, s.draws + 1, (exec_of_steps hs hperm hrun hs).trans ?_⟩
  simp

/-! ## CAL_CAP -/

/-- The trace of CAL_CAP up to a read of CAP_CAL_RESULT that ends its rounds. -/
def calTrace (clock tick : Nat) (rounds : List CalRound) (last : AfeView) : List Event :=
  [.write .capCalConfAuto, .cmd .calCap, .time (clock + tick)] ++ calEvents (clock + tick) rounds ++
    [.read (.capCalResult last.capCal)]

/-- CAL_CAP up to the tests of the read that ends its rounds (42 R156). -/
theorem steps_calCap {s : State} {conf send last : AfeView} {tick : Nat} {rounds : List CalRound} {ps : List PortAnswer}
    {ts : List Nat}
    (hrounds : calGoesOn (s.clock + tick + 500 * s.params.ticksPerMs) (s.clock + tick) rounds = true)
    (hport : s.port = answered ([conf, send] ++ rounds.map CalRound.view ++ [last]) ++ ps)
    (hticks : s.ticks = tick :: rounds.map CalRound.tick ++ ts) :
    Steps (s.goTo .calCap (stepsOf .calCap s))
      (calTests .calCap [] (s.clock + tick + 500 * s.params.ticksPerMs) last.capCal
        (s.running .calCap [.pollCal (s.clock + tick + 500 * s.params.ticksPerMs)] ps ts (calClock (s.clock + tick) rounds)
          s.irqs (calTrace s.clock tick rounds last))) := by
  have hport' : s.port = .done conf :: .done send :: (answered (rounds.map CalRound.view) ++ .done last :: ps) := by
    rw [hport]
    simp [answered]
  have hgo : s.goTo .calCap (stepsOf .calCap s) = _ := goTo_eq_running hport' hticks
  rw [hgo]
  refine (steps_write _ conf).trans ((steps_cmd _ send).trans ((steps_startTimer _ tick).trans
    ((steps_calRounds rounds _ hrounds).trans (.single ?_))))
  simp [ctrlStep, State.running, microStep, transact, State.usePort, State.emit, calTrace]

/-- Settles O19: the read that ends the rounds shows `cal_end` alone, and CAL_CAP returns its value. -/
theorem calCapCompletes : Obligations.CalCapCompletes := by
  unfold Obligations.CalCapCompletes
  intro s conf send tick rounds last ps ts hs hperm hrounds herr hend hport hticks
  have hrun := steps_calCap hrounds hport hticks
  rw [calTests, if_neg (by simp [herr]), if_pos hend, endOk_value_running hs, BitVec.ofNat_toNat, BitVec.setWidth_eq] at hrun
  refine ⟨Config.freeErrinfo s.draws, s.draws + 1, (exec_of_steps hs hperm hrun hs).trans ?_⟩
  simp [calTrace]

/-- Settles O33: `cal_err` is tested first and sets FATAL; with neither flag the deadline test raises Timeout. -/
theorem calCapFaultsAndTimesOut : Obligations.CalCapFaultsAndTimesOut := by
  unfold Obligations.CalCapFaultsAndTimesOut
  intro s conf send tick rounds last ps ts deadline events clock hs hperm hrounds hport hticks
  have hrun := steps_calCap hrounds hport hticks
  refine ⟨fun herr => ?_, ?_⟩
  · rw [calTests, if_pos herr] at hrun
    have hfault : Steps _ (endError .calibrationFault (State.running { s with fatal := true } .calCap [.pollCal deadline] ps
      ts clock s.irqs events)) := hrun
    rw [endError_running (s := { s with fatal := true }) hs] at hfault
    exact ⟨_, _, _, _, exec_of_steps hs hperm hfault hs⟩
  · rintro herr hcal late ts' rfl hlate
    rw [calTests, if_neg (by simp [herr]), if_neg (by simp [hcal])] at hrun
    have hdl : calClock (s.clock + tick) rounds + late ≥ s.clock + tick + 500 * s.params.ticksPerMs := hlate
    have hend := hrun.trans (.single (t := endError .timeout (s.running .calCap [.calDeadline deadline] ps ts'
      (clock + late) s.irqs (calTrace s.clock tick rounds last ++ [.time (clock + late)])))
      (by simp [ctrlStep, State.running, State.goTo, microStep, readNow, State.readTime, hdl, raiseErr_nil, deadline, clock]))
    rw [endError_running hs, ← List.append_assoc] at hend
    exact ⟨_, _, _, _, exec_of_steps hs hperm hend hs⟩

end Sys2Proof.Machine
end

section
/-! SUPPORT. WAIT_FOR_CARD on the path on which it sleeps and wakes (43 R170 to R180): its parts behind one another, for an
image spelled byte by byte. -/

namespace Sys2Proof.Machine

section
variable {s : State} {op : Instr} {rest : List Micro} {ps : List PortAnswer} {ts : List Nat} {clk : Nat}
  {irqs : Word32} {evs : List Event}

/-- S1: the steps of MODE_ON unless MODE is On already (43 R171); MODE is On after it. -/
theorem steps_wakeModeOn (m : ModeOnScript) (h : s.mode = .on ∨ m.fits = true) :
    Steps (s.running op ((if s.mode ≠ .on then modeOnSteps s.params else []) ++ rest)
        (answered (if s.mode = .on then [] else m.views) ++ ps) ts clk irqs evs)
      (State.running { s with mode := .on } op rest ps ts clk irqs
        (evs ++ if s.mode = .on then [] else m.events s.params)) := by
  by_cases hon : s.mode = .on
  · have hself : { s with mode := .on } = s := by rw [← hon]
    rw [hself]
    simpa [hon, answered] using Steps.refl _
  · rw [if_pos hon, if_neg hon, if_neg hon]
    exact steps_modeOn m (h.resolve_left hon)

/-- The three sensing methods, for a well-formed image (43 R174). -/
theorem steps_methods (cfg : List Byte) (w : WakeScript)
    (hamp : w.amp.fits s.params (entryOf cfg .amp) clk = true)
    (hphase : w.phase.fits s.params (entryOf cfg .phase) (w.clockPhase cfg clk) = true)
    (hcap : w.cap.fits s.params (entryOf cfg .cap) (w.clockCap cfg clk) = true)
    (hwf : ∀ k, (entryOf cfg k).wellFormed = true) :
    ∃ irqs', Steps (s.running op (allMethods.flatMap (methodSteps s.params cfg) ++ rest)
        (answered (w.amp.views (entryOf cfg .amp) ++ w.phase.views (entryOf cfg .phase) ++ w.cap.views (entryOf cfg .cap)) ++
          ps) (w.ticks cfg ++ ts) clk irqs evs)
      (s.running op rest ps ts (w.clockAfter cfg clk) irqs' (evs ++ (w.amp.events (entryOf cfg .amp) .amp clk ++
        w.phase.events (entryOf cfg .phase) .phase (w.clockPhase cfg clk) ++
        w.cap.events (entryOf cfg .cap) .cap (w.clockCap cfg clk)))) := by
  have hsteps : allMethods.flatMap (methodSteps s.params cfg) ++ rest = methodSteps s.params cfg .amp ++
      (methodSteps s.params cfg .phase ++ (methodSteps s.params cfg .cap ++ rest)) := by simp [allMethods]
  have hviews : answered (w.amp.views (entryOf cfg .amp) ++ w.phase.views (entryOf cfg .phase) ++
        w.cap.views (entryOf cfg .cap)) ++ ps = answered (w.amp.views (entryOf cfg .amp)) ++
      (answered (w.phase.views (entryOf cfg .phase)) ++ (answered (w.cap.views (entryOf cfg .cap)) ++ ps)) := by
    simp [answered]
  have hticks : w.ticks cfg ++ ts = w.amp.ticks (entryOf cfg .amp) ++
      (w.phase.ticks (entryOf cfg .phase) ++ (w.cap.ticks (entryOf cfg .cap) ++ ts)) := by simp [WakeScript.ticks]
  rw [hsteps, hviews, hticks]
  obtain ⟨irqs1, h1⟩ := steps_method (s := s) (op := op) (irqs := irqs) (evs := evs) .amp cfg w.amp hamp (hwf .amp)
  obtain ⟨irqs2, h2⟩ := steps_method (s := s) (op := op) (irqs := irqs1)
    (evs := evs ++ w.amp.events (entryOf cfg .amp) .amp clk) .phase cfg w.phase hphase (hwf .phase)
  obtain ⟨irqs3, h3⟩ := steps_method (s := s) (op := op) (rest := rest) (ps := ps) (ts := ts) (irqs := irqs2)
    (evs := evs ++ w.amp.events (entryOf cfg .amp) .amp clk ++
      w.phase.events (entryOf cfg .phase) .phase (w.clockPhase cfg clk)) .cap cfg w.cap hcap (hwf .cap)
  refine ⟨irqs3, ?_⟩
  have hrun := h1.trans (h2.trans h3)
  simpa only [List.append_assoc, WakeScript.clockAfter] using hrun

/-- The masks, one write each (43 R176). -/
theorem steps_masks (cfg : List Byte) (vs : List AfeView) (h : vs.length = nIrq s.params) :
    Steps (s.running op (maskSteps s.params cfg ++ rest) (answered vs ++ ps) ts clk irqs evs)
      (s.running op rest ps ts clk irqs (evs ++ (List.range (nIrq s.params)).map fun i =>
        .write (.irqMask i (maskByte (wakeSel s.params cfg) i)))) := by
  refine steps_plain _ _ vs ?_ (by simpa using h)
  simp only [maskSteps, List.map_map]
  rfl

end

/-! ## The image, spelled byte by byte -/

/-- The timer-control value (43 R173). -/
theorem wuTimerControlOf_eq (cfg : List Byte) : wuTimerControlOf cfg =
    { index := (cfg.getD 0 0).extractLsb' 0 4
      slow := (cfg.getD 0 0).getLsbD 4
      enAmp := (entryOf cfg .amp).enabled
      enPhase := (entryOf cfg .phase).enabled
      enCap := (entryOf cfg .cap).enabled } := rfl

/-- The selected wake sources (30 R97). -/
theorem wakeSel_eq (p : Params) (cfg : List Byte) :
    wakeSel p cfg = selectedBit p cfg .amp ||| selectedBit p cfg .phase ||| selectedBit p cfg .cap := by
  have henabled : ∀ k, (methodCfg cfg k).enabled = (entryOf cfg k).enabled := fun k => (entryOf_methodCfg cfg k).1
  have hor : ∀ (b : Bool) (w v : Word32), (if b = true then w ||| v else w) = w ||| (if b = true then v else 0) := by
    intro b w v
    cases b <;> simp
  simp only [wakeSel, allMethods, List.foldl_cons, List.foldl_nil, henabled, hor, selectedBit, wakeBit, wakeIrq, IrqBits.of]
  simp

/-- The entries of a permitted image are well formed (60 R290). -/
theorem wellFormed_of_permitted {s : State} (h : permitted .waitForCard s = true) (k : Method) :
    (entryOf s.cfg k).wellFormed = true := by
  simp only [permitted, matrixRow, imageWellFormed, Bool.and_eq_true] at h
  obtain ⟨⟨⟨-, ⟨⟨⟨⟨-, hamp⟩, hphase⟩, hcap⟩, -⟩⟩, -⟩, -⟩ := h
  cases k
  · exact hamp
  · exact hphase
  · exact hcap

/-- WAIT_FOR_CARD is its steps S1 to S12 (43 R170). -/
theorem stepsOf_waitForCard (s : State) : stepsOf .waitForCard s =
    (if s.mode ≠ .on then modeOnSteps s.params else []) ++ (.setMode .wakeup :: .cmd .stop :: .write (.opControl {}) ::
      .write .opModeIso14443aInitiator :: (allMethods.flatMap (methodSteps s.params s.cfg) ++ (irqClear s.params ++
        (.write (.wuTimerControl (wuTimerControlOf s.cfg)) :: .write (.opControl { wu := true }) ::
          (maskSteps s.params s.cfg ++ [.waitRise none]))))) := by
  simp [stepsOf, waitForCardSteps]

/-- Settles O20: the parts of WAIT_FOR_CARD behind one another, and the sleep. -/
theorem waitForCardCompletes : Obligations.WaitForCardCompletes := by
  unfold Obligations.WaitForCardCompletes
  intro s w high low ps ts ls hs hperm hfits hport hticks hline
  simp only [WakeScript.fits, Bool.and_eq_true, beq_iff_eq, Bool.or_eq_true] at hfits
  obtain ⟨⟨⟨⟨⟨hmode, hamp⟩, hphase⟩, hcap⟩, hdrain⟩, hmasks⟩ := hfits
  have hport' : s.port = answered (if s.mode = .on then [] else w.modeOn.views) ++
      (.done w.stop :: .done w.opcZero :: .done w.opMode ::
        (answered (w.amp.views (entryOf s.cfg .amp) ++ w.phase.views (entryOf s.cfg .phase) ++
          w.cap.views (entryOf s.cfg .cap)) ++ (answered w.drain ++ (.done w.timer :: .done w.wake ::
            (answered w.masks ++ ps))))) := by
    rw [hport]
    simp [answered, WakeScript.views]
  obtain ⟨irqs', hmethods⟩ := steps_methods (s := { s with mode := .wakeup }) (op := .waitForCard) (ts := ts)
    (irqs := s.irqs)
    (rest := irqClear s.params ++ (.write (.wuTimerControl (wuTimerControlOf s.cfg)) :: .write (.opControl { wu := true }) ::
      (maskSteps s.params s.cfg ++ [.waitRise none])))
    (ps := answered w.drain ++ (.done w.timer :: .done w.wake :: (answered w.masks ++ ps)))
    (evs := [] ++ (if s.mode = .on then [] else w.modeOn.events s.params) ++ [.cmd .stop] ++ [.write (.opControl {})] ++
      [.write .opModeIso14443aInitiator]) s.cfg w hamp hphase hcap (wellFormed_of_permitted hperm)
  have harm := (steps_wakeModeOn (s := s) (evs := []) w.modeOn hmode).trans ((steps_setMode .wakeup).trans
    ((steps_cmd .stop w.stop).trans ((steps_write (.opControl {}) w.opcZero).trans
      ((steps_write .opModeIso14443aInitiator w.opMode).trans hmethods))))
  rw [← goTo_eq_running hport' hticks, ← stepsOf_waitForCard] at harm
  have hsleep := harm.trans ((steps_irqClear (s := { s with mode := .wakeup }) w.drain hdrain).trans
    ((steps_write _ w.timer).trans ((steps_write _ w.wake).trans
      ((steps_masks (s := { s with mode := .wakeup }) s.cfg w.masks hmasks).trans
        ((steps_waitRise (s := { s with mode := .wakeup }) high low ls hline).trans steps_end)))))
  rw [endOk_running (s := { s with mode := .wakeup, line := ls }) hs] at hsleep
  refine ⟨Config.freeErrinfo s.draws, s.draws + 1, (exec_of_steps hs hperm hsleep hs).trans ?_⟩
  simp [WakeScript.events, wuTimerControlOf_eq, wakeSel_eq, maskByte]

end Sys2Proof.Machine
end

section
/-! SUPPORT. The errors of an exchange (44 R208 to R216, 45 R253), said once for the four XCV operations and for the exchanges
inside DEP_NEW and DEP_XCV: an operation up to the tests of S6, and from there each way to an error. -/

namespace Sys2Proof.Machine

/-! ## From the tests of S6 on -/

section
variable {s : State} {op : Instr} {rest : List Micro} {ps : List PortAnswer} {ts : List Nat} {clk : Nat}
  {irqs : Word32} {evs : List Event}

/-- Exchange step S7 before an error: the no-response timer is stopped (44 R211). -/
theorem steps_stopAndRaise (e : Err) (stop : AfeView) :
    Steps (s.running op (.write .nrtCtrlStop :: .raise e :: rest) (.done stop :: ps) ts clk irqs evs)
      (raiseErr e op rest (s.running op (.raise e :: rest) ps ts clk irqs (evs ++ [.write .nrtCtrlStop]))) :=
  (steps_write _ stop).trans (steps_raise e)

/-- An error verdict of S6. -/
theorem steps_xcvError {x : Xcv} {dl : Nat} {e : Err} (h : xcvVerdict s.params x.kind irqs = .error e) (stop : AfeView) :
    Steps (s.running op (.test (.xcv x dl) :: rest) (.done stop :: ps) ts clk irqs evs)
      (raiseErr e op rest (s.running op (.raise e :: rest) ps ts clk irqs (evs ++ [.write .nrtCtrlStop]))) :=
  .head (by simp [ctrlStep, State.running, microStep, testLoop, h, State.goTo]) (steps_stopAndRaise e stop)

/-- The outer deadline of S6 (44 R210). -/
theorem steps_xcvLate {x : Xcv} {dl late : Nat} (h : decided s.params x.kind irqs = false) (hd : dl ≤ clk + late)
    (stop : AfeView) :
    Steps (s.running op (.test (.xcv x dl) :: rest) (.done stop :: ps) (late :: ts) clk irqs evs)
      (raiseErr .timeout op rest (s.running op (.raise .timeout :: rest) ps ts (clk + late) irqs
        (evs ++ [.time (clk + late)] ++ [.write .nrtCtrlStop]))) := by
  have hv : xcvVerdict s.params x.kind irqs = .pending := decided_false_iff.mp h
  refine .head (t := s.running op (.deadline (.xcv x dl) :: rest) (.done stop :: ps) (late :: ts) clk irqs evs) ?_
    (.head (t := s.running op (.write .nrtCtrlStop :: .raise .timeout :: rest) (.done stop :: ps) ts (clk + late) irqs
      (evs ++ [.time (clk + late)])) ?_ (steps_stopAndRaise .timeout stop))
  · simp [ctrlStep, State.running, microStep, testLoop, hv, State.goTo]
  · simp [ctrlStep, State.running, microStep, readNow, testDeadline, pollDeadline, State.readTime, State.goTo, hd]

/-- Success of S6: S7, up to the read of FIFO_STATUS_B. -/
theorem steps_xcvSuccess {x : Xcv} {dl : Nat} (h : xcvVerdict s.params x.kind irqs = .success) (stop : AfeView) :
    Steps (s.running op (.test (.xcv x dl) :: rest) (.done stop :: ps) ts clk irqs evs)
      (s.running op (.readFifoB x :: rest) ps ts clk irqs (evs ++ [.write .nrtCtrlStop])) :=
  .head (by simp [ctrlStep, State.running, microStep, testLoop, h, State.goTo]) (steps_write _ stop)

/-- A FIFO flag (44 R212). -/
theorem steps_fifoFault {x : Xcv} {e : Err} {b : AfeView} (h : fifoFault b.fifoB = some e) :
    Steps (s.running op (.readFifoB x :: rest) (.done b :: ps) ts clk irqs evs)
      (raiseErr e op rest
        (s.running op (.readFifoB x :: rest) ps ts clk irqs (evs ++ [.read (.fifoStatusB b.fifoB)]))) :=
  .single (by simp [ctrlStep, State.running, microStep, transact, State.usePort, State.emit, h])

/-- The count of a clean FIFO, up to the length checks (44 R213). -/
theorem steps_count {x : Xcv} {r : RxScript} (h : r.clean = true) :
    Steps (s.running op (.readFifoB x :: rest) (.done r.fifoB :: .done r.fifoA :: ps) ts clk irqs evs)
      (decodeChecks op rest x r.count (s.running op (.readFifoA x r.fifoB.fifoB.countHi :: rest) ps ts clk irqs
        (evs ++ [.read (.fifoStatusB r.fifoB.fifoB), .read (.fifoStatusA r.fifoA.countLo)]))) := by
  have hcount : receivedBytes r.fifoA.countLo r.fifoB.fifoB.countHi = r.count := rfl
  refine .head (t := s.running op (.readFifoA x r.fifoB.fifoB.countHi :: rest) (.done r.fifoA :: ps) ts clk irqs
    (evs ++ [.read (.fifoStatusB r.fifoB.fifoB)])) ?_ (.single ?_)
  · simp [ctrlStep, State.running, microStep, transact, State.usePort, State.emit, State.goTo, clean_fifoFault h]
  · simp [ctrlStep, State.running, microStep, transact, State.usePort, State.emit, hcount]

end

/-- An operation up to the tests that end S6 of one of its exchanges. -/
theorem steps_xcvTest {i : Instr} {s : State} {wtx : List BlockScript} {x : Xcv} {timeout : Nat} {sc : XcvScript}
    {ps : List PortAnswer} {ts : List Nat} (h : exchangeOf i s wtx = some (x, timeout))
    (hfits : sc.fits s.params x timeout (wtxClock s.clock wtx) = true)
    (hport : s.port = answered (roundViews wtx) ++ (answered sc.views ++ ps))
    (hticks : s.ticks = roundTicks wtx ++ (sc.ticks ++ ts)) :
    Steps (s.goTo i (stepsOf i s))
      (s.running i [.test (.xcv x (sc.clockRx (wtxClock s.clock wtx) + tDefault s.params))] ps ts
        (sc.clockAfter (wtxClock s.clock wtx)) sc.irqs
        (roundEvents s wtx ++ sc.events s.params x timeout (wtxClock s.clock wtx))) := by
  obtain ⟨irqs', hrun⟩ := steps_exchangeOf h hport hticks
  exact hrun.trans (steps_exchange x timeout sc hfits)

/-- An operation whose steps end with an error, as an equation on the state it was issued in; VALUE, RX and ERRINFO are
left open. -/
theorem exec_endError {i op : Instr} {s : State} {todo : List Micro} {ps : List PortAnswer} {ts : List Nat} {clk : Nat}
    {irqs : Word32} {evs trace : List Event} {e : Err} (hs : s.seq = .idle) (hp : permitted i s = true)
    (h : Steps (s.goTo i (stepsOf i s)) (endError e (s.running op todo ps ts clk irqs evs)))
    (htrace : s.trace ++ evs = trace) :
    ∃ v c r k, exec i s = .next { s with
      irqs := irqs, status := errCode e, value := v, errinfo := c, rx := r, draws := k, port := ps, ticks := ts,
      clock := clk, trace := trace } := by
  rw [endError_running hs, htrace] at h
  exact ⟨_, _, _, _, exec_of_steps hs hp h hs⟩

/-! ## The obligations -/

/-- The code of S6's first error is the verdict's (44 R209). -/
theorem verdict_of_code {p : Params} {kind : FrameKind} {w : Word32} {code : Byte}
    (h : some code = (if irqSet p w .nre then some 0x02 else if irqSet p w .errFrame then some 0x03
      else if irqSet p w .errPar then some 0x04 else if irqSet p w .errCrc then some 0x05
      else if irqSet p w .col ∧ kind ≠ .anticoll then some 0x06 else none)) :
    ∃ e, xcvVerdict p kind w = .error e ∧ errCode e = code := by
  simp only [xcvVerdict, and_comm (a := kind ≠ .anticoll)]
  split at h
  · rw [if_pos ‹_›]; cases h; exact ⟨_, rfl, rfl⟩
  rw [if_neg ‹_›]
  split at h
  · rw [if_pos ‹_›]; cases h; exact ⟨_, rfl, rfl⟩
  rw [if_neg ‹_›]
  split at h
  · rw [if_pos ‹_›]; cases h; exact ⟨_, rfl, rfl⟩
  rw [if_neg ‹_›]
  split at h
  · rw [if_pos ‹_›]; cases h; exact ⟨_, rfl, rfl⟩
  rw [if_neg ‹_›]
  split at h
  · rw [if_pos ‹_›]; cases h; exact ⟨_, rfl, rfl⟩
  · nomatch h

/-- Settles O34: the verdict after the last refresh is the first error, and S7 comes before it is raised. -/
theorem exchangeErrorsInPriorityOrder : Obligations.ExchangeErrorsInPriorityOrder := by
  unfold Obligations.ExchangeErrorsInPriorityOrder
  intro i s wtx x timeout sc stop code ps ts clock hx hs hperm hfits hcode hport hticks
  obtain ⟨e, hverdict, rfl⟩ := verdict_of_code hcode
  have hport' : s.port = answered (roundViews wtx) ++ (answered sc.views ++ .done stop :: ps) := by
    simpa [answered] using hport
  have hend := (steps_xcvTest hx hfits hport' (by simpa using hticks)).trans (steps_xcvError hverdict stop)
  exact exec_endError hs hperm hend (by simp [clock])

/-- Settles O35: the last refresh decides nothing, and the deadline test stops the timer and raises Timeout. -/
theorem exchangeOuterDeadline : Obligations.ExchangeOuterDeadline := by
  unfold Obligations.ExchangeOuterDeadline
  intro i s wtx x timeout sc late stop ps ts clock hx hs hperm hfits hpending hlate hport hticks
  have hport' : s.port = answered (roundViews wtx) ++ (answered sc.views ++ .done stop :: ps) := by
    simpa [answered] using hport
  have hend := (steps_xcvTest hx hfits hport' (by simpa using hticks)).trans (steps_xcvLate hpending hlate stop)
  exact exec_endError hs hperm hend (by simp [clock])

/-- The code of the first FIFO flag (44 R212). -/
theorem fifoFault_of_code {b : FifoStatusB} {code : Byte}
    (h : some code = (if b.ovr then some 0x07 else if b.undr then some 0x08 else if b.npLb then some 0x09 else none)) :
    ∃ e, fifoFault b = some e ∧ errCode e = code := by
  unfold fifoFault
  split at h
  · rw [if_pos ‹_›]; cases h; exact ⟨_, rfl, rfl⟩
  rw [if_neg ‹_›]
  split at h
  · rw [if_pos ‹_›]; cases h; exact ⟨_, rfl, rfl⟩
  rw [if_neg ‹_›]
  split at h
  · rw [if_pos ‹_›]; cases h; exact ⟨_, rfl, rfl⟩
  · nomatch h

/-- Settles O37: after S7 the read of FIFO_STATUS_B shows a flag, which is raised at once. -/
theorem fifoFaultsEndTheExchange : Obligations.FifoFaultsEndTheExchange := by
  unfold Obligations.FifoFaultsEndTheExchange
  intro i s wtx x timeout sc stop b code ps ts clock hx hs hperm hfits hrec hcode hport hticks
  obtain ⟨e, hfault, rfl⟩ := fifoFault_of_code hcode
  have hport' : s.port = answered (roundViews wtx) ++ (answered sc.views ++ .done stop :: .done b :: ps) := by
    simpa [answered] using hport
  have hend := (steps_xcvTest hx hfits hport' (by simpa using hticks)).trans
    ((steps_xcvSuccess (received_verdict hrec) stop).trans (steps_fifoFault hfault))
  exact exec_endError hs hperm hend (by simp [clock])

/-- The code of the length checks (44 R214 to R216). -/
theorem decodeChecks_of_code {x : Xcv} {count : Nat} {code : Byte} {op : Instr} {rest : List Micro}
    (h : some code = (match x.kind with
      | .standard => if count < 2 then some 0x0B else if count > x.cap + 2 then some 0x0C else none
      | .anticoll => if max (x.bits / 8 + count) ((x.bits + 7) / 8) > x.cap then some 0x0C else none
      | .reqA => if count > x.cap then some 0x0C else none
      | .wupA => if count > x.cap then some 0x0C else none)) :
    ∃ e, (∀ u, decodeChecks op rest x count u = raiseErr e op rest u) ∧ errCode e = code := by
  unfold decodeChecks
  cases hk : x.kind <;> simp only [hk] at h ⊢
  case standard =>
    split at h
    · cases h; exact ⟨_, fun _ => if_pos ‹_›, rfl⟩
    split at h
    · have hlong : count - 2 > x.cap := by omega
      cases h
      exact ⟨_, fun _ => (if_neg ‹_›).trans (if_pos hlong), rfl⟩
    · nomatch h
  all_goals
    split at h
    · cases h; exact ⟨_, fun _ => if_pos ‹_›, rfl⟩
    · nomatch h

/-- Settles O38: with no FIFO flag the count is read, and the length checks raise their error before the FIFO is. -/
theorem responseLengthIsChecked : Obligations.ResponseLengthIsChecked := by
  unfold Obligations.ResponseLengthIsChecked
  intro i s wtx x timeout sc r code ps ts clock cap hx hs hperm hfits hrec hclean hcode hport hticks
  rw [show cap = x.cap from (exchangeOf_cap hx).symm] at hcode
  obtain ⟨e, hchecks, rfl⟩ := decodeChecks_of_code (op := i) (rest := []) hcode
  have hport' : s.port = answered (roundViews wtx) ++
      (answered sc.views ++ .done r.stop :: .done r.fifoB :: .done r.fifoA :: ps) := by
    simpa [answered] using hport
  have hend := (steps_xcvTest hx hfits hport' (by simpa using hticks)).trans
    ((steps_xcvSuccess (received_verdict hrec) r.stop).trans (steps_count hclean))
  rw [hchecks] at hend
  exact exec_endError hs hperm hend (by simp [clock])

/-- Exchange steps S1 to S5 up to the test after the last refresh of S5 (44 R201 to R208). -/
theorem steps_transmit {s : State} {op : Instr} {rest : List Micro} {ps : List PortAnswer} {ts : List Nat} {clk : Nat}
    {irqs : Word32} {evs : List Event} {x : Xcv} {timeout : Nat} {setup drain : List AfeView} {send : AfeView} {tick : Nat}
    {waits : List Round} {last : List AfeView} (hsetup : setup.length = (setupEvents s.params x timeout).length)
    (hdrain : drain.length = nIrq s.params) (hlast : last.length = nIrq s.params)
    (hloop : loopGoesOn s.params (fun w => irqSet s.params w .txe) (clk + tick + tDefault s.params) (clk + tick) 0 waits =
      true) :
    Steps (s.running op (exchange s.params x timeout ++ rest)
        (answered (setup ++ drain ++ [send] ++ loopViews waits ++ last) ++ ps) (tick :: (loopTicks waits ++ ts)) clk irqs evs)
      (s.running op (.test (.irq .txe (clk + tick + tDefault s.params)) :: .startTimer (.xcv x) :: rest) ps ts
        (loopClock (clk + tick) waits) (gather (loopIrqs 0 waits) 0 last)
        (evs ++ (setupEvents s.params x timeout ++ statusEvents 0 drain ++
          [.cmd (transmitCommand x.kind), .time (clk + tick)] ++ loopEvents (clk + tick) waits ++ statusEvents 0 last))) := by
  have hviews : answered (setup ++ drain ++ [send] ++ loopViews waits ++ last) ++ ps =
      answered setup ++ (answered drain ++ .done send :: (answered (loopViews waits ++ last) ++ ps)) := by simp [answered]
  rw [exchange_eq, hviews]
  refine (steps_plain _ _ setup (setup_plain s.params x timeout) hsetup).trans
    ((steps_irqClear drain hdrain).trans ((steps_cmd (txCommand x.kind) send).trans ?_))
  have hwait := steps_irqTest (s := s) (op := op) (rest := .startTimer (.xcv x) :: rest) (ps := ps) (ts := ts) (clk := clk)
    (irqs := 0) (evs := evs ++ setupEvents s.params x timeout ++ statusEvents 0 drain ++ [.cmd (txCommand x.kind)]) .txe
    (tDefault s.params) tick waits last hloop hlast
  simpa [irqWait, transmitCommand_eq] using hwait

/-- Settles O36: S5's last refresh does not show TXE, and its deadline test raises Timeout before S6. -/
theorem transmissionTimesOutWithoutStop : Obligations.TransmissionTimesOutWithoutStop := by
  unfold Obligations.TransmissionTimesOutWithoutStop
  intro i s wtx x timeout setup drain send tick waits last late ps ts t0 clock irqs deadline hx hs hperm hsetup hdrain hlast
    hloop htxe hlate hport hticks
  have hport' : s.port = answered (roundViews wtx) ++
      (answered (setup ++ drain ++ [send] ++ loopViews waits ++ last) ++ ps) := by
    simpa [answered] using hport
  obtain ⟨irqs', hrun⟩ := steps_exchangeOf hx hport' (ts := tick :: (loopTicks waits ++ late :: ts)) (by simpa using hticks)
  have hend := hrun.trans ((steps_transmit hsetup hdrain hlast hloop).trans (steps_irqLate .txe htxe hlate))
  rw [raiseErr_of_no_catch (by simp [Micro.may])] at hend
  exact exec_endError hs hperm hend (by simp [t0, clock])

/-- Settles O40: the size check is the first step of DEP_XCV and the only one where it fails. -/
theorem txFrameTooBigBeforeAnyTransaction : Obligations.TxFrameTooBigBeforeAnyTransaction := by
  unfold Obligations.TxFrameTooBigBeforeAnyTransaction
  intro s hs hperm hlen
  have hsteps : stepsOf .depXcv s = [.raise .txFrameTooBig] := by
    rw [stepsOf, depXcvSteps, if_pos hlen]
  have hgo : s.goTo .depXcv (stepsOf .depXcv s) =
      s.running .depXcv [.raise .txFrameTooBig] s.port s.ticks s.clock s.irqs [] := by
    rw [hsteps, goTo_eq_running rfl rfl]
  refine exec_endError (op := .depXcv) (todo := [.raise .txFrameTooBig]) (e := .txFrameTooBig) hs hperm ?_ (List.append_nil _)
  rw [hgo]
  exact steps_raise _

end Sys2Proof.Machine
end

section
/-! SUPPORT. Exchanges that succeed (44 R214 to R216, 45 R240 to R252), and DEP_XCV's responses that are rejected. -/

namespace Sys2Proof.Machine

/-- An operation whose steps return, as an equation on the state they return from; ERRINFO is left open. -/
theorem exec_endOk {i op : Instr} {s u : State} {todo : List Micro} {ps : List PortAnswer} {ts : List Nat} {clk : Nat}
    {irqs : Word32} {evs trace : List Event} {v : Nat} {rx : Option (List Byte)} (hs : s.seq = .idle)
    (hp : permitted i s = true) (hu : u.seq = .idle)
    (h : Steps (s.goTo i (stepsOf i s)) (endOk v rx (u.running op todo ps ts clk irqs evs)))
    (htrace : u.trace ++ evs = trace) :
    ∃ e k, exec i s = .next { u with
      irqs := irqs, status := 0x00, value := BitVec.ofNat 32 v, rx := rx.getD u.rx, errinfo := e, draws := k, port := ps,
      ticks := ts, clock := clk, trace := trace } := by
  rw [endOk_value_running hu, htrace] at h
  exact ⟨_, _, exec_of_steps hs hp h hu⟩

/-! ## Responses for the host -/

section
variable {s : State} {op : Instr} {rest : List Micro} {ps : List PortAnswer} {ts : List Nat} {clk : Nat}
  {irqs : Word32} {evs : List Event}

/-- The host's exchange returns the decoded response (44 R214 to R216). -/
theorem deliverTo_host {x : Xcv} (h : x.dest = .host) (data : List Byte) (bits : Nat) (u : State) :
    deliverTo op rest x data bits u = endOk bits (some data) u := by
  simp [deliverTo, h]

/-- A running operation, moved. -/
@[simp] theorem State.running_goTo (op' : Instr) (l l' : List Micro) :
    (s.running op l ps ts clk irqs evs).goTo op' l' = s.running op' l' ps ts clk irqs evs := rfl

/-- Its delivery. -/
theorem steps_deliver_host {x : Xcv} (h : x.dest = .host) (data : List Byte) (bits : Nat) :
    Steps (s.running op (.deliver x data bits :: rest) ps ts clk irqs evs)
      (endOk bits (some data) (s.running op (.deliver x data bits :: rest) ps ts clk irqs evs)) :=
  .single (by simp [ctrlStep, State.running, microStep, deliverTo_host h])

end

/-- An operation of the host's exchanges up to its decode (44 R200 to R213). -/
theorem steps_hostDecode {i : Instr} {s : State} {x : Xcv} {timeout n : Nat} {sc : XcvScript} {r : RxScript}
    {ps : List PortAnswer} {ts : List Nat} (hx : hostExchange i s = some (x, timeout))
    (hfits : sc.fits s.params x timeout s.clock = true) (hrec : received s.params x.kind sc.irqs = true)
    (hclean : r.clean = true)
    (hchecks : ∀ u : State, decodeChecks i [] x r.count u = u.goTo i [.readFifo x n])
    (hport : s.port = answered (sc.views ++ r.views) ++ ps) (hticks : s.ticks = sc.ticks ++ ts) :
    Steps (s.goTo i (stepsOf i s))
      (decodeRead i [] x (fifoBytes r.fifo n)
        (s.running i [.readFifo x n] ps ts (sc.clockAfter s.clock) sc.irqs
          (sc.events s.params x timeout s.clock ++ r.events n))) := by
  obtain ⟨hsteps, -, -⟩ := stepsOf_hostExchange hx
  rw [hsteps, goTo_eq_running hport hticks]
  exact steps_exchange_receive x timeout sc r n hfits hrec hclean hchecks

/-- Settles O23: a request's count is held against RXCAP, and the bytes go to the host as they are. -/
theorem requestsComplete : Obligations.RequestsComplete := by
  unfold Obligations.RequestsComplete
  intro i s x timeout sc r ps ts hi hx hs hperm hfits hrec hclean hcount hport hticks
  obtain ⟨-, hdest, hcap⟩ := stepsOf_hostExchange hx
  have hkind : x.kind = .reqA ∨ x.kind = .wupA := by
    rcases hi with rfl | rfl <;> simp only [hostExchange, Option.some.injEq, Prod.mk.injEq] at hx <;> obtain ⟨rfl, -⟩ := hx
    · exact .inl rfl
    · exact .inr rfl
  have hchecks : ∀ u : State, decodeChecks i [] x r.count u = u.goTo i [.readFifo x r.count] := by
    have hfit : ¬ r.count > x.cap := by omega
    rcases hkind with hk | hk <;> simp [decodeChecks, hk, hfit]
  have hread : ∀ u : State, decodeRead i [] x (fifoBytes r.fifo r.count) u =
      u.goTo i [.deliver x (fifoBytes r.fifo r.count) (8 * r.count)] := by
    rcases hkind with hk | hk <;> simp [decodeRead, hk]
  have hrun := steps_hostDecode hx hfits hrec hclean hchecks hport hticks
  rw [hread, State.running_goTo] at hrun
  exact exec_endOk hs hperm hs (hrun.trans (steps_deliver_host hdest _ _)) (List.append_assoc _ _ _).symm

/-- Settles O25: the two CRC bytes are taken off the count, and the payload goes to the host. -/
theorem standardCompletes : Obligations.StandardCompletes := by
  unfold Obligations.StandardCompletes
  intro s tmo x timeout sc r ps ts hx hs hperm hfits hacc hport hticks
  obtain ⟨hsteps, hdest, hcap⟩ := stepsOf_hostExchange hx
  have hkind : x.kind = .standard := by
    simp only [hostExchange, Option.some.injEq, Prod.mk.injEq] at hx
    rw [← hx.1]
  rw [← hcap] at hacc
  have hrun := steps_exchange_standard (s := s) (op := .xcvStandard tmo) (rest := []) (ps := ps) (ts := ts)
    (clk := s.clock) (irqs := s.irqs) (evs := []) x timeout sc r hkind hfits hacc
  rw [← goTo_eq_running hport hticks, ← hsteps, deliverTo_host hdest] at hrun
  exact exec_endOk hs hperm hs hrun (List.append_assoc _ _ _).symm

/-! ## Anticollision -/

/-- A byte of a list in which one has been changed. -/
theorem getD_modify {l : List Byte} {j : Nat} (hj : j < l.length) (i : Nat) (f : Byte → Byte) :
    (l.modify i f).getD j 0 = if i = j then f (l.getD j 0) else l.getD j 0 := by
  simp only [List.getD_eq_getElem?_getD, List.getElem?_modify, List.getElem?_eq_getElem hj]
  split <;> rfl

/-- A byte of the assembled response before the known bits are or-ed in (44 R215). -/
theorem getD_anticollBody {tx received : List Byte} {full : Nat} (htx : full ≤ tx.length) (k j : Nat) :
    (tx.take full ++ received ++ List.replicate k 0).getD j 0 =
      if j < full then tx.getD j 0 else received.getD (j - full) 0 := by
  have hlen : (tx.take full).length = full := by simpa using htx
  rw [List.append_assoc]
  split
  · rename_i hj
    rw [List.getD_append _ _ _ _ (by omega)]
    simp [hj]
  · rw [List.getD_append_right _ _ _ _ (by omega), hlen]
    by_cases hr : j - full < received.length
    · rw [List.getD_append _ _ _ _ hr]
    · rw [List.getD_append_right _ _ _ _ (by omega), List.getD_eq_default _ _ (show received.length ≤ j - full by omega)]
      simp only [List.getD_eq_getElem?_getD, List.getElem?_replicate]
      split <;> rfl

/-- A byte of the assembled response (44 R215). -/
theorem getD_anticollBytes {bits : Nat} {tx received : List Byte} (htx : bits / 8 ≤ tx.length) {j : Nat}
    (hj : j < anticollLength bits received.length) :
    (anticollBytes bits tx received).getD j 0 =
      (if j < bits / 8 then tx.getD j 0 else received.getD (j - bits / 8) 0) |||
        (if j = bits / 8 then tx.getD (bits / 8) 0 &&& splitMask bits else 0) := by
  rw [← length_anticollBytes bits tx received] at hj
  unfold anticollBytes at hj ⊢
  dsimp only at hj ⊢
  split
  · rename_i hrem
    rw [getD_anticollBody htx]
    simp [splitMask, hrem]
  · rename_i hrem
    rw [if_neg hrem, List.length_modify] at hj
    rw [getD_modify hj, getD_anticollBody htx]
    by_cases he : j = bits / 8
    · rw [if_pos he.symm, if_pos he]
    · rw [if_neg (Ne.symm he), if_neg he]
      simp

/-- The decode of an anticollision response: COLLISION_STATUS is read when COL is set (44 R215). -/
theorem steps_anticollDecode {s : State} {op : Instr} {x : Xcv} {f : List Byte} {col : AfeView} {ps : List PortAnswer}
    {ts : List Nat} {clk : Nat} {irqs : Word32} {evs : List Event} {l : List Micro} (hk : x.kind = .anticoll)
    (hd : x.dest = .host) :
    ∃ l', Steps (decodeRead op [] x f
        (s.running op l (answered (if irqSet s.params irqs .col then [col] else []) ++ ps) ts clk irqs evs))
      (endOk (if irqSet s.params irqs .col then 8 * col.collision.cByte.toNat + col.collision.cBit.toNat
          else 8 * (x.bits / 8 + f.length)) (some (anticollBytes x.bits x.tx f))
        (s.running op l' ps ts clk irqs
          (evs ++ if irqSet s.params irqs .col then [.read (.collisionStatus col.collision)] else []))) := by
  by_cases hcol : irqSet s.params irqs .col = true
  · have hread : decodeRead op [] x f (s.running op l (answered [col] ++ ps) ts clk irqs evs) =
        s.running op [.readCollision x (anticollBytes x.bits x.tx f)] (answered [col] ++ ps) ts clk irqs evs := by
      simp [decodeRead, hk, State.running, State.goTo, hcol]
    simp only [hcol, if_true, hread]
    refine ⟨_, .head ?_ (steps_deliver_host (rest := []) hd (anticollBytes x.bits x.tx f) (collisionPosition col.collision))⟩
    simp [ctrlStep, State.running, microStep, transact, State.usePort, State.emit, State.goTo, answered]
  · have hread : decodeRead op [] x f (s.running op l (answered [] ++ ps) ts clk irqs evs) =
        s.running op [.deliver x (anticollBytes x.bits x.tx f) (8 * (x.bits / 8 + f.length))] (answered [] ++ ps) ts clk irqs
          evs := by
      simp [decodeRead, hk, State.running, State.goTo, hcol]
    simp only [hcol, if_false, Bool.false_eq_true, hread, List.append_nil]
    exact ⟨_, steps_deliver_host hd (anticollBytes x.bits x.tx f) (8 * (x.bits / 8 + f.length))⟩

/-- Settles O24: the response is assembled as `getD_anticollBytes` says, and goes to the host with the collision's position
or the whole bit count. -/
theorem anticollCompletes : Obligations.AnticollCompletes := by
  unfold Obligations.AnticollCompletes
  intro s bits x timeout sc r col ps ts full n hx hs hperm hfits hrec hclean hn hport hticks
  obtain ⟨-, hdest, hcap⟩ := stepsOf_hostExchange hx
  have hxcv : x.kind = .anticoll ∧ x.bits = bits.toNat ∧ x.tx = s.tx := by
    simp only [hostExchange, Option.some.injEq, Prod.mk.injEq] at hx
    rw [← hx.1]
    exact ⟨rfl, rfl, rfl⟩
  obtain ⟨hkind, hbits, htx⟩ := hxcv
  have hlen : anticollLength bits.toNat (fifoBytes r.fifo r.count).length = n := by rw [length_fifoBytes]; rfl
  have hfull : bits.toNat / 8 ≤ s.tx.length := by
    simp only [permitted, matrixRow, Bool.and_eq_true, decide_eq_true_eq] at hperm
    obtain ⟨⟨⟨-, ⟨⟨-, hceil⟩, -⟩⟩, -⟩, -⟩ := hperm
    omega
  have hchecks : ∀ u : State, decodeChecks (.xcvAnticoll bits) [] x r.count u =
      u.goTo (.xcvAnticoll bits) [.readFifo x r.count] := by
    have hfit : ¬ anticollLength x.bits r.count > x.cap := by
      rw [hbits, hcap, show anticollLength bits.toNat r.count = n from rfl]
      omega
    simp [decodeChecks, hkind, hfit]
  have hport' : s.port = answered (sc.views ++ r.views) ++
      (answered (if irqSet s.params sc.irqs .col then [col] else []) ++ ps) := by simpa [answered] using hport
  have hrun := steps_hostDecode hx hfits (by rw [hkind]; exact hrec) hclean hchecks hport' hticks
  obtain ⟨l', hdecode⟩ := steps_anticollDecode (s := s) (op := .xcvAnticoll bits) (f := fifoBytes r.fifo r.count) (col := col)
    (ps := ps) (ts := ts) (clk := sc.clockAfter s.clock) (irqs := sc.irqs)
    (evs := sc.events s.params x timeout s.clock ++ r.events r.count) (l := [.readFifo x r.count]) hkind hdest
  obtain ⟨e, k, hexec⟩ := exec_endOk (trace := s.trace ++ sc.events s.params x timeout s.clock ++ r.events r.count ++
    (if irqSet s.params sc.irqs .col then [.read (.collisionStatus col.collision)] else [])) hs hperm hs
    (hrun.trans hdecode) (by simp)
  rw [hbits, htx, length_fifoBytes] at hexec
  refine ⟨e, k, _, hexec, (length_anticollBytes _ _ _).trans hlen, fun j hj => ?_, fun j hge hlt => ?_⟩
  · have hjn : j < n := by omega
    rw [Option.getD_some, getD_anticollBytes hfull (hlen ▸ hjn), if_pos hj, if_neg (by omega)]
    simp
  · rw [Option.getD_some, getD_anticollBytes hfull (hlen ▸ hlt), if_neg (by omega)]
    rfl

/-! ## ISO-DEP -/

/-- The nine entries of FSC_TABLE (30 R90). -/
theorem fscOf_of_mem {fsci fsc : Nat} (h : (fsci, fsc) ∈
    [(0, 16), (1, 24), (2, 32), (3, 40), (4, 48), (5, 64), (6, 96), (7, 128), (8, 256)]) : fscOf fsci = some fsc := by
  simp only [List.mem_cons, List.not_mem_nil, or_false, Prod.mk.injEq] at h
  rcases h with ⟨rfl, rfl⟩ | ⟨rfl, rfl⟩ | ⟨rfl, rfl⟩ | ⟨rfl, rfl⟩ | ⟨rfl, rfl⟩ | ⟨rfl, rfl⟩ | ⟨rfl, rfl⟩ | ⟨rfl, rfl⟩ |
    ⟨rfl, rfl⟩ <;> rfl

/-- DEP_NEW steps S4 and S5 on an answer it accepts (45 R240, R242). -/
theorem depNewFinish_accepts {op : Instr} {rest : List Micro} {resp : List Byte} {fsc : Nat} (u : State)
    (hlen : 2 ≤ resp.length) (h : fscOf ((resp.getD 1 0).toNat % 16) = some fsc) :
    depNewFinish op rest resp u = endOk fsc none { u with fsc := BitVec.ofNat 9 fsc, spin := 0, sess := .dep } := by
  rw [depNewFinish, if_neg (by omega), fsciOf_eq, h]

/-- Settles O26: the exchange is accepted, and its answer selects the frame size. -/
theorem depNewCompletes : Obligations.DepNewCompletes := by
  unfold Obligations.DepNewCompletes
  intro s sc r fsc ps ts hs hperm hfits hacc hlen hmem hport hticks
  have hrun := steps_depNew hfits hacc hport hticks
  rw [depNewFinish_accepts _ hlen (fscOf_of_mem hmem)] at hrun
  exact exec_endOk (u := { s with fsc := BitVec.ofNat 9 fsc, spin := 0, sess := .dep }) hs hperm hs hrun
    (List.append_assoc _ _ _).symm

/-- DEP_XCV up to what it does with the response that follows its S(WTX) rounds (45 R245 to R248). -/
theorem steps_depXcv {s : State} {wtx : List BlockScript} {b : BlockScript} {ps : List PortAnswer} {ts : List Nat}
    (hlen : s.tx.length + 1 ≤ s.fsc.toNat) (hwtx : wtxFits s (headerOf s) s.clock (headerOf s :: s.tx) wtx = true)
    (hfits : b.sc.fits s.params (blockXcv s (headerOf s) (wtxNext (headerOf s :: s.tx) wtx)) s.params.tDep
      (wtxClock s.clock wtx) = true)
    (hacc : acceptedStandard s.params s.params.depCap b.sc b.r = true)
    (hport : s.port = answered (wtx.flatMap BlockScript.views ++ b.views) ++ ps)
    (hticks : s.ticks = wtx.flatMap (fun q => q.sc.ticks) ++ b.sc.ticks ++ ts) :
    ∃ l, Steps (s.goTo .depXcv (stepsOf .depXcv s))
      (depXcvFinish .depXcv [] (headerOf s) s.rxcap b.r.payload
        (s.running .depXcv l ps ts (b.sc.clockAfter (wtxClock s.clock wtx)) b.sc.irqs
          (wtxEvents s (headerOf s) s.clock (headerOf s :: s.tx) wtx ++
            b.events s (headerOf s) (wtxNext (headerOf s :: s.tx) wtx) (wtxClock s.clock wtx)))) := by
  have hx : exchangeOf .depXcv s wtx =
      some (blockXcv s (headerOf s) (wtxNext (headerOf s :: s.tx) wtx), s.params.tDep) := by
    simp [exchangeOf, hlen, hwtx]
  have hport' : s.port = answered (roundViews wtx) ++ (answered (b.sc.views ++ b.r.views) ++ ps) := by
    simpa [answered, roundViews, BlockScript.views] using hport
  have hticks' : s.ticks = roundTicks wtx ++ (b.sc.ticks ++ ts) := by simpa [roundTicks] using hticks
  obtain ⟨irqs', hrun⟩ := steps_exchangeOf hx hport' hticks'
  have hend := hrun.trans (steps_exchange_standard _ _ b.sc b.r rfl hfits hacc)
  rw [List.append_assoc] at hend
  exact ⟨_, hend⟩

/-- A header DEP_XCV sends is no S(WTX) header (30 R87, R88). -/
theorem isWtx_header (s : State) (payload : List Byte) : isWtx (headerOf s :: payload) = false := by
  have hne : headerOf s ≠ 0xF2 := by
    unfold headerOf
    split <;> decide
  simp only [isWtx, Bool.and_eq_false_iff, beq_eq_false_iff_ne]
  exact .inr hne

/-- SPIN flips by adding 1 (45 R252). -/
theorem flipSpin_eq (b : BitVec 1) : flipSpin b = b + 1 := by
  revert b
  decide

/-- DEP_XCV steps S8 to S11 on a response it accepts (45 R249 to R252). -/
theorem depXcvFinish_accepts {op : Instr} {rest : List Micro} {hdr : Byte} {rxcap : Nat} {payload : List Byte} (u : State)
    (hwtx : isWtx (hdr :: payload) = false) (hlen : payload.length ≤ rxcap) :
    depXcvFinish op rest hdr rxcap (hdr :: payload) u =
      endOk payload.length (some payload) { u with spin := u.spin + 1 } := by
  have hfit : ¬ payload.length > rxcap := by omega
  simp [depXcvFinish, hwtx, hfit, flipSpin_eq]

/-- Settles O27: the response that follows the S(WTX) rounds begins with the header sent and fits. -/
theorem depXcvCompletes : Obligations.DepXcvCompletes := by
  unfold Obligations.DepXcvCompletes
  intro s wtx b payload ps ts hdr tx clock hs hperm hlen hwtx hfits hacc hpay hrxcap hport hticks
  obtain ⟨l, hrun⟩ := steps_depXcv hlen hwtx hfits hacc hport hticks
  rw [hpay, depXcvFinish_accepts _ (isWtx_header s payload) hrxcap] at hrun
  exact exec_endOk (u := { s with spin := s.spin + 1 }) hs hperm hs hrun (List.append_assoc _ _ _).symm

/-- DEP_XCV steps S8 to S10 on a response it rejects (45 R249 to R251). -/
theorem depXcvFinish_rejects {op : Instr} {rest : List Micro} {hdr code : Byte} {rxcap : Nat} {resp : List Byte}
    (h : some code = (match resp with
      | [] => some 0x0F
      | b :: payload => if b ≠ hdr then some 0x0F else if payload.length > rxcap then some 0x0E else none))
    (hwtx : isWtx resp = false) :
    ∃ e, (∀ u, depXcvFinish op rest hdr rxcap resp u = raiseErr e op rest u) ∧ errCode e = code := by
  simp only [depXcvFinish, hwtx, Bool.false_eq_true, if_false]
  cases resp with
  | nil => cases h; exact ⟨_, fun _ => rfl, rfl⟩
  | cons b payload =>
    simp only at h
    split at h
    · cases h; exact ⟨_, fun _ => if_pos ‹_›, rfl⟩
    split at h
    · cases h; exact ⟨_, fun _ => (if_neg ‹_›).trans (if_pos ‹_›), rfl⟩
    · nomatch h

/-- Settles O41: the response that follows the S(WTX) rounds is rejected, and the error ends the operation. -/
theorem depXcvRejectsTheResponse : Obligations.DepXcvRejectsTheResponse := by
  unfold Obligations.DepXcvRejectsTheResponse
  intro s wtx b code ps ts hdr tx clock hs hperm hlen hwtx hfits hacc hno hcode hport hticks
  obtain ⟨l, hrun⟩ := steps_depXcv hlen hwtx hfits hacc hport hticks
  obtain ⟨e, hreject, rfl⟩ := depXcvFinish_rejects (op := .depXcv) (rest := []) (rxcap := s.rxcap) (hdr := hdr) hcode hno
  rw [hreject] at hrun
  exact exec_endError hs hperm hrun (List.append_assoc _ _ _).symm

end Sys2Proof.Machine
end

section
/-! SUPPORT. An operation that is one exchange, or DEP_XCV with its S(WTX) rounds: each of its steps belongs to an
exchange with the operation's destination or has no power but over IRQS, and the last step neither passes nor lets the
operation end by itself. So it waits, ends with an error, or ends with the delivery of its response. -/

namespace Sys2Proof.Machine

/-! ## The exchange that a step belongs to -/

/-- A plain step belongs to no exchange's steps from S6 on. -/
theorem plain_xcv {m : Micro} (hm : m.plain = true) : m.xcv? = none := by
  cases m <;> simp only [Micro.plain, Micro.xcv?, reduceCtorEq] at hm ⊢
  case startTimer w => cases w <;> simp at hm ⊢
  case refresh i k => cases k <;> simp at hm ⊢

/-- The steps put next belong to the exchange of the step itself; inside DEP_XCV to the next exchange, with the same
destination. -/
theorem puts_xcv {p : Params} {m q : Micro} {new : List Micro} {y : Xcv} (h : Puts p m new) (hq : q ∈ new)
    (hy : q.xcv? = some y) : ∃ x, m.xcv? = some x ∧ y.dest = x.dest ∧ (x.dest = .host → y = x) := by
  cases h
  case nothing => nomatch hq
  case extended x data tx bits rxcap hdr hd =>
    obtain ⟨l, hl, he⟩ := exchange_eq_plain p (depExchange tx p.depCap (.depXcv hdr rxcap)) p.tDep
    rw [he, List.mem_append, List.mem_singleton] at hq
    rcases hq with hq | rfl
    · rw [plain_xcv (List.all_eq_true.mp hl q hq)] at hy
      nomatch hy
    · cases hy
      exact ⟨x, rfl, hd.symm, fun hh => nomatch hd.symm.trans hh⟩
  case started w now =>
    rw [List.mem_singleton.mp hq] at hy
    cases w <;> simp [startTimed, Micro.xcv?] at hy ⊢
    exact ⟨by rw [hy], fun _ => hy.symm⟩
  case nextRegister i k _ | lastRegister i k | undecided k =>
    rw [List.mem_singleton.mp hq] at hy
    cases k <;> simp [Micro.xcv?] at hy ⊢
    exact ⟨by rw [hy], fun _ => hy.symm⟩
  case again k =>
    simp only [List.mem_cons, List.not_mem_nil, or_false] at hq
    rcases hq with rfl | rfl <;> cases k <;> simp [Micro.xcv?] at hy ⊢
    exact ⟨by rw [hy], fun _ => hy.symm⟩
  case fieldAgain | xcvError | xcvLate | calAgain | delayAgain =>
    simp only [List.mem_cons, List.not_mem_nil, or_false] at hq
    rcases hq with rfl | rfl <;> nomatch hy
  case xcvSuccess =>
    simp only [List.mem_cons, List.not_mem_nil, or_false] at hq
    rcases hq with rfl | rfl
    · nomatch hy
    · cases hy
      exact ⟨_, rfl, rfl, fun _ => rfl⟩
  case countHigh | fits | collided | decoded | positioned =>
    rw [List.mem_singleton.mp hq] at hy
    cases hy
    exact ⟨_, rfl, rfl, fun _ => rfl⟩
  all_goals
    rw [List.mem_singleton.mp hq] at hy
    nomatch hy

/-- What a step is about to read or deliver fits the capacity of its exchange (44 R214 to R216). -/
def Micro.fits : Micro → Prop
  | .readFifo x n => decodedLength x n ≤ x.cap
  | .readCollision x out => out.length ≤ x.cap
  | .deliver x data _ => data.length ≤ x.cap
  | _ => True

theorem puts_fits {p : Params} {m q : Micro} {new : List Micro} (h : Puts p m new) (hm : m.fits) (hq : q ∈ new) :
    q.fits := by
  cases h
  case nothing => nomatch hq
  case extended x data tx bits rxcap hdr hd =>
    obtain ⟨l, hl, he⟩ := exchange_eq_plain p (depExchange tx p.depCap (.depXcv hdr rxcap)) p.tDep
    rw [he, List.mem_append, List.mem_singleton] at hq
    rcases hq with hq | rfl
    · have hplain := List.all_eq_true.mp hl q hq
      cases q <;> simp [Micro.plain, Micro.fits] at hplain ⊢
    · trivial
  case fits x hi n hfit =>
    rw [List.mem_singleton.mp hq]
    exact hfit
  case collided x n out hout =>
    rw [List.mem_singleton.mp hq]
    exact (Nat.le_of_eq hout).trans hm
  case decoded x n bits data hdata =>
    rw [List.mem_singleton.mp hq]
    exact (Nat.le_of_eq hdata).trans hm
  case positioned =>
    rw [List.mem_singleton.mp hq]
    exact hm
  case started w now =>
    rw [List.mem_singleton.mp hq]
    cases w <;> trivial
  all_goals
    simp only [List.mem_cons, List.not_mem_nil, or_false] at hq
    rcases hq with rfl | rfl <;> trivial

/-! ## The plan of an operation that is an exchange -/

/-- `m` is a step of an operation whose exchanges have the destination `dest` and, for the host, the capacity `cap`. -/
def Micro.serves (dest : Dest) (cap : Nat) (m : Micro) : Prop :=
  (∀ c, m.may c = true → c = .irqs) ∨
    ∃ x, m.xcv? = some x ∧ x.dest = dest ∧ (dest = .host → x.cap = cap) ∧ m.fits

/-- The plan of such an operation. -/
structure OfExchange (dest : Dest) (cap : Nat) (l : List Micro) : Prop where
  serves : ∀ m ∈ l, m.serves dest cap
  last : ∃ l' m, l = l' ++ [m] ∧ (m.xcv?.isSome ∨ ∃ e, m = .raise e)

/-- The steps before exchange step S6 have power over IRQS only. -/
theorem exchange_eq_within (p : Params) (x : Xcv) (timeout : Nat) :
    ∃ l, Within [.irqs] l ∧ exchange p x timeout = l ++ [.startTimer (.xcv x)] := by
  refine ⟨_, ?_, rfl⟩
  have hpay : Within [] (xcvPayload x) := by unfold xcvPayload; cases x.kind <;> rfl
  simp only [within_append]
  exact ⟨⟨⟨⟨⟨rfl, hpay.mono (List.nil_subset _)⟩, rfl⟩, within_irqClear p⟩, rfl⟩, rfl⟩

theorem within_serves {dest : Dest} {cap : Nat} {l : List Micro} (h : Within [.irqs] l) : ∀ m ∈ l, m.serves dest cap :=
  fun m hm => .inl fun c hc => by simpa using within_iff.mp h m hm c hc

/-- An exchange is such a plan. -/
theorem ofExchange_exchange (p : Params) (x : Xcv) (timeout : Nat) : OfExchange x.dest x.cap (exchange p x timeout) := by
  obtain ⟨l, hl, he⟩ := exchange_eq_within p x timeout
  refine ⟨fun m hm => ?_, l, _, he, .inl rfl⟩
  rw [he, List.mem_append, List.mem_singleton] at hm
  rcases hm with hm | rfl
  · exact within_serves hl m hm
  · exact .inr ⟨x, rfl, rfl, fun _ => rfl, trivial⟩

/-- An XCV operation is one exchange for the host, with the capacity RXCAP (44 R200). -/
theorem ofExchange_host {i : Instr} {s : State} (hi : (hostExchange i s).isSome) :
    OfExchange .host s.rxcap (stepsOf i s) := by
  cases i <;> simp only [hostExchange, Option.isSome_none, Bool.false_eq_true] at hi
  case xcvReqa => exact ofExchange_exchange _ (reqaXcv s) _
  case xcvWupa => exact ofExchange_exchange _ (wupaXcv s) _
  case xcvAnticoll b => exact ofExchange_exchange _ (anticollXcv b s) _
  case xcvStandard => exact ofExchange_exchange _ (standardXcv s) _

theorem ofExchange_depNew (s : State) : OfExchange .depNew s.params.atsCap (stepsOf .depNew s) :=
  ofExchange_exchange _ (depExchange [s.params.rats0, s.params.rats1] s.params.atsCap .depNew) _

theorem ofExchange_depXcv (s : State) :
    OfExchange (.depXcv (iBlockHeader s.spin) s.rxcap) s.params.depCap (stepsOf .depXcv s) := by
  simp only [stepsOf, depXcvSteps]
  split
  · exact ⟨within_serves rfl, [], _, rfl, .inr ⟨_, rfl⟩⟩
  · exact ofExchange_exchange _ (depXcvExchange s) _

/-- A step of an exchange puts no other power next than that over IRQS, but in its own steps. -/
theorem puts_irqs {p : Params} {m q : Micro} {new : List Micro} {x : Xcv} (h : Puts p m new) (hm : m.xcv? = some x)
    (hq : q ∈ new) (hy : q.xcv? = none) : ∀ c, q.may c = true → c = .irqs := by
  cases h
  case nothing => nomatch hq
  case extended y data tx bits rxcap hdr hd =>
    obtain ⟨l, hl, he⟩ := exchange_eq_within p (depExchange tx p.depCap (.depXcv hdr rxcap)) p.tDep
    rw [he, List.mem_append, List.mem_singleton] at hq
    rcases hq with hq | rfl
    · exact fun c hc => by simpa using within_iff.mp hl q hq c hc
    · nomatch hy
  case started w now =>
    rw [List.mem_singleton.mp hq] at hy
    cases w <;> simp [startTimed, Micro.xcv?] at hm hy
  case again | xcvError | xcvSuccess | xcvLate =>
    simp only [List.mem_cons, List.not_mem_nil, or_false] at hq
    rcases hq with rfl | rfl <;> intro c hc <;> cases c <;> simp_all [Micro.may, Micro.xcv?]
  case nextRegister i k _ | lastRegister i k | undecided k =>
    rw [List.mem_singleton.mp hq] at hy ⊢
    cases k <;> simp [Micro.xcv?] at hm hy
  all_goals
    simp only [Micro.xcv?, reduceCtorEq] at hm
  all_goals
    rw [List.mem_singleton.mp hq] at hy
    nomatch hy

/-- The steps put next are steps of the same operation. -/
theorem puts_serves {p : Params} {dest : Dest} {cap : Nat} {m q : Micro} {new : List Micro} (h : Puts p m new)
    (hm : m.serves dest cap) (hq : q ∈ new) : q.serves dest cap := by
  rcases hm with hm | ⟨x, hx, hdest, hcap, hfits⟩
  · exact .inl fun c hc => hm c (puts_may h hq hc)
  · cases hy : q.xcv? with
    | none => exact .inl (puts_irqs h hx hq hy)
    | some y =>
      obtain ⟨x', hx', hyd, hhost⟩ := puts_xcv h hq hy
      cases hx.symm.trans hx'
      refine .inr ⟨y, hy, hyd.trans hdest, fun hh => ?_, puts_fits h hfits hq⟩
      rw [hhost (hdest.trans hh)]
      exact hcap hh

/-- The last step of an exchange leads to another last step. -/
theorem puts_last {p : Params} {m : Micro} {new : List Micro} (h : Puts p m new) (hm : m.xcv?.isSome) :
    ∃ l q, new = l ++ [q] ∧ (q.xcv?.isSome ∨ ∃ e, q = .raise e) := by
  cases h
  case extended y data tx bits rxcap hdr hd =>
    obtain ⟨l, -, he⟩ := exchange_eq_within p (depExchange tx p.depCap (.depXcv hdr rxcap)) p.tDep
    exact ⟨l, _, he, .inl rfl⟩
  case xcvError x dl e => exact ⟨[_], _, rfl, .inr ⟨_, rfl⟩⟩
  case xcvLate => exact ⟨[_], _, rfl, .inr ⟨_, rfl⟩⟩
  case xcvSuccess => exact ⟨[_], _, rfl, .inl rfl⟩
  case again k => exact ⟨[_], _, rfl, .inl (by cases k <;> first | rfl | nomatch hm)⟩
  case started w now => exact ⟨[], _, rfl, .inl (by cases w <;> first | rfl | nomatch hm)⟩
  case nextRegister i k _ | lastRegister i k | undecided k =>
    exact ⟨[], _, rfl, .inl (by cases k <;> first | rfl | nomatch hm)⟩
  case countHigh | fits | collided | decoded | positioned => exact ⟨[], _, rfl, .inl rfl⟩
  case nothing hp =>
    cases m <;> simp [Micro.passes, Micro.xcv?] at hp hm
    rename_i k
    cases k <;> simp at hp hm
  all_goals simp [Micro.xcv?] at hm

/-- A step that goes on leaves a plan of the same kind. -/
theorem OfExchange.goes {dest : Dest} {cap : Nat} {m : Micro} {s u : State} {new rest : List Micro}
    (h : act m s = some (.goes u new)) (hs : OfExchange dest cap (m :: rest)) : OfExchange dest cap (new ++ rest) := by
  obtain ⟨hserves, l, q, hl, hq⟩ := hs
  refine ⟨fun r hr => ?_, ?_⟩
  · rcases List.mem_append.mp hr with hr | hr
    · exact puts_serves (act_puts h) (hserves m List.mem_cons_self) hr
    · exact hserves r (List.mem_cons_of_mem _ hr)
  · cases l with
    | nil =>
      obtain ⟨rfl, rfl⟩ : m = q ∧ rest = [] := by simpa using hl
      rcases hq with hq | ⟨e, rfl⟩
      · rw [List.append_nil]
        exact puts_last (act_puts h) hq
      · nomatch h
    | cons r l =>
      obtain ⟨-, rfl⟩ : m = r ∧ rest = l ++ [q] := by simpa using hl
      exact ⟨new ++ l, q, (List.append_assoc _ _ _).symm, hq⟩

/-! ## How it stops -/

/-- A step of the operation that does not return leaves FSC, SPIN and SESS. -/
theorem serves_kept {dest : Dest} {cap : Nat} {m : Micro} {s : State} {x : Exit} (h : act m s = some x)
    (hm : m.serves dest cap) (hx : ∀ u v rx, x ≠ .returns u v rx) :
    x.state.fsc = s.fsc ∧ x.state.spin = s.spin ∧ x.state.sess = s.sess := by
  by_cases hd : ∃ y data bits, m = .deliver y data bits
  · obtain ⟨y, data, bits, rfl⟩ := hd
    cases h
    rcases deliverExit_cases y data bits s with he | ⟨-, _, -, he⟩ | ⟨_, _, _, -, -, he⟩
    · rw [he]; exact ⟨rfl, rfl, rfl⟩
    · exact absurd he (hx _ _ _)
    · exact absurd he (hx _ _ _)
  · have hd' : ∀ y data bits, m ≠ .deliver y data bits := fun y data bits he => hd ⟨y, data, bits, he⟩
    have hset : ∀ v, m ≠ .setSess v := by
      rintro v rfl
      rcases hm with hm | ⟨_, hm, -⟩
      · nomatch hm .sess rfl
      · nomatch hm
    obtain ⟨hfsc, hspin⟩ := (act_moved h).block hd'
    exact ⟨hfsc, hspin, (act_moved h).sess hset hd'⟩

/-- A step of the operation that returns delivers a response that fits. -/
theorem serves_returns {dest : Dest} {cap : Nat} {m : Micro} {s u : State} {v : Nat} {rx : Option (List Byte)}
    (h : act m s = some (.returns u v rx)) (hm : m.serves dest cap) :
    ∃ x data bits, x.dest = dest ∧ (dest = .host → data.length ≤ cap) ∧ deliverExit x data bits s = .returns u v rx := by
  rcases hm with hm | ⟨x, hx, hdest, hcap, hfits⟩
  · rcases act_returns h with rfl | ⟨_, rfl⟩ | ⟨_, _, _, rfl⟩ <;> nomatch hm .returns rfl
  · rcases act_returns h with rfl | ⟨_, rfl⟩ | ⟨y, data, bits, rfl⟩
    · nomatch hx
    · nomatch hx
    · cases hx
      exact ⟨x, data, bits, hdest, fun hh => hcap hh ▸ hfits, Option.some.inj h⟩

/-- How the operation stops: before its Ok end, with FSC, SPIN and SESS as they were, or with the delivery of a
response. -/
inductive ExchangeStops (dest : Dest) (cap : Nat) (s t : State) : Prop where
  | unfinished (h : ¬(t.seq = .idle ∧ t.status = 0x00)) (hfsc : t.fsc = s.fsc) (hspin : t.spin = s.spin)
    (hsess : t.sess = s.sess)
  | delivered {u w : State} {x : Xcv} {data : List Byte} {bits v : Nat} {rx : Option (List Byte)}
    (hfsc : u.fsc = s.fsc) (hspin : u.spin = s.spin) (hsess : u.sess = s.sess) (hrx : u.rx = s.rx) (hdest : x.dest = dest)
    (hfit : dest = .host → data.length ≤ cap) (hret : deliverExit x data bits u = .returns w v rx) (ht : t = endOk v rx w)

/-- Every permitted exchange stops in one of the two ways. -/
theorem exchange_stops {i : Instr} {s t : State} {dest : Dest} {cap : Nat} (hs : s.seq = .idle)
    (hp : permitted i s = true) (hi : OfExchange dest cap (stepsOf i s)) (hc : .catches ∉ powersOf i)
    (h : exec i s = .next t) : ExchangeStops dest cap s t := by
  have hplays : ∀ {u l}, Plays s (stepsOf i s) u l →
      (u.fsc = s.fsc ∧ u.spin = s.spin ∧ u.sess = s.sess) ∧ OfExchange dest cap l := by
    intro u l hplay
    refine hplay.keeps (P := fun u l => (u.fsc = s.fsc ∧ u.spin = s.spin ∧ u.sess = s.sess) ∧ OfExchange dest cap l) ?_
      ⟨⟨rfl, rfl, rfl⟩, hi⟩
    rintro a b m new k hgo ⟨⟨hfsc, hspin, hsess⟩, hof⟩
    obtain ⟨hfsc', hspin', hsess'⟩ := serves_kept hgo (hof.serves m List.mem_cons_self) (fun _ _ _ he => nomatch he)
    exact ⟨⟨hfsc'.trans hfsc, hspin'.trans hspin, hsess'.trans hsess⟩, hof.goes hgo⟩
  cases exec_stops hs hp hc h with
  | waits hplay _ ht =>
    obtain ⟨⟨hfsc, hspin, hsess⟩, -⟩ := hplays hplay
    subst ht
    exact .unfinished (fun hi => nomatch hi.1) hfsc hspin hsess
  | raises hplay hm ht =>
    obtain ⟨⟨hfsc, hspin, hsess⟩, hof⟩ := hplays hplay
    obtain ⟨hfsc', hspin', hsess'⟩ := serves_kept hm (hof.serves _ List.mem_cons_self) (fun _ _ _ he => nomatch he)
    subst ht
    exact .unfinished (fun hi => errCode_ne_ok _ hi.2) (hfsc'.trans hfsc) (hspin'.trans hspin) (hsess'.trans hsess)
  | returns hplay hm ht =>
    obtain ⟨⟨hfsc, hspin, hsess⟩, hof⟩ := hplays hplay
    obtain ⟨-, -, -, -, hrx, -⟩ := hplay.progress
    obtain ⟨x, data, bits, hdest, hfit, hret⟩ := serves_returns hm (hof.serves _ List.mem_cons_self)
    exact .delivered hfsc hspin hsess hrx hdest hfit hret ht
  | done hplay _ =>
    obtain ⟨-, -, l, m, hnil, -⟩ := hplays hplay
    simp at hnil

/-! ## What the deliveries return -/

theorem depNewExit_returns {resp : List Byte} {s u : State} {v : Nat} {rx : Option (List Byte)}
    (h : depNewExit resp s = .returns u v rx) :
    v ∈ fscTable ∧ u = { s with fsc := BitVec.ofNat 9 v, spin := 0, sess := .dep } ∧ rx = none := by
  unfold depNewExit at h
  split at h
  · nomatch h
  · split at h <;> cases h
    exact ⟨List.mem_of_getElem? ‹_›, rfl, rfl⟩

theorem depXcvExit_returns {hdr : Byte} {rxcap : Nat} {resp : List Byte} {s u : State} {v : Nat} {rx : Option (List Byte)}
    (h : depXcvExit hdr rxcap resp s = .returns u v rx) :
    u = { s with spin := s.spin + 1 } ∧ ∃ payload, payload.length ≤ rxcap ∧ rx = some payload := by
  unfold depXcvExit at h
  split at h
  · nomatch h
  · split at h
    · nomatch h
    · rename_i b payload _
      split at h
      · nomatch h
      · split at h <;> cases h
        exact ⟨by rw [flipSpin_eq], payload, by omega, rfl⟩

/-- The sizes of the table are those of FSC's nine bits, and of VALUE (30 R90). -/
theorem fscTable_lt {v : Nat} (h : v ∈ fscTable) : v < 2 ^ 9 := by
  revert v
  decide

/-- Settles O58: DEP_NEW and DEP_XCV write FSC, SPIN and SESS in the delivery that ends them Ok. -/
theorem depFrame : Obligations.DepFrame := by
  unfold Obligations.DepFrame
  intro i s t hi hs h
  have hkept : ∀ {c : Power}, c ∉ powersOf i → c.kept s t := fun hc => exec_kept h hc
  refine ⟨hkept (c := .ready) (by revert hi; cases i <;> simp [powersOf]),
    hkept (c := .fatal) (by revert hi; cases i <;> simp [powersOf]),
    hkept (c := .mode) (by revert hi; cases i <;> simp [powersOf]), ?_⟩
  cases hp : permitted i s
  · rw [exec_not_permitted hs hp] at h
    cases h
    simp [refuse, statusRefused]
  simp only [List.mem_cons, List.not_mem_nil, or_false] at hi
  rcases hi with rfl | rfl
  · refine ⟨fun _ => ?_, (fun he => nomatch he)⟩
    cases exchange_stops hs hp (ofExchange_depNew s) (by simp [powersOf]) h with
    | unfinished hnot hfsc hspin hsess =>
      rw [if_neg hnot]
      exact ⟨hfsc, hspin, hsess⟩
    | @delivered u w x data bits v rx _ _ _ _ hdest _ hret ht =>
      simp only [deliverExit, hdest] at hret
      obtain ⟨hv, rfl, -⟩ := depNewExit_returns hret
      have hlt := fscTable_lt hv
      have hfsc : (BitVec.ofNat 9 v).toNat = v := Nat.mod_eq_of_lt hlt
      have hvalue : (BitVec.ofNat 32 v).toNat = v := Nat.mod_eq_of_lt (by omega)
      subst ht
      rw [if_pos ⟨rfl, rfl⟩]
      exact ⟨(hfsc.symm ▸ hv : (BitVec.ofNat 9 v).toNat ∈ fscTable), hvalue.trans hfsc.symm, rfl, rfl⟩
  · refine ⟨(fun he => nomatch he), fun _ => ?_⟩
    cases exchange_stops hs hp (ofExchange_depXcv s) (by simp [powersOf]) h with
    | unfinished hnot hfsc hspin hsess =>
      rw [if_neg hnot]
      exact ⟨hfsc, hsess, hspin⟩
    | delivered hfsc hspin hsess _ hdest _ hret ht =>
      simp only [deliverExit, hdest] at hret
      obtain ⟨rfl, -⟩ := depXcvExit_returns hret
      subst ht
      rw [if_pos ⟨rfl, rfl⟩, ← hspin]
      exact ⟨hfsc, hsess, rfl⟩

end Sys2Proof.Machine
end

section
/-! SUPPORT. The result latches (10 R32): a run writes them with its last step only, and RX with an Ok end only where a
response is delivered. And FSC and SPIN while SESS is not Dep: no step reads them, and DEP_NEW's delivery writes both. -/

namespace Sys2Proof.Machine

/-! ## The result latches -/

/-- STATUS, VALUE, ERRINFO and RX are those of `s`. -/
structure SameResults (s t : State) : Prop where
  status : t.status = s.status
  value : t.value = s.value
  errinfo : t.errinfo = s.errinfo
  rx : t.rx = s.rx

theorem Moved.sameResults {m : Micro} {s u : State} (h : Moved m s u) : SameResults s u := by
  obtain ⟨_, _, _, _, _, _, _, _, _, _, _, _, rfl⟩ := h.eq
  exact ⟨rfl, rfl, rfl, rfl⟩

/-- A step that leaves the operation running writes no result latch. -/
theorem ctrlStep_sameResults {s t : State} (h : ctrlStep s = some t) (ht : t.seq ≠ .idle) : SameResults s t := by
  rcases ctrlStep_effect h with ⟨op, -, rfl⟩ | ⟨op, m, rest, u, -, hmoved, hended⟩
  · exact absurd rfl ht
  · obtain ⟨hstatus, hvalue, herr, hrx⟩ := hmoved.sameResults
    rcases hended with ⟨_, rfl⟩ | ⟨_, _, rfl⟩ | ⟨_, _, rfl⟩ | ⟨_, rfl⟩
    · exact ⟨hstatus, hvalue, herr, hrx⟩
    · exact ⟨hstatus, hvalue, herr, hrx⟩
    · exact absurd rfl ht
    · exact absurd rfl ht

theorem ctrlStep_from_busy {s t : State} (h : ctrlStep s = some t) : s.seq ≠ .idle := by
  intro hidle
  simp [ctrlStep, hidle] at h

/-- A run that has not ended has written no result latch. -/
theorem runToStop_sameResults {s : State} (h : (runToStop s).seq ≠ .idle) : SameResults s (runToStop s) := by
  refine runToStop_keeps (P := fun u => u.seq ≠ .idle → SameResults s u) ?_ (fun _ => ⟨rfl, rfl, rfl, rfl⟩) h
  intro a b hstep ha hb
  obtain ⟨hstatus, hvalue, herr, hrx⟩ := ha (ctrlStep_from_busy hstep)
  obtain ⟨hstatus', hvalue', herr', hrx'⟩ := ctrlStep_sameResults hstep hb
  exact ⟨hstatus'.trans hstatus, hvalue'.trans hvalue, herr'.trans herr, hrx'.trans hrx⟩

/-- RX is that of `s`, but after an error. -/
def RxKept (s t : State) : Prop := t.rx = s.rx ∨ t.seq = .idle ∧ t.status ≠ 0x00

/-- A step of no exchange leaves RX, but in an error. -/
theorem ctrlStep_rxKept {s t : State} (h : ctrlStep s = some t) (hs : ∀ m ∈ s.todo, m.xcv? = none) : RxKept s t := by
  rcases ctrlStep_cases h with ⟨op, -, rfl⟩ | ⟨op, m, rest, x, hseq, hx, rfl⟩
  · exact .inl rfl
  · have hrx := (act_moved hx).sameResults.rx
    cases x with
    | goes u new => exact .inl hrx
    | raises u e =>
      rcases raiseErr_cases e op rest u with ⟨-, he⟩ | ⟨_, _, _, -, he⟩ | ⟨_, -, he⟩ <;> rw [Exit.resume, he]
      · exact .inr ⟨rfl, errCode_ne_ok e⟩
      · exact .inl hrx
      · exact .inl hrx
    | returns u v rx =>
      have hnone : rx = none := by
        rw [State.todo_of_busy hseq] at hs
        rcases act_returns hx with rfl | ⟨dl, rfl⟩ | ⟨_, _, _, rfl⟩
        · simp only [act] at hx
          rcases ask_eq_some hx with ⟨_, _, -, hx⟩ | ⟨_, _, -, hx⟩ <;> cases hx
          rfl
        · simp only [act] at hx
          rcases ask_eq_some hx with ⟨_, _, -, hx⟩ | ⟨_, _, -, hx⟩
          · nomatch hx
          · unfold calExit at hx
            split at hx
            · nomatch hx
            · split at hx <;> cases hx
              rfl
        · nomatch hs _ List.mem_cons_self
      subst hnone
      exact .inl hrx

/-- So does a run of such steps. -/
theorem runToStop_rxKept {s : State} (hs : ∀ m ∈ s.todo, m.xcv? = none) : RxKept s (runToStop s) := by
  have hkeeps := runToStop_keeps (P := fun u => RxKept s u ∧ ∀ m ∈ u.todo, m.xcv? = none) (s := s) ?_ ⟨.inl rfl, hs⟩
  · exact hkeeps.1
  · rintro a b hstep ⟨hrx, htodo⟩
    refine ⟨?_, ctrlStep_todo (Q := fun m => m.xcv? = none) ?_ ?_ hstep htodo⟩
    · have ha := hrx.resolve_right fun hi => ctrlStep_from_busy hstep hi.1
      exact (ctrlStep_rxKept hstep htodo).imp_left fun hb => hb.trans ha
    · intro _ e q hq
      simp only [pathF, List.mem_cons, List.not_mem_nil, or_false] at hq
      rcases hq with rfl | rfl | rfl | rfl | rfl <;> rfl
    · intro m new hm hputs q hq
      cases hy : q.xcv? with
      | none => rfl
      | some y =>
        obtain ⟨x, hx, -⟩ := puts_xcv hputs hq hy
        nomatch hm.symm.trans hx

/-- A step of an exchange leads to its return. -/
theorem returns_of_xcv {m : Micro} {x : Xcv} (hx : m.xcv? = some x) : m.may .returns = true := by
  cases m <;> simp only [Micro.xcv?, reduceCtorEq] at hx
  case startTimer w => cases w <;> first | rfl | nomatch hx
  case refresh i k => cases k <;> first | rfl | nomatch hx
  all_goals simp_all [Micro.may, Micro.xcv?]

/-- The operations that receive nothing are issued without steps of an exchange. -/
theorem stepsOf_xcv {i : Instr} {s : State} (hhost : (hostExchange i s).isNone) (hnew : i ≠ .depNew) (hxcv : i ≠ .depXcv) :
    ∀ m ∈ stepsOf i s, m.xcv? = none := by
  intro m hm
  by_cases hr : .returns ∈ powersOf i
  · have hmeasure : ∀ c, m ∈ measureSteps s.params c → m.xcv? = none := by
      intro c hmem
      rcases List.mem_append.mp hmem with hmem | hmem
      · exact plain_xcv (List.all_eq_true.mp (plain_cmdWait s.params c) m hmem)
      · rw [List.mem_singleton.mp hmem]
        rfl
    cases i <;> simp [powersOf, hostExchange] at hr hhost hnew hxcv
    case measAmp | measPhase | measCap => exact hmeasure _ hm
    case calCap =>
      simp only [stepsOf, calCapSteps, List.mem_cons, List.not_mem_nil, or_false] at hm
      rcases hm with rfl | rfl | rfl <;> rfl
  · have hmay := may_of_stepsOf hr m hm
    cases hx : m.xcv? with
    | none => rfl
    | some x => nomatch hmay.symm.trans (returns_of_xcv hx)

/-- What a receiving operation that has ended Ok leaves in RX fits RXCAP (44 R214 to R216, 45 R251). -/
theorem rx_fits {i : Instr} {s t : State} (hs : s.seq = .idle) (hp : permitted i s = true) (h : exec i s = .next t)
    (hi : (hostExchange i s).isSome ∨ i = .depXcv) (hidle : t.seq = .idle) (hst : t.status = 0x00) :
    t.rx.length ≤ s.rxcap := by
  rcases hi with hi | rfl
  · have hc : .catches ∉ powersOf i := by cases i <;> simp [powersOf, hostExchange] at hi ⊢
    cases exchange_stops hs hp (ofExchange_host hi) hc h with
    | unfinished hnot => exact absurd ⟨hidle, hst⟩ hnot
    | delivered _ _ _ _ hdest hfit hret ht =>
      simp only [deliverExit, hdest] at hret
      cases hret
      subst ht
      exact hfit rfl
  · cases exchange_stops hs hp (ofExchange_depXcv s) (by simp [powersOf]) h with
    | unfinished hnot => exact absurd ⟨hidle, hst⟩ hnot
    | delivered _ _ _ _ hdest _ hret ht =>
      simp only [deliverExit, hdest] at hret
      obtain ⟨-, payload, hlen, rfl⟩ := depXcvExit_returns hret
      subst ht
      exact hlen

/-- Any other operation that has ended Ok leaves RX. -/
theorem rx_kept {i : Instr} {s t : State} (hs : s.seq = .idle) (hp : permitted i s = true) (h : exec i s = .next t)
    (hhost : (hostExchange i s).isNone) (hxcv : i ≠ .depXcv) (hidle : t.seq = .idle) (hst : t.status = 0x00) :
    t.rx = s.rx := by
  by_cases hnew : i = .depNew
  · subst hnew
    cases exchange_stops hs hp (ofExchange_depNew s) (by simp [powersOf]) h with
    | unfinished hnot => exact absurd ⟨hidle, hst⟩ hnot
    | delivered _ _ _ hrx hdest _ hret ht =>
      simp only [deliverExit, hdest] at hret
      obtain ⟨-, rfl, rfl⟩ := depNewExit_returns hret
      subst ht
      exact hrx
  · rw [exec_permitted hs hp, Host.Outcome.next.injEq] at h
    subst h
    have hkept : RxKept (s.goTo i (stepsOf i s)) _ := runToStop_rxKept (stepsOf_xcv hhost hnew hxcv)
    exact hkept.resolve_right fun herr => herr.2 hst

/-- Settles O49: the latches are written by the last step; RX by a delivery that fits, or not at all. -/
theorem resultLatchesAreWrittenAtTheEnd : Obligations.ResultLatchesAreWrittenAtTheEnd := by
  unfold Obligations.ResultLatchesAreWrittenAtTheEnd
  intro i s t hs h
  cases hp : permitted i s
  · rw [exec_not_permitted hs hp] at h
    cases h
    exact ⟨fun hb => absurd hs hb, (fun _ hst => nomatch hst)⟩
  · refine ⟨fun hbusy => ?_, fun hidle hst => ⟨fun hi => rx_fits hs hp h hi hidle hst,
      fun hhost hxcv => rx_kept hs hp h hhost hxcv hidle hst⟩⟩
    rw [exec_permitted hs hp, Host.Outcome.next.injEq] at h
    subst h
    obtain ⟨hstatus, hvalue, herr, hrx⟩ := runToStop_sameResults hbusy
    exact ⟨hstatus, hvalue, herr, hrx⟩

/-! ## FSC and SPIN outside a session of ISO-DEP -/

/-- `s` with other values of FSC and SPIN. -/
def withBlock (fsc : BitVec 9) (spin : BitVec 1) (s : State) : State := { s with fsc := fsc, spin := spin }

section
variable {fsc : BitVec 9} {spin : BitVec 1}

theorem withBlock_blind : Blind (withBlock fsc spin) where
  params _ := rfl
  irqs _ := rfl
  clock _ := rfl
  emit _ _ := rfl
  setMode _ _ := rfl
  setReady _ _ := rfl
  setFatal _ _ := rfl
  setSess _ _ := rfl
  setIrqs _ _ := rfl
  port h := ⟨_, h, rfl⟩
  ticks h := ⟨_, h, rfl⟩
  line h := ⟨_, h, rfl⟩

theorem withBlock_passive : Passive (withBlock fsc spin) where
  seq _ := rfl
  goTo _ _ _ := rfl
  emit _ _ := rfl
  endOk _ _ _ := rfl
  endError _ _ := rfl

/-- `m` opens no ISO-DEP session by itself, and delivers to the host or to DEP_NEW. -/
def Micro.blockless (m : Micro) : Prop :=
  m ≠ .setSess .dep ∧ ∀ x, m.xcv? = some x → ∀ hdr rxcap, x.dest ≠ .depXcv hdr rxcap

theorem puts_blockless {p : Params} {m q : Micro} {new : List Micro} (h : Puts p m new) (hm : m.blockless) (hq : q ∈ new) :
    q.blockless := by
  obtain ⟨-, hdest⟩ := hm
  refine ⟨?_, fun y hy hdr rxcap => ?_⟩
  · rintro rfl
    cases hx : m.xcv? with
    | some x => nomatch puts_irqs h hx hq rfl .sess rfl
    | none =>
      have hmay := puts_may (c := .sess) h hq rfl
      have hset : ∃ v, m = .setSess v := by cases m <;> simp_all [Micro.may]
      obtain ⟨v, rfl⟩ := hset
      cases h
      nomatch hq
  · obtain ⟨x, hx, he, -⟩ := puts_xcv h hq hy
    rw [he]
    exact hdest x hx hdr rxcap

/-- Every operation but DEP_XCV is issued with such steps. -/
theorem stepsOf_blockless {i : Instr} {s : State} (hi : i ≠ .depXcv) : ∀ m ∈ stepsOf i s, m.blockless := by
  intro m hm
  by_cases hnew : i = .depNew
  · subst hnew
    rcases (ofExchange_depNew s).serves m hm with hirqs | ⟨x, hx, hdest, -⟩
    · refine ⟨?_, fun x hx => (nomatch hirqs .returns (returns_of_xcv hx))⟩
      rintro rfl
      nomatch hirqs .dep rfl
    · refine ⟨?_, fun y hy hdr rxcap he => ?_⟩
      · rintro rfl
        nomatch hx
      · cases hx.symm.trans hy
        nomatch hdest.symm.trans he
  · have hblock := may_of_stepsOf (c := .block) (by cases i <;> simp [powersOf] at hi hnew ⊢) m hm
    have hdep := may_of_stepsOf (c := .dep) (by cases i <;> simp [powersOf] at hi hnew ⊢) m hm
    refine ⟨?_, fun x hx hdr rxcap he => ?_⟩
    · rintro rfl
      nomatch hdep
    · simp [Micro.may, hx, he] at hblock

/-- A delivery to the host or to DEP_NEW does not read FSC and SPIN; where it opens a session it writes both. -/
theorem deliverExit_withBlock {x : Xcv} (hx : ∀ hdr rxcap, x.dest ≠ .depXcv hdr rxcap) (data : List Byte) (bits : Nat)
    (s : State) :
    (deliverExit x data bits (withBlock fsc spin s) = (deliverExit x data bits s).map (withBlock fsc spin) ∧
      (deliverExit x data bits s).state.sess = s.sess) ∨
    ∃ u v, deliverExit x data bits s = .returns u v none ∧
      deliverExit x data bits (withBlock fsc spin s) = .returns u v none ∧ u.sess = .dep := by
  unfold deliverExit
  cases hd : x.dest with
  | host => exact .inl ⟨rfl, rfl⟩
  | depXcv hdr rxcap => exact absurd hd (hx hdr rxcap)
  | depNew =>
    simp only [depNewExit]
    split
    · exact .inl ⟨rfl, rfl⟩
    · cases fscOf (fsciOf data) with
      | none => exact .inl ⟨rfl, rfl⟩
      | some v => exact .inr ⟨_, _, rfl, rfl, rfl⟩

/-- So it is with every such step. -/
theorem act_withBlock {m : Micro} {s : State} {x : Exit} (hm : m.blockless) (hs : s.sess ≠ .dep) (h : act m s = some x) :
    (act m (withBlock fsc spin s) = some (x.map (withBlock fsc spin)) ∧ x.state.sess ≠ .dep) ∨
    ∃ u v, x = .returns u v none ∧ act m (withBlock fsc spin s) = some (.returns u v none) ∧ u.sess = .dep := by
  obtain ⟨hset, hdest⟩ := hm
  by_cases hd : ∃ y data bits, m = .deliver y data bits
  · obtain ⟨y, data, bits, rfl⟩ := hd
    cases h
    rcases deliverExit_withBlock (fsc := fsc) (spin := spin) (hdest y rfl) data bits s with
      ⟨he, hsess⟩ | ⟨u, v, he, he', hu⟩
    · exact .inl ⟨congrArg some he, by rwa [hsess]⟩
    · exact .inr ⟨u, v, he, congrArg some he', hu⟩
  · have hd' : ∀ y data bits, m ≠ .deliver y data bits := fun y data bits he => hd ⟨y, data, bits, he⟩
    refine .inl ⟨act_blind withBlock_blind (fun y data bits he => absurd he (hd' y data bits)) h, ?_⟩
    by_cases hv : ∃ v, m = .setSess v
    · obtain ⟨v, rfl⟩ := hv
      cases h
      rintro rfl
      exact hset rfl
    · rwa [(act_moved h).sess (not_exists.mp hv) hd']

/-- Where a run with other values of FSC and SPIN is when this one is at `t`. -/
def followed (fsc : BitVec 9) (spin : BitVec 1) (t : State) : State := if t.sess = .dep then t else withBlock fsc spin t

/-- A step of CTRL, with other values of FSC and SPIN. -/
theorem ctrlStep_withBlock {s t : State} (hs : s.sess ≠ .dep) (htodo : ∀ m ∈ s.todo, m.blockless)
    (h : ctrlStep s = some t) :
    ctrlStep (withBlock fsc spin s) = some (followed fsc spin t) ∧ (t.sess = .dep → t.seq = .idle) := by
  rcases ctrlStep_cases h with ⟨op, hseq, rfl⟩ | ⟨op, m, rest, x, hseq, hx, rfl⟩
  · refine ⟨?_, fun _ => rfl⟩
    rw [followed, if_neg (show (endOk 0 none s).sess ≠ .dep from hs)]
    simp [ctrlStep, withBlock_passive.seq, hseq, withBlock_passive.endOk]
  · rw [State.todo_of_busy hseq] at htodo
    rw [ctrlStep_eq_act (s := withBlock fsc spin s) hseq]
    rcases act_withBlock (fsc := fsc) (spin := spin) (htodo m List.mem_cons_self) hs hx with
      ⟨he, hsess⟩ | ⟨u, v, rfl, he, hu⟩
    · have hne : (x.resume op rest).sess ≠ .dep := by
        have hkept : (x.resume op rest).sess = x.state.sess := (resume_ended op rest x).kept .sess
        rwa [hkept]
      rw [he, followed, if_neg hne, Option.map_some, resume_passive withBlock_passive]
      exact ⟨rfl, fun hdep => absurd hdep hne⟩
    · have hdep : (Exit.resume op rest (.returns u v none)).sess = .dep := hu
      rw [he, followed, if_pos hdep]
      exact ⟨rfl, fun _ => rfl⟩

/-- A run, with other values of FSC and SPIN. -/
theorem runToStop_withBlock {s : State} (hs : s.sess ≠ .dep) (htodo : ∀ m ∈ s.todo, m.blockless) :
    runToStop (withBlock fsc spin s) = followed fsc spin (runToStop s) := by
  have hkeeps := runToStop_keeps (s := s) (P := fun t => Steps (withBlock fsc spin s) (followed fsc spin t) ∧
    (t.sess = .dep → t.seq = .idle) ∧ ∀ m ∈ t.todo, m.blockless) ?_
    ⟨by rw [followed, if_neg hs]; exact .refl _, fun hdep => absurd hdep hs, htodo⟩
  · refine runToStop_eq hkeeps.1 ?_
    have hstopped := runToStop_stopped s
    unfold followed
    split
    · exact hstopped
    · rw [ctrlStep_eq_none] at hstopped ⊢
      exact hstopped
  · rintro a b hstep ⟨hsteps, hidle, ha⟩
    have hne : a.sess ≠ .dep := fun hdep => ctrlStep_from_busy hstep (hidle hdep)
    rw [followed, if_neg hne] at hsteps
    obtain ⟨hb, hend⟩ := ctrlStep_withBlock (fsc := fsc) (spin := spin) hne ha hstep
    refine ⟨hsteps.trans (.single hb), hend, ctrlStep_todo ?_ ?_ hstep ha⟩
    · intro _ e q hq
      simp only [pathF, List.mem_cons, List.not_mem_nil, or_false] at hq
      rcases hq with rfl | rfl | rfl | rfl | rfl <;> exact ⟨by simp, by simp [Micro.xcv?]⟩
    · exact fun m new hm hputs q hq => puts_blockless hputs hm hq

end

/-- Settles O59: DEP_XCV is not permitted, and no step of any other operation reads FSC or SPIN. -/
theorem frameSizeAndSpinAreReadInDepOnly : Obligations.FrameSizeAndSpinAreReadInDepOnly := by
  unfold Obligations.FrameSizeAndSpinAreReadInDepOnly
  intro i s t fsc spin hs hsess h
  have hi : permitted i s = true → i ≠ .depXcv := by
    rintro hp rfl
    obtain ⟨-, -, hdep, -⟩ := permitted_regs hp
    exact hsess (by simpa [matrixRow] using hdep)
  have hperm : permitted i (withBlock fsc spin s) = permitted i s := by
    cases i
    case depXcv => simp [permitted, matrixRow, withBlock, hsess]
    all_goals rfl
  change exec i (withBlock fsc spin s) = .next (followed fsc spin t)
  rw [exec_idle hs, Host.Outcome.next.injEq] at h
  rw [exec_idle (s := withBlock fsc spin s) hs, hperm, ← h]
  split
  · have hne := hi ‹_›
    have hsteps : stepsOf i (withBlock fsc spin s) = stepsOf i s := by cases i <;> first | rfl | exact absurd rfl hne
    rw [hsteps]
    exact congrArg _ (runToStop_withBlock (s := s.goTo i (stepsOf i s)) hsess (stepsOf_blockless hne))
  · rw [followed, if_neg (show (refuse s).sess ≠ .dep from hsess)]
    rfl

end Sys2Proof.Machine
end
